-- ==== Sys2Proof/Word.lean ====
section
/-! DEFINITION. The word type of the emulator CPU: every register and every memory location holds one
32-bit word (00_scope.md R4, 10_state.md R11), and one character code occupies 8 bits (43 R155). -/

namespace Sys2Proof

/-- A 32-bit word, the unit of memory and of every register (R1, R4). Its arithmetic is modulo 2^32. -/
abbrev Word := BitVec 32

/-- A character code or a byte of a tape or a packet: 8 bits (R155). -/
abbrev Byte := BitVec 8

end Sys2Proof
end

