-- ==== Sys2Proof/Syntax.lean ====
section
/-! DEFINITION. The assembler-level terms of the emulator CPU: registers, symbolic names, operand forms and the
twenty-seven instructions of spec/opcode_table.json (30_encoding.md R72 to R78, R83). -/

namespace Sys2Proof

/-- The sixteen general registers (10_state.md R10): R0 to R12, SP, FP, PC. The spec gives SP, FP and PC no
numbers (N4), so they are names. -/
inductive Reg where
  | r (n : Fin 13)
  | sp
  | fp
  | pc
deriving DecidableEq, Repr

/-- The eleven special registers (10_state.md R15). -/
inductive SReg where
  | flags | pdbr | intvec | cgbr | cglen | debug | timer | sysSp | sysFp | usrSp | usrFp
deriving DecidableEq, Repr

/-- The seven flags (10_state.md R27). -/
inductive FlagName where
  | r | z | n | err | sys | ip | vm
deriving DecidableEq, Repr

/-- The fourteen interrupt names (30_encoding.md R77, 60_exceptions.md R200). -/
inductive IntCode where
  | none | memory | pagefault | unimpop | halt | divzero | unwrop | timer | privop | keybd | badcall
  | pagepriv | debug | intrfault
deriving DecidableEq, Repr

/-- The nineteen operations of PERI (30_encoding.md R78). -/
inductive PeriOp where
  | discCheck | discRead | discWrite
  | tapeCheck | tapeRewind | tapeLoad | tapeUnload | tapeRead | tapeWrite
  | termInC | termOutC | termInW | termOutW
  | netSS | netSend | netRecv
  | seconds | uSeconds | dateTime
deriving DecidableEq, Repr

/-- A condition of JCOND (40 R97): ERR is the only one the spec defines. A condition the source does not list is
kept by its code in the model's word layout (Log 51). -/
inductive Cond where
  | err
  | unlisted (code : BitVec 4)
deriving DecidableEq, Repr

/-- The operand forms of 30_encoding.md R73. A number, a character, a label and a `$` name are all constants
(45 R190); `[label+name]` is the memory word at a constant address. -/
inductive Operand where
  | num (c : Word)
  | reg (m : Reg)
  | ind (m : Reg)
  | indOff (m : Reg) (k : Word)
  | abs (a : Word)
deriving DecidableEq, Repr

/-- The instructions, one constructor for each row of spec/opcode_table.json (30_encoding.md R83), in its order.
`k`, `f` are the special-register and flag numbers of R75 and R76. EXBR, DPBR, EXBRV, DPBRV, PHLOAD, PHSTORE and
CLRPP have operands the source does not show (N15, N21): the 27 bits beside the operation code are kept unread. Whether
SYSCALL has a main register, and writes it, is not in the source (44 R181, N20). DESIGN CHOICE (Log 66): it has none. -/
inductive Instr where
  | getsr (rd : Reg) (k : Word)
  | setsr (rs : Reg) (k : Word)
  | getfl (rd : Reg) (f : Word)
  | setfl (rs : Reg) (f : Word)
  | flagsj (rs : Reg) (target : Operand)
  | comp (rn : Reg) (op : Operand)
  | compz (op : Operand)
  | jcond (c : Cond) (target : Operand)
  | exbr (bits : BitVec 27)
  | dpbr (bits : BitVec 27)
  | exbrv (bits : BitVec 27)
  | dpbrv (bits : BitVec 27)
  | sbit (rd : Reg) (b : Operand)
  | cbit (rd : Reg) (b : Operand)
  | peri (rd : Reg) (control : Operand)
  | halt
  | syscall (index : Operand)
  | iret
  | phload (bits : BitVec 27)
  | phstore (bits : BitVec 27)
  | clrpp (bits : BitVec 27)
  | load (rd : Reg) (op : Operand)
  | store (rs : Reg) (op : Operand)
  | push (op : Operand)
  | call (target : Operand)
  | ret
  | inc (op : Operand)
deriving DecidableEq, Repr

end Sys2Proof
end

