-- ==== Sys2Proof/WellFormed.lean ====
section
/-! DEFINITION. Which instruction terms fit the model's word layout (Log 1). The spec gives no field widths (30_encoding.md
R71, N38): a term that does not fit is still an instruction of the machine, reached through the parameter
`codebook` (Config.lean). -/

namespace Sys2Proof

/-- A constant operand fits the 20-bit field. -/
def Operand.fits : Operand → Bool
  | .num c => c.toNat < 2 ^ 20
  | .reg _ => true
  | .ind _ => true
  | .indOff _ k => k.toNat < 2 ^ 16
  | .abs a => a.toNat < 2 ^ 20

/-- An unlisted condition has a code other than that of ERR. -/
def Cond.fits : Cond → Bool
  | .err => true
  | .unlisted c => c ≠ 0

/-- The instruction has a word in the model's layout. -/
def Instr.wf : Instr → Bool
  | .getsr _ k => k.toNat < 2 ^ 20
  | .setsr _ k => k.toNat < 2 ^ 20
  | .getfl _ f => f.toNat < 2 ^ 20
  | .setfl _ f => f.toNat < 2 ^ 20
  | .flagsj _ t => t.fits
  | .comp _ op => op.fits
  | .compz op => op.fits
  | .jcond c t => c.fits && t.fits
  | .exbr _ => true
  | .dpbr _ => true
  | .exbrv _ => true
  | .dpbrv _ => true
  | .sbit _ b => b.fits
  | .cbit _ b => b.fits
  | .peri _ c => c.fits
  | .halt => true
  | .syscall i => i.fits
  | .iret => true
  | .phload _ => true
  | .phstore _ => true
  | .clrpp _ => true
  | .load _ op => op.fits
  | .store _ op => op.fits
  | .push op => op.fits
  | .call t => t.fits
  | .ret => true
  | .inc op => op.fits

end Sys2Proof
end

