-- ==== Sys2Proof/Decode.lean ====
section
/-! DEFINITION. The decoder and, after it, the encoder. DESIGN CHOICE (Log 1): the spec gives no bit layout at all
(30_encoding.md R71, 92 D1), so this layout is the MODEL's, unsafe for any claim about the bits of an instruction word. One
instruction is one word (R70):

    bits 31..27  operation code, 1 to 27 in the order of spec/opcode_table.json
    bits 26..23  main register (R0 to R12 = 0 to 12, SP = 13, FP = 14, PC = 15), or JCOND's condition (ERR = 0)
    bits 22..20  operand form: 0 number, 1 register, 2 [register], 3 [register+number], 4 [constant address]
    bits 19..0   the number or address (forms 0, 4); else bits 19..16 the register, bits 15..0 the added number

A field an instruction does not use is zero. Every other word is rejected by name. -/

namespace Sys2Proof

/-- Why a word is no instruction of the layout. -/
inductive DecodeError where
  /-- The operation code is none of the twenty-seven. -/
  | unknownOperation
  /-- A field the instruction does not use is not zero. -/
  | unusedFieldNotZero
  /-- The operand form is none of the five. -/
  | unknownOperandForm
  /-- A special-register or flag number is not written as a number. -/
  | numberExpected
deriving DecidableEq, Repr

def opField (w : Word) : BitVec 5 := w.extractLsb' 27 5
def mainField (w : Word) : BitVec 4 := w.extractLsb' 23 4
def formField (w : Word) : BitVec 3 := w.extractLsb' 20 3
def lowField (w : Word) : BitVec 20 := w.extractLsb' 0 20
/-- Everything beside the operation code. -/
def restField (w : Word) : BitVec 27 := w.extractLsb' 0 27

/-- The register a 4-bit field names in the model's layout. -/
def decodeReg (b : BitVec 4) : Reg :=
  if h : b.toNat < 13 then .r ⟨b.toNat, h⟩
  else if b = 13 then .sp
  else if b = 14 then .fp
  else .pc

def decodeCond (b : BitVec 4) : Cond :=
  if b = 0 then .err else .unlisted b

/-- The operand of a form. The spec gives neither the width nor the signedness of a numeric operand (30_encoding.md R71,
N38): DESIGN CHOICE (Log 1), the 20-bit number and the 16-bit added number are extended with zeros. -/
def decodeOperand (form : BitVec 3) (x : BitVec 20) : Except DecodeError Operand :=
  match form.toNat with
  | 0 => .ok (.num (x.setWidth 32))
  | 1 => if x.extractLsb' 0 16 = 0 then .ok (.reg (decodeReg (x.extractLsb' 16 4)))
         else .error .unusedFieldNotZero
  | 2 => if x.extractLsb' 0 16 = 0 then .ok (.ind (decodeReg (x.extractLsb' 16 4)))
         else .error .unusedFieldNotZero
  | 3 => .ok (.indOff (decodeReg (x.extractLsb' 16 4)) ((x.extractLsb' 0 16).setWidth 32))
  | 4 => .ok (.abs (x.setWidth 32))
  | _ => .error .unknownOperandForm

/-- The number of an instruction whose operand is a special-register or flag number (30_encoding.md R75, R76),
extended with zeros (Log 1). -/
def decodeNumber (form : BitVec 3) (x : BitVec 20) : Except DecodeError Word :=
  if form = 0 then .ok (x.setWidth 32) else .error .numberExpected

/-- An instruction without a main register: its field is zero. That SYSCALL is one is the model's choice (Log 66). -/
def decodeSole (main : BitVec 4) (mk : Operand → Instr) (op : Except DecodeError Operand) :
    Except DecodeError Instr :=
  if main = 0 then op.map mk else .error .unusedFieldNotZero

/-- An instruction without any operand: everything beside the operation code is zero. -/
def decodeBare (rest : BitVec 27) (i : Instr) : Except DecodeError Instr :=
  if rest = 0 then .ok i else .error .unusedFieldNotZero

/-- The instruction a word stands for in the model's layout. -/
def decode (w : Word) : Except DecodeError Instr :=
  let main := mainField w
  let rn := decodeReg main
  let op := decodeOperand (formField w) (lowField w)
  let k := decodeNumber (formField w) (lowField w)
  let rest := restField w
  match (opField w).toNat with
  | 1 => k.map (.getsr rn)
  | 2 => k.map (.setsr rn)
  | 3 => k.map (.getfl rn)
  | 4 => k.map (.setfl rn)
  | 5 => op.map (.flagsj rn)
  | 6 => op.map (.comp rn)
  | 7 => decodeSole main .compz op
  | 8 => op.map (.jcond (decodeCond main))
  | 9 => .ok (.exbr rest)
  | 10 => .ok (.dpbr rest)
  | 11 => .ok (.exbrv rest)
  | 12 => .ok (.dpbrv rest)
  | 13 => op.map (.sbit rn)
  | 14 => op.map (.cbit rn)
  | 15 => op.map (.peri rn)
  | 16 => decodeBare rest .halt
  | 17 => decodeSole main .syscall op
  | 18 => decodeBare rest .iret
  | 19 => .ok (.phload rest)
  | 20 => .ok (.phstore rest)
  | 21 => .ok (.clrpp rest)
  | 22 => op.map (.load rn)
  | 23 => op.map (.store rn)
  | 24 => decodeSole main .push op
  | 25 => decodeSole main .call op
  | 26 => decodeBare rest .ret
  | 27 => decodeSole main .inc op
  | _ => .error .unknownOperation

/-- What the host asks of the decoder: an instruction is one 32-bit word (R70), so its bits are that word. -/
def decodeTableWord (_nbits w : Nat) : Option Instr :=
  if w < 2 ^ 32 then (decode (BitVec.ofNat 32 w)).toOption else none

/-- The four fields as one word. -/
def packFields (op : BitVec 5) (main : BitVec 4) (form : BitVec 3) (x : BitVec 20) : Word :=
  op ++ main ++ form ++ x

def encodeReg : Reg → BitVec 4
  | .r n => BitVec.ofNat 4 n
  | .sp => 13
  | .fp => 14
  | .pc => 15

def encodeCond : Cond → BitVec 4
  | .err => 0
  | .unlisted c => c

/-- The form and the low field of an operand. -/
def encodeOperand : Operand → BitVec 3 × BitVec 20
  | .num c => (0, c.setWidth 20)
  | .reg m => (1, encodeReg m ++ (0 : BitVec 16))
  | .ind m => (2, encodeReg m ++ (0 : BitVec 16))
  | .indOff m k => (3, encodeReg m ++ k.setWidth 16)
  | .abs a => (4, a.setWidth 20)

def packOperand (op : BitVec 5) (main : BitVec 4) (o : Operand) : Word :=
  packFields op main (encodeOperand o).1 (encodeOperand o).2

def packNumber (op : BitVec 5) (main : BitVec 4) (k : Word) : Word :=
  packFields op main 0 (k.setWidth 20)

def packBits (op : BitVec 5) (rest : BitVec 27) : Word := op ++ rest

/-- The word of an instruction in the model's layout; it is the instruction's word when `Instr.wf` holds. -/
def encode : Instr → Word
  | .getsr rd k => packNumber 1 (encodeReg rd) k
  | .setsr rs k => packNumber 2 (encodeReg rs) k
  | .getfl rd f => packNumber 3 (encodeReg rd) f
  | .setfl rs f => packNumber 4 (encodeReg rs) f
  | .flagsj rs t => packOperand 5 (encodeReg rs) t
  | .comp rn op => packOperand 6 (encodeReg rn) op
  | .compz op => packOperand 7 0 op
  | .jcond c t => packOperand 8 (encodeCond c) t
  | .exbr bits => packBits 9 bits
  | .dpbr bits => packBits 10 bits
  | .exbrv bits => packBits 11 bits
  | .dpbrv bits => packBits 12 bits
  | .sbit rd b => packOperand 13 (encodeReg rd) b
  | .cbit rd b => packOperand 14 (encodeReg rd) b
  | .peri rd c => packOperand 15 (encodeReg rd) c
  | .halt => packBits 16 0
  | .syscall i => packOperand 17 0 i
  | .iret => packBits 18 0
  | .phload bits => packBits 19 bits
  | .phstore bits => packBits 20 bits
  | .clrpp bits => packBits 21 bits
  | .load rd op => packOperand 22 (encodeReg rd) op
  | .store rs op => packOperand 23 (encodeReg rs) op
  | .push op => packOperand 24 0 op
  | .call t => packOperand 25 0 t
  | .ret => packBits 26 0
  | .inc op => packOperand 27 0 op

end Sys2Proof
end

