-- ==== Sys2Proof/Config.lean ====
section
/-! DEFINITION. What an implementation fixes and what the spec leaves open: the machine's parameters (00_scope.md section 5,
92_eei_decisions.md "Parameters left open"), as plain data carried in State and changed by no step (Log 58), and the
free values (`draw` of 00_scope.md section 6.1), constants without a body that nothing can evaluate. -/

namespace Sys2Proof

/-- PERI_OP (30_encoding.md R78, D34): the word of each of the nineteen operation names. The spec gives no numbers. -/
structure PeriCodes where
  discCheck : Word
  discRead : Word
  discWrite : Word
  tapeCheck : Word
  tapeRewind : Word
  tapeLoad : Word
  tapeUnload : Word
  tapeRead : Word
  tapeWrite : Word
  termInC : Word
  termOutC : Word
  termInW : Word
  termOutW : Word
  netSS : Word
  netSend : Word
  netRecv : Word
  seconds : Word
  uSeconds : Word
  dateTime : Word
deriving DecidableEq, Repr

/-- What a word fetched as an instruction stands for (30_encoding.md R71, R81; 45 R197). -/
inductive WordMeaning where
  /-- One of the twenty-seven instructions of R83. -/
  | instr (i : Instr)
  /-- Its operation code is not one the CPU implements (R81). -/
  | unimplemented
  /-- An instruction of the CPU that the source does not name (45 R197). -/
  | notInSource
deriving DecidableEq, Repr

/-- The machine's parameters. -/
structure Params where
  /-- PHYS_WORDS (20_memory.md R41, D6): physical addresses below it exist. -/
  physWords : Nat
  /-- DEBUG_FATAL (60_exceptions.md R201, D11): whether DEBUG is of the fatal class. -/
  debugFatal : Bool
  /-- PERI_OP (R78, D34). -/
  periOp : PeriCodes
  /-- SR_NUMBER (10_state.md R15, D2): the number of USRSP. -/
  usrSpNumber : Word
  /-- SR_NUMBER (10_state.md R15, D2): the number of USRFP. -/
  usrFpNumber : Word
  /-- KEYBUF_CAP (43 R150, N28): the keyboard buffer's capacity, `none` for unbounded. -/
  keybufCap : Option Nat
  /-- The encode/decode pair taken as an argument (30_encoding.md R71, D1): what each word listed here stands for. -/
  codebook : List (Word × WordMeaning)
  /-- Whether a word that is not listed has the meaning the model's own layout gives it (Log 1). Where it has not, the
  word is data of unknown status and is not executed (R81). -/
  byLayout : Bool
deriving DecidableEq, Repr

/-- A free word: the value of the n-th draw (R-files' `draw`). No body: nothing can be proved of it. -/
opaque Config.freeWord : Nat → Word

/-- The word a physical address holds before anything is written to it (20_memory.md R41, D27; Log 3). -/
opaque Config.startWord : Nat → Word

/-- What the host answers when it is asked to open a tape's file and State schedules no answer: `none` when the file is
not accessible, else the bytes it holds (42 R123, R135; Log 49). -/
opaque Config.hostTapeOpen : Nat → Option (List Byte)

/-- Whether a host write or network call succeeds when State schedules no answer (42 R123; Log 49). -/
opaque Config.hostOk : Nat → Bool

/-- Whether the host starts a network unit when State schedules no answer, `none` when it does not, else the port it
selects where it is to select one (43 R158; Log 49, Log 69). -/
opaque Config.hostPort : Nat → Option (BitVec 16)

/-- The four bytes of the real IP address of the computer (43 R157; Log 69). -/
opaque Config.hostIp : Word

/-- The two words that hold the six-byte address made of a host address and a UDP port: an opaque pair (43 R161, N43;
Log 69). -/
opaque Config.addressPair : Word → BitVec 16 → Word × Word

end Sys2Proof
end

