-- ==== Sys2Proof/Machine/State.lean ====
section
/-! DEFINITION. The state of the machine as plain data: every register, flag, memory and device state the spec names
(10_state.md), the machine's parameters, and the model's own fields (INVENTORY.md, "State"). -/

namespace Sys2Proof.Machine

/-- The seven one-bit flags (10_state.md R27). FLAGS is no separate storage (R16): it is computed from them. -/
structure Flags where
  r : Bool
  z : Bool
  n : Bool
  err : Bool
  sys : Bool
  ip : Bool
  vm : Bool
deriving DecidableEq, Repr

/-- Words by address, addresses strictly rising (`Memory.wf` in Ops.lean). An address that is not listed has never been
written. Used for physical memory (20_memory.md R40) and for the words of a disc (42 R128). The smallest unit
the spec addresses is the 32-bit word (Log 2). -/
abbrev Memory := List (Nat × Word)

/-- A disc drive (42 R128): its size in blocks and the words written so far, word j of block b at 128*b + j. -/
structure Disc where
  size : Nat
  content : Memory
deriving DecidableEq, Repr

/-- A tape is readable or writable, never both (42 R132). -/
inductive TapeMode where
  | read
  | write
deriving DecidableEq, Repr

/-- A loaded tape (42 R132): the file's name, its mode, the bytes it holds and the byte position. -/
structure Tape where
  file : List Byte
  mode : TapeMode
  data : List Byte
  pos : Nat
deriving DecidableEq, Repr

/-- A packet with the simulated address it comes from or goes to, an opaque pair of words (43 R161). -/
structure Packet where
  endpoint : Word × Word
  data : List Byte
deriving DecidableEq, Repr

/-- A network unit that is on (43 R157): its UDP port, which with the computer's IP address is its own address
(`NetUnit.address`), and the packets received, oldest first. -/
structure NetUnit where
  port : BitVec 16
  inq : List Packet
deriving DecidableEq, Repr

/-- What the host does between two instructions: keys pressed, packets arriving at a unit, microseconds passing
(42 R123, 43 R150, R157, R162; Log 49). A key is one code of 8 bits, outside ASCII too (DESIGN CHOICE, Log 70). -/
structure Arrival where
  keys : List Byte
  packets : List (Fin 2 × Packet)
  micros : Nat
deriving DecidableEq, Repr

/-- The host as an oracle (42 R123), its coming actions and answers as plain data (Log 49). An answer list that
is empty gives free values. -/
structure HostOracle where
  /-- One entry is taken by each step. -/
  arrivals : List Arrival
  /-- Answers to coming $TAPELOADs: `none` not accessible, else what the opened file holds. -/
  tapeOpens : List (Option (List Byte))
  /-- Whether each coming host write of a disc succeeds. -/
  discWrites : List Bool
  /-- Whether each coming host write of a tape succeeds. -/
  tapeWrites : List Bool
  /-- Answers to coming network starts: `none` where the host cannot start the unit, else the port it selects where it
  is to select one. -/
  ports : List (Option (BitVec 16))
  /-- Whether each coming host send succeeds. -/
  sends : List Bool
  /-- Whether each coming host receive call succeeds. -/
  recvs : List Bool
deriving DecidableEq, Repr

/-- Why the CPU is halted (60_exceptions.md R215, R231). -/
inductive StopReason where
  | haltInstruction
  | fatalInterrupt (code : IntCode)
  | rWritten
deriving DecidableEq, Repr

/-- The whole state. -/
structure State where
  /-- R0 to R12 (10_state.md R10). -/
  gpr : Vector Word 13
  /-- PC (R14). -/
  pc : Word
  /-- PDBR (R17). -/
  pdbr : Word
  /-- INTVEC (R18). -/
  intvec : Word
  /-- CGBR (R19). -/
  cgbr : Word
  /-- CGLEN (R20). -/
  cglen : Word
  /-- DEBUG (R21). -/
  debug : Word
  /-- TIMER (R22). -/
  timer : Word
  /-- SYSSP (R23); SP in system mode (R12). -/
  sysSp : Word
  /-- SYSFP (R24); FP in system mode (R13). -/
  sysFp : Word
  /-- USRSP (R25); SP in user mode (R12). -/
  usrSp : Word
  /-- USRFP (R26); FP in user mode (R13). -/
  usrFp : Word
  /-- The seven flags (R27). -/
  flags : Flags
  /-- Physical memory (20_memory.md R40, R41). -/
  mem : Memory
  /-- The hardware keyboard buffer, first character first (43 R150). -/
  kbuf : List Byte
  /-- The terminal output so far (10_state.md R37). -/
  screen : List Byte
  /-- Disc drives 1 to 8 at indices 0 to 7, `none` where the drive does not exist (42 R128). -/
  discs : Vector (Option Disc) 8
  /-- Tape units 1 to 8 at indices 0 to 7, `none` where unloaded (42 R132). -/
  tapes : Vector (Option Tape) 8
  /-- Network units 1 and 2 at indices 0 and 1, `none` where off (43 R157). -/
  nets : Vector (Option NetUnit) 2
  /-- The packets handed to the host's UDP send, with the unit, oldest first (43 R159). -/
  netSent : List (Fin 2 × Packet)
  /-- The hardware clock: microseconds since midnight, 1 January 2000 (43 R162). -/
  clock : Nat
  /-- Why the CPU is halted, `none` while it runs (60_exceptions.md R231). -/
  stopReason : Option StopReason
  /-- The machine's parameters; no step changes them. -/
  params : Params
  /-- The MODEL's own: the host's coming actions (Log 49). -/
  host : HostOracle
  /-- The MODEL's own: how many free values have been used (Log 56). -/
  draws : Nat
  /-- The MODEL's own: the instruction being executed raised an interrupt, so the step leaves out the TIMER
  (60_exceptions.md R223, R226; Log 56). -/
  interrupted : Bool
  /-- The MODEL's own: the physical addresses of the words 40 that top a SYSCALL frame and that nothing has written
  since, so that an IRET on such a frame can be refused (44 R181, D17; Log 56). -/
  gateFrames : List Nat
deriving DecidableEq, Repr

/-- Nothing raises a fault: where the machine can go no further it takes an interrupt or halts, both next states, and
where the spec asks a model to refuse there is a `Refusal`. -/
inductive Fault where
deriving DecidableEq, Repr

/-- Why the model gives an instruction no meaning in some case. Each is safe: where the hardware goes on, the
model stops and proves nothing. -/
inductive Refusal where
  /-- An instruction without a meaning in Dispatch.lean; no arm raises it. -/
  | notModelled (mnemonic : String)
  /-- EXBR, DPBR, EXBRV, DPBRV: the operand roles are not in the source (41 R113 to R116). -/
  | bitRangeOperandRoles
  /-- PHLOAD, PHSTORE, CLRPP in system mode: the effect is not in the source (44 R183 to R185, D37). -/
  | effectNotInSource
  /-- PC named as a register operand (45 R190). -/
  | pcAsOperand
  /-- GETSR, SETSR with a number that names no special register (40 R90, R91, D28). -/
  | specialRegisterNumber
  /-- GETFL, SETFL with a number that names no flag (40 R92, R93, D28). -/
  | flagNumber
  /-- SBIT, CBIT with a bit number above 31 or one not given by a number (41 R117, R118). -/
  | bitNumber
  /-- JCOND with a condition other than ERR (40 R97). -/
  | unlistedCondition
  /-- SYSCALL through a gate entry that is zero (44 R181, D17). -/
  | zeroCallGate
  /-- IRET on the frame a SYSCALL pushed (44 R181, D17). -/
  | returnFromGateFrame
  /-- $DISCREAD, $DISCWRITE with a block count of 0 or less (42 R130, N45). -/
  | blockCount
  /-- $TAPEWRITE with a byte count of 0 or less or above 512 (42 R138, N45). -/
  | byteCount
  /-- $TERMINC, $TERMOUTC, $TERMINW, $TERMOUTW with a negative count (43 R151 to R154, N45). -/
  | characterCount
  /-- $TAPELOAD of a unit that is loaded (42 R135, N45). -/
  | tapeAlreadyLoaded
  /-- $NETSS with a second word other than 0 or 1 (43 R158, N45). -/
  | networkSwitch
  /-- $NETSS with a first address word that is not zero (43 R158). -/
  | networkAddressWord
  /-- $DATETIME of a negative time (43 R165, D43). -/
  | negativeTime
  /-- A fetched word of which nothing says what it stands for: data (30_encoding.md R81). -/
  | wordOfUnknownStatus
  /-- A fetched instruction of the CPU that the source does not name (45 R197). -/
  | instructionNotInSource
deriving DecidableEq, Repr

/-- An interrupt an instruction raises: its code, its interrupt-causing address, and its additional information where the
spec defines one; where it defines none the word is a draw (60_exceptions.md R200, D10). -/
structure Trap where
  code : IntCode
  address : Word
  info : Option Word
deriving DecidableEq, Repr

/-- How the work of an instruction ends early. -/
inductive Stop where
  | trap (t : Trap)
  | refuse (r : Refusal)
deriving DecidableEq, Repr

/-- An interrupt with every word of its frame settled (60_exceptions.md R215, R217). -/
structure Request where
  code : IntCode
  address : Word
  info : Word
  savedPc : Word
deriving DecidableEq, Repr

/-- How the delivery of an interrupt ends (60_exceptions.md R215): a handler is entered, the CPU is stopped, or
the interrupt is ignored. -/
inductive Delivered where
  | entered (s : State)
  | stopped (s : State)
  | ignored
deriving DecidableEq, Repr

/-- A run of pushes: the state reached, the physical addresses written, and whether every push was done. -/
structure PushRun where
  state : State
  touched : List Nat
  complete : Bool
deriving DecidableEq, Repr

/-- Where an operand can be written (45 R190, `Place`). -/
inductive Place where
  | reg (m : Reg)
  | mem (a : Word)
  | unwritable
deriving DecidableEq, Repr

/-- A run of PERI stores: the state reached, how many words were stored, and whether all were. -/
structure StoreRun where
  state : State
  stored : Nat
  complete : Bool
deriving DecidableEq, Repr

/-- How the scan for a zero character ends: at a zero, at a word that cannot be read, or not within the address space
(met only by a $TAPELOAD whose unit number is out of range, Log 52). -/
inductive ScanEnd where
  | zero
  | memory
  | endless
deriving DecidableEq, Repr

/-- How a PERI operation ends: with the word that goes to the main register (42 R120), or refused. -/
inductive PeriEnd where
  | done (result : Word) (s : State)
  | refuse (r : Refusal)
deriving DecidableEq, Repr

/-- The parameters at reset, all DESIGN CHOICE (Log 8): PHYS_WORDS and the special-register numbers as in
95_test_vectors.md part 3 and 92 D2, DEBUG_FATAL and KEYBUF_CAP at their suggested defaults, the operation numbers
any pairwise distinct ones, no word given a meaning. -/
def Params.reset : Params where
  physWords := 0x20000
  debugFatal := true
  periOp :=
    { discCheck := 0x101, discRead := 0x102, discWrite := 0x103, tapeCheck := 0x104, tapeRewind := 0x105,
      tapeLoad := 0x106, tapeUnload := 0x107, tapeRead := 0x108, tapeWrite := 0x109, termInC := 0x10A,
      termOutC := 0x10B, termInW := 0x10C, termOutW := 0x10D, netSS := 0x10E, netSend := 0x10F,
      netRecv := 0x110, seconds := 0x111, uSeconds := 0x112, dateTime := 0x113 }
  usrSpNumber := 9
  usrFpNumber := 10
  keybufCap := none
  codebook := []
  byLayout := false

/-- The machine right after start-up: SYS = 1, IP = 1, VM = 0 (10_state.md R38) and R = 1 (70 R240); every other
value is the model's DESIGN CHOICE (Logs 4 to 9). -/
def State.reset : State where
  gpr := Vector.replicate 13 0
  pc := 0x100
  pdbr := 0
  intvec := 0
  cgbr := 0
  cglen := 0
  debug := 0xFFFFFFFF
  timer := 0
  sysSp := 0
  sysFp := 0
  usrSp := 0
  usrFp := 0
  flags := { r := true, z := false, n := false, err := false, sys := true, ip := true, vm := false }
  mem := []
  kbuf := []
  screen := []
  discs := #v[some { size := 6000, content := [] }, none, none, none, none, none, none, none]
  tapes := Vector.replicate 8 none
  nets := Vector.replicate 2 none
  netSent := []
  clock := 0
  stopReason := none
  params := Params.reset
  host := { arrivals := [], tapeOpens := [], discWrites := [], tapeWrites := [], ports := [],
            sends := [], recvs := [] }
  draws := 0
  interrupted := false
  gateFrames := []

end Sys2Proof.Machine
end

