-- ==== Sys2Proof/Machine/Bits.lean ====
section
/-! DEFINITION. Functions on words: bit ranges (41 R110 to R112), characters packed in words (20_memory.md R52, 43 R155), single
bits (41 R117, R118), unit numbers (42 R128, R132, 43 R158) and the calendar (43 R165). -/

namespace Sys2Proof.Machine

/-! ### Bit ranges -/

/-- The number of bits in the range of a descriptor, 0 standing for 32 (R110). -/
def rangeLen (d : Word) : Nat :=
  if d.extractLsb' 0 5 = 0 then 32 else (d.extractLsb' 0 5).toNat

/-- The number of bits to the right of the range (R110). -/
def rangePos (d : Word) : Nat := (d.extractLsb' 5 5).toNat

/-- The number of whole words to be skipped (R110). -/
def rangeSkip (d : Word) : Word := (d.extractLsb' 10 22).setWidth 32

/-- The bits of the range of length `len`, right-justified: 2^len - 1 (R111). -/
def lowMask (len : Nat) : Word := ((1 : Word) <<< len) - 1

/-- `Extract(word, d)` (R111); `none` where the range does not lie within a word (D30). -/
def extractRange (word d : Word) : Option Word :=
  if rangePos d + rangeLen d ≤ 32 then some ((word >>> rangePos d) &&& lowMask (rangeLen d)) else none

/-- `Deposit(word, d, v)` (R112); `none` where the range does not lie within a word (D30). -/
def depositRange (word d v : Word) : Option Word :=
  if rangePos d + rangeLen d ≤ 32 then
    let m := lowMask (rangeLen d) <<< rangePos d
    some ((word &&& ~~~m) ||| ((v <<< rangePos d) &&& m))
  else none

/-! ### Single bits -/

/-- SBIT's result (R117). -/
def setBit (w : Word) (b : Nat) : Word := w ||| ((1 : Word) <<< b)

/-- CBIT's result (R118). -/
def clearBit (w : Word) (b : Nat) : Word := w &&& ~~~((1 : Word) <<< b)

/-! ### Characters in words -/

/-- Four characters as a word, the first in the least significant bits (R52). -/
def packWord (b0 b1 b2 b3 : Byte) : Word := b3 ++ b2 ++ b1 ++ b0

/-- The four characters of a word, first character first (R52). -/
def unpackWord (w : Word) : List Byte :=
  [w.extractLsb' 0 8, w.extractLsb' 8 8, w.extractLsb' 16 8, w.extractLsb' 24 8]

/-- Characters packed four a word (R52, R155); the places after the last character are 0. -/
def packBytes : List Byte → List Word
  | [] => []
  | [b0] => [packWord b0 0 0 0]
  | [b0, b1] => [packWord b0 b1 0 0]
  | [b0, b1, b2] => [packWord b0 b1 b2 0]
  | b0 :: b1 :: b2 :: b3 :: rest => packWord b0 b1 b2 b3 :: packBytes rest

/-- The bytes with the last word filled up from `fill` (the unused high bytes of a short block or packet are
draws, 42 R137, 43 R160). -/
def fillWord (bs : List Byte) (fill : Word) : List Byte :=
  bs ++ (unpackWord fill).take ((4 - bs.length % 4) % 4)

/-- The characters of a run of words, first character first (R52). -/
def unpackBytes (ws : List Word) : List Byte := ws.flatMap unpackWord

/-- How many words hold `n` characters: n/4 rounded up. -/
def wordsFor (n : Nat) : Nat := (n + 3) / 4

/-! ### Units -/

/-- The index of unit number `u` among `n` units numbered from 1; `none` for signed(u) < 1 or > n. -/
def unitIndex (n : Nat) (u : Word) : Option (Fin n) :=
  if h : 1 ≤ u.toNat ∧ u.toNat ≤ n then some ⟨u.toNat - 1, by omega⟩ else none

/-! ### The calendar (43 R165; PRESUMED, G4) -/

/-- The leap years of the Gregorian calendar. -/
def isLeap (y : Nat) : Bool := y % 4 == 0 && (y % 100 != 0 || y % 400 == 0)

/-- The days of a year. -/
def yearDays (y : Nat) : Nat := if isLeap y then 366 else 365

/-- The days of the months of a year. -/
def monthDays (y : Nat) : List Nat :=
  [31, if isLeap y then 29 else 28, 31, 30, 31, 30, 31, 31, 30, 31, 30, 31]

/-- The year that lies `days` days after the first day of year `y`, and the day's index in it; `fuel` bounds the
number of years passed. -/
def splitYear : Nat → Nat → Nat → Nat × Nat
  | 0, y, days => (y, days)
  | fuel + 1, y, days =>
    if days < yearDays y then (y, days) else splitYear fuel (y + 1) (days - yearDays y)

/-- The month (counted on from `m`) and the day of the month of the day with index `days`. -/
def splitMonth : List Nat → Nat → Nat → Nat × Nat
  | [], m, days => (m, days + 1)
  | len :: rest, m, days => if days < len then (m, days + 1) else splitMonth rest (m + 1) (days - len)

/-- Year, month, day, weekday, hour, minute and second of a time in seconds since midnight, 1 January 2000, a
Saturday (R165, D43). -/
def dateTimeParts (t : Nat) : List Nat :=
  let days := t / 86400
  let s := t % 86400
  let yd := splitYear (days / 365 + 1) 2000 days
  let md := splitMonth (monthDays yd.1) 1 yd.2
  [yd.1, md.1, md.2, (6 + days) % 7, s / 3600, s % 3600 / 60, s % 60]

end Sys2Proof.Machine
end

