-- ==== Sys2Proof/Machine/Flags.lean ====
section
/-! DEFINITION. The numbers of flags, special registers and interrupts (30_encoding.md R75 to R77), the FLAGS word
(10_state.md R16, R27, R35) and the flags of the comparisons (40 R95, R96). -/

namespace Sys2Proof.Machine

/-- The number of an interrupt, its position in the vector (60_exceptions.md R200). -/
def intNumber : IntCode → Word
  | .none => 0
  | .memory => 1
  | .pagefault => 2
  | .unimpop => 3
  | .halt => 4
  | .divzero => 5
  | .unwrop => 6
  | .timer => 7
  | .privop => 8
  | .keybd => 9
  | .badcall => 10
  | .pagepriv => 11
  | .debug => 12
  | .intrfault => 13

/-- The class of an interrupt (R201, D11): TIMER and KEYBD are notifications, DEBUG's class is a parameter, every
other one is fatal. IV$NONE is never raised. -/
def isFatal (p : Params) : IntCode → Bool
  | .timer => false
  | .keybd => false
  | .debug => p.debugFatal
  | _ => true

/-- The flag a number names (30_encoding.md R76), `none` outside 0..6. -/
def flagOfNumber (f : Word) : Option FlagName :=
  match f.toNat with
  | 0 => some .r
  | 1 => some .z
  | 2 => some .n
  | 3 => some .err
  | 4 => some .sys
  | 5 => some .ip
  | 6 => some .vm
  | _ => none

/-- The special register a number names (10_state.md R15): 0 to 8 are fixed, USRSP's and USRFP's numbers are the
parameter SR_NUMBER (D2); `none` for every other number. -/
def sregOfNumber (p : Params) (k : Word) : Option SReg :=
  match k.toNat with
  | 0 => some .flags
  | 1 => some .pdbr
  | 2 => some .intvec
  | 3 => some .cgbr
  | 4 => some .cglen
  | 5 => some .debug
  | 6 => some .timer
  | 7 => some .sysSp
  | 8 => some .sysFp
  | _ => if k = p.usrSpNumber then some .usrSp else if k = p.usrFpNumber then some .usrFp else none

/-- The flags only system mode may modify (10_state.md R36, 40 R93). -/
def isProtected : FlagName → Bool
  | .r => true
  | .sys => true
  | .ip => true
  | .vm => true
  | .z => false
  | .n => false
  | .err => false

/-- One flag's value. -/
def getFlag (f : Flags) : FlagName → Bool
  | .r => f.r
  | .z => f.z
  | .n => f.n
  | .err => f.err
  | .sys => f.sys
  | .ip => f.ip
  | .vm => f.vm

/-- One flag set to a value. -/
def putFlag (f : Flags) (b : Bool) : FlagName → Flags
  | .r => { f with r := b }
  | .z => { f with z := b }
  | .n => { f with n := b }
  | .err => { f with err := b }
  | .sys => { f with sys := b }
  | .ip => { f with ip := b }
  | .vm => { f with vm := b }

/-- The weight of a flag in FLAGS if it is set (R27: bit n has value 2^n). -/
def flagBit (b : Bool) (n : Nat) : Word := if b then (1 : Word) <<< n else 0

/-- `FlagsWord()` (40, common behaviour): bits 6 to 0, with bits 31:7 zero (R35). -/
def flagsWord (f : Flags) : Word :=
  flagBit f.r 0 ||| flagBit f.z 1 ||| flagBit f.n 2 ||| flagBit f.err 3 ||| flagBit f.sys 4 |||
    flagBit f.ip 5 ||| flagBit f.vm 6

/-- The flags of a word, bits 31:7 ignored (`SetFlagsWord`, 40, common behaviour; R35). -/
def flagsOfWord (w : Word) : Flags where
  r := w.getLsbD 0
  z := w.getLsbD 1
  n := w.getLsbD 2
  err := w.getLsbD 3
  sys := w.getLsbD 4
  ip := w.getLsbD 5
  vm := w.getLsbD 6

/-- A flag's value as a word, 0 or 1 (40 R92). -/
def boolWord (b : Bool) : Word := if b then 1 else 0

/-- The difference of the signed values does not fit a word (40 R95, corner cases). -/
def differenceOverflows (a b : Word) : Bool := (a - b).toInt ≠ a.toInt - b.toInt

/-- COMP's flags (40 R95, D29): Z equality, N the sign of the true difference, which is the free bit where the
difference overflows. -/
def compareFlags (f : Flags) (a b : Word) (free : Bool) : Flags :=
  { f with z := a = b, n := if differenceOverflows a b then free else a.toInt < b.toInt }

/-- COMPZ's flags (40 R96, D29). -/
def compareZeroFlags (f : Flags) (v : Word) : Flags :=
  { f with z := v = 0, n := v.toInt < 0 }

end Sys2Proof.Machine
end

