-- ==== Sys2Proof/Machine/Ops.lean ====
section
/-! DEFINITION. The named operations over free values, memory, translation, registers and the stack, taking an interrupt and
the return from one (20_memory.md R40 to R62, 10_state.md R12 to R16, 60_exceptions.md R214 to R220, 44 R182). -/

namespace Sys2Proof.Machine

/-! ### Sparse words -/

/-- Addresses strictly rising: the one canonical form. Every entry is a word that was written, so no entry equals
what an unlisted address reads as (never written). -/
abbrev Memory.wf (m : Memory) : Prop := m.Pairwise (fun x y => x.1 < y.1)

/-- The word last written at an address, `none` if none was. -/
def Memory.read : Memory → Nat → Option Word
  | [], _ => none
  | (b, w) :: m, a => if a = b then some w else if a < b then none else Memory.read m a

/-- Write a word, keeping the canonical form. -/
def Memory.write : Memory → Nat → Word → Memory
  | [], a, v => [(a, v)]
  | (b, w) :: m, a, v =>
    if a < b then (a, v) :: (b, w) :: m
    else if a = b then (a, v) :: m
    else (b, w) :: Memory.write m a v

/-- Write a run of words at consecutive addresses. -/
def Memory.writeRun (m : Memory) (a : Nat) : List Word → Memory
  | [] => m
  | w :: ws => Memory.writeRun (Memory.write m a w) (a + 1) ws

/-! ### Free values -/

/-- The next free word. -/
def State.free (s : State) : Word := Config.freeWord s.draws

/-- `n` free values have been used. -/
def State.skip (s : State) (n : Nat) : State := { s with draws := s.draws + n }

/-- The next `n` free words. -/
def State.freeWords (s : State) (n : Nat) : List Word :=
  (List.range n).map (fun i => Config.freeWord (s.draws + i))

/-- A free bit. -/
def State.freeBit (s : State) : Bool := s.free.getLsbD 0

/-- A free natural number at most `n`. -/
def State.freeUpTo (s : State) (n : Nat) : Nat := s.free.toNat % (n + 1)

/-! ### Physical memory (R40, R41) -/

/-- The word at a physical address: the one last written, or the unspecified start-up content (R41; Log 3). -/
def State.memWord (s : State) (a : Nat) : Word := (Memory.read s.mem a).getD (Config.startWord a)

/-- `PhysRead(pa)` (R41, D6). -/
def State.physRead (s : State) (pa : Word) : Except Stop Word :=
  if pa.toNat < s.params.physWords then .ok (s.memWord pa.toNat)
  else .error (.trap ⟨.memory, pa, none⟩)

/-- A word stored in physical memory; a SYSCALL frame whose top word is overwritten is a frame no more (Log 56). -/
def State.putWord (s : State) (a : Nat) (v : Word) : State :=
  { s with mem := Memory.write s.mem a v, gateFrames := s.gateFrames.filter (fun b => b ≠ a) }

/-- `PhysWrite(pa, v)` (R41, D6). -/
def State.physWrite (s : State) (pa : Word) (v : Word) : Except Stop State :=
  if pa.toNat < s.params.physWords then .ok (s.putWord pa.toNat v)
  else .error (.trap ⟨.memory, pa, none⟩)

/-! ### Translation (R42 to R50, R62) -/

/-- The page table number of a virtual address (R43). -/
def dirField (a : Word) : Word := (a >>> 22) &&& 0x3FF

/-- The page number of a virtual address (R43). -/
def pageField (a : Word) : Word := (a >>> 11) &&& 0x7FF

/-- The offset of a virtual address (R43). -/
def offsetField (a : Word) : Word := a &&& 0x7FF

/-- `Translate(A)` (R47): the physical address of `a` under the current VM and SYS flags, or the interrupt. -/
def State.translate (s : State) (a : Word) : Except Stop Word :=
  if s.flags.vm then do
    let pde ← s.physRead ((s.pdbr &&& 0xFFFFFC00) + dirField a)
    if pde = 0 then .error (.trap ⟨.pagefault, a, none⟩)
    else do
      let pte ← s.physRead ((pde &&& 0xFFFFF800) + pageField a)
      if pte &&& 1 = 0 then .error (.trap ⟨.pagefault, a, none⟩)
      else if pte &&& 2 ≠ 0 ∧ s.flags.sys = false then .error (.trap ⟨.pagepriv, a, none⟩)
      else .ok ((pte &&& 0xFFFFF800) + offsetField a)
  else .ok a

/-- `MemRead(addr, 1)` (00_scope.md section 6.1). -/
def State.readMem (s : State) (a : Word) : Except Stop Word := do
  let pa ← s.translate a
  s.physRead pa

/-- `MemWrite(addr, 1, v)` (00_scope.md section 6.1). -/
def State.writeMem (s : State) (a v : Word) : Except Stop State := do
  let pa ← s.translate a
  s.physWrite pa v

/-- Words read one after the other; the first failure is the outcome. -/
def State.readAll (s : State) : List Word → Except Stop (List Word)
  | [] => .ok []
  | a :: as => do
    let w ← s.readMem a
    let ws ← s.readAll as
    .ok (w :: ws)

/-! ### Registers (10_state.md R10 to R16) -/

/-- SP is SYSSP in system mode and USRSP in user mode (R12). -/
def State.sp (s : State) : Word := if s.flags.sys then s.sysSp else s.usrSp

/-- A write to SP writes the selected special register (R12). -/
def State.setSp (s : State) (v : Word) : State :=
  if s.flags.sys then { s with sysSp := v } else { s with usrSp := v }

/-- FP is SYSFP in system mode and USRFP in user mode (R13; DEDUCED, Log 11). -/
def State.fp (s : State) : Word := if s.flags.sys then s.sysFp else s.usrFp

/-- A write to FP writes the selected special register (R13). -/
def State.setFp (s : State) (v : Word) : State :=
  if s.flags.sys then { s with sysFp := v } else { s with usrFp := v }

/-- `x[r]` (00_scope.md section 6.1). -/
def State.reg (s : State) : Reg → Word
  | .r n => s.gpr[n]
  | .sp => s.sp
  | .fp => s.fp
  | .pc => s.pc

/-- `x[r] <- v` (00_scope.md section 6.1). -/
def State.setReg (s : State) (m : Reg) (v : Word) : State :=
  match m with
  | .r n => { s with gpr := s.gpr.set n v }
  | .sp => s.setSp v
  | .fp => s.setFp v
  | .pc => { s with pc := v }

/-- PC is not to be named as a register operand (45 R190; Log 50). The rule of an instruction's register Rn (40 R90) does
not say whether it may be SP, FP or PC. DESIGN CHOICE (Log 50): SP and FP are admitted for every instruction that has an
Rn, GETSR and its kin too, and name the current mode's stack or frame register (10_state.md R12, R13). -/
def operandReg : Reg → Except Stop Unit
  | .pc => .error (.refuse .pcAsOperand)
  | _ => .ok ()

/-- The content of a register an instruction names. -/
def State.readReg (s : State) (m : Reg) : Except Stop Word := do
  operandReg m
  .ok (s.reg m)

/-- A write of a register an instruction names. -/
def State.writeReg (s : State) (m : Reg) (v : Word) : Except Stop State := do
  operandReg m
  .ok (s.setReg m v)

/-- All flags written by an instruction; a CPU whose R flag becomes 0 is halted for that reason (60 R231, D31). -/
def State.setFlags (s : State) (f : Flags) : State :=
  { s with flags := f, stopReason := if f.r then s.stopReason else some .rWritten }

/-- `sr[k]` (10_state.md R15, R16). -/
def State.special (s : State) : SReg → Word
  | .flags => flagsWord s.flags
  | .pdbr => s.pdbr
  | .intvec => s.intvec
  | .cgbr => s.cgbr
  | .cglen => s.cglen
  | .debug => s.debug
  | .timer => s.timer
  | .sysSp => s.sysSp
  | .sysFp => s.sysFp
  | .usrSp => s.usrSp
  | .usrFp => s.usrFp

/-- `sr[k] <- v` (10_state.md R15, R16). -/
def State.setSpecial (s : State) (k : SReg) (v : Word) : State :=
  match k with
  | .flags => s.setFlags (flagsOfWord v)
  | .pdbr => { s with pdbr := v }
  | .intvec => { s with intvec := v }
  | .cgbr => { s with cgbr := v }
  | .cglen => { s with cglen := v }
  | .debug => { s with debug := v }
  | .timer => { s with timer := v }
  | .sysSp => { s with sysSp := v }
  | .sysFp => { s with sysFp := v }
  | .usrSp => { s with usrSp := v }
  | .usrFp => { s with usrFp := v }

/-- The special register a number names, refused where it names none (40 R90, R91, D28). -/
def State.specialNamed (s : State) (k : Word) : Except Stop SReg :=
  match sregOfNumber s.params k with
  | some r => .ok r
  | none => .error (.refuse .specialRegisterNumber)

/-- The flag a number names, refused where it names none (40 R92, R93, D28). -/
def flagNamed (f : Word) : Except Stop FlagName :=
  match flagOfNumber f with
  | some name => .ok name
  | none => .error (.refuse .flagNumber)

/-! ### The flow of an instruction -/

/-- The `next` of the pseudocode: PC + 1, modulo 2^32 (10_state.md R14, D7). -/
def State.advance (s : State) : State := { s with pc := s.pc + 1 }

/-- `pc <- target`. -/
def State.jump (s : State) (target : Word) : State := { s with pc := target }

/-- `Priv()` (60_exceptions.md R225). -/
def State.needSystem (s : State) : Except Stop Unit :=
  if s.flags.sys then .ok () else .error (.trap ⟨.privop, s.pc, none⟩)

/-- `Push(v)` (00_scope.md section 6.1, 45 R192). -/
def State.push (s : State) (v : Word) : Except Stop State := do
  let s' ← s.writeMem (s.sp - 1) v
  .ok (s'.setSp (s.sp - 1))

/-! ### Taking an interrupt (60_exceptions.md R214 to R218) -/

/-- `Stop(code)` (R215, D12): the CPU is halted, the code is kept as the reason, all else is as it was. -/
def State.stop (s : State) (c : IntCode) : State :=
  { s with flags := { s.flags with r := false }, stopReason := some (.fatalInterrupt c) }

/-- The pushes of an entry, one word after the other through SP, each translated (R217). SP keeps its value in a push
whose write fails (45 R192; Log 21), so the next entry's first push meets the same failure (70 R249). -/
def pushAll : List Word → State → PushRun
  | [], s => ⟨s, [], true⟩
  | v :: vs, s =>
    match s.translate (s.sp - 1) with
    | .error _ => ⟨s, [], false⟩
    | .ok pa =>
      match s.physWrite pa v with
      | .error _ => ⟨s, [], false⟩
      | .ok s' =>
        let run := pushAll vs (s'.setSp (s.sp - 1))
        ⟨run.state, pa.toNat :: run.touched, run.complete⟩

/-- The words every entry pushes first: R0 to R12, SP, FP, the saved PC (R217). -/
def State.registerFrame (s : State) (savedSp savedPc : Word) : List Word :=
  s.gpr.toList ++ [savedSp, s.sysFp, savedPc]

/-- The words pushed by interrupt entry, in the order of R217. -/
def State.interruptFrame (s : State) (q : Request) (oldflags savedSp : Word) : List Word :=
  s.registerFrame savedSp q.savedPc ++ [q.info, q.address, intNumber q.code, oldflags, 40]

/-- SYS and IP turned on, the frame pushed on the system stack, PC at the entry point (R217). PC is written only
if every push was done. -/
def State.enterFrame (s : State) (frame : List Word) (entry : Word) : PushRun :=
  let run := pushAll frame { s with flags := { s.flags with sys := true, ip := true } }
  if run.complete then ⟨run.state.jump entry, run.touched, true⟩ else run

/-- Every word at the given physical addresses becomes a free value. -/
def State.scramble (s : State) : List Nat → State
  | [] => s
  | a :: as => ((s.putWord a s.free).skip 1).scramble as

/-- The CPU stopped because INTRFAULT could not be delivered (R214, D15). Where an entry had begun, the registers and
the memory its pushes touched are draws (V4.5); SYS and IP, which it had turned on, too (Log 21). -/
def State.stopInDelivery (s : State) (begun : Bool) (touched : List Nat) : State :=
  if begun then
    let t := s.scramble touched
    ({ t with sysSp := t.free,
              flags := { t.flags with sys := (t.skip 1).freeBit, ip := (t.skip 2).freeBit } }.skip 3).stop
      .intrfault
  else s.stop .intrfault

/-- `IntrFault` (R214): delivery has failed at `s`, after the entry pushed `touched` if one had begun. The frame's
oldflags and saved-SP words are draws (D15), oldflags with bits 31:7 zero (R35). -/
def State.intrFault (s : State) (begun : Bool) (touched : List Nat) (address info savedPc : Word) : Delivered :=
  match s.physRead (s.intvec + intNumber .intrfault) with
  | .error _ => .stopped (s.stopInDelivery begun touched)
  | .ok h =>
    if h = 0 then .stopped (s.stopInDelivery begun touched)
    else
      let s1 := s.skip 2
      let frame := s1.interruptFrame ⟨.intrfault, address, info, savedPc⟩ (s.free &&& 0x7F) (s.skip 1).free
      let run := s1.enterFrame frame h
      if run.complete then .entered run.state
      else .stopped (run.state.stopInDelivery true (touched ++ run.touched))

/-- An interrupt that is not handled: fatal ones stop the program, notifications are ignored (R215, D13). -/
def State.unhandled (s : State) (c : IntCode) : Delivered :=
  if isFatal s.params c then .stopped (s.stop c) else .ignored

/-- `Deliver(code, address, info, savedpc)` (R215). -/
def State.deliver (s : State) (q : Request) : Delivered :=
  if s.flags.ip then s.unhandled q.code
  else
    match s.physRead (s.intvec + intNumber q.code) with
    | .error _ => s.intrFault false [] q.address (intNumber q.code) q.savedPc
    | .ok h =>
      if h = 0 then s.unhandled q.code
      else
        let run := s.enterFrame (s.interruptFrame q (flagsWord s.flags) (s.sysSp - 13)) h
        if run.complete then .entered run.state
        else run.state.intrFault true run.touched q.address (intNumber q.code) q.savedPc

/-- The state after a delivery, with the mark that the instruction did not complete; `s` where the interrupt was
ignored. -/
def Delivered.raised (s : State) : Delivered → State
  | .entered t => { t with interrupted := true }
  | .stopped t => { t with interrupted := true }
  | .ignored => { s with interrupted := true }

/-- `raise NAME(address, info)` inside the instruction at PC (R215): none of the instruction's writes is done, and the
saved PC is the instruction's address (R217, D8). An information word the spec does not define is a draw (D10). -/
def State.raise (s : State) (t : Trap) : State :=
  let s1 := s.skip 1
  (s1.deliver ⟨t.code, t.address, t.info.getD s.free, s.pc⟩).raised s1

/-- The outcome of an instruction at `s`: its next state, or the interrupt taken, or the refusal. -/
def State.settle (s : State) : Except Stop State → Host.Outcome State Fault Refusal
  | .ok t => .next t
  | .error (.trap t) => .next (s.raise t)
  | .error (.refuse r) => .refused r

/-! ### The return from an interrupt (44 R182, 60_exceptions.md R220) -/

/-- The addresses from `a` upward, `n` of them, modulo 2^32. -/
def wordRange (a : Word) (n : Nat) : List Word := (List.range n).map (fun i => a + BitVec.ofNat 32 i)

/-- The state after an IRET that popped `low` (the eight words from SP: 40, oldflags, code, address, information, PC,
FP, SP) and `high` (R12 down to R0, from the saved SP) (R182). -/
def State.restore (s : State) (low high : List Word) : State :=
  let savedSp := low.getD 7 0
  ({ s with gpr := Vector.ofFn (fun i : Fin 13 => high.getD (12 - i) 0),
            sysSp := savedSp + 13, sysFp := low.getD 6 0 }.setFlags (flagsOfWord (low.getD 1 0))).jump
    (low.getD 5 0)

/-- The pops of IRET, all or nothing (R182, D16), in system mode; refused on a frame SYSCALL pushed (44 R181, D17). -/
def State.returnFromInterrupt (s : State) : Except Stop State := do
  let top ← s.translate s.sp
  if s.gateFrames.contains top.toNat then .error (.refuse .returnFromGateFrame)
  else do
    let low ← s.readAll (wordRange s.sp 8)
    let high ← s.readAll (wordRange (low.getD 7 0) 13)
    .ok (s.restore low high)

end Sys2Proof.Machine
end

