-- ==== Sys2Proof/Machine/Operands.lean ====
section
/-! DEFINITION. The value and the place of every operand form (45 R190, 30_encoding.md R73, R82). -/

namespace Sys2Proof.Machine

/-- The place an operand names (R190, `Place`); a constant names none. -/
def State.place (s : State) : Operand → Except Stop Place
  | .num _ => .ok .unwritable
  | .reg m => do
    operandReg m
    .ok (.reg m)
  | .ind m => do
    let a ← s.readReg m
    .ok (.mem a)
  | .indOff m k => do
    let a ← s.readReg m
    .ok (.mem (a + k))
  | .abs a => .ok (.mem a)

/-- The value of an operand (R190, `Value`): a constant is its own value, memory is reached only through brackets.
Whether R0 has a special role as an index register is not in the source (10 R11, N4). DESIGN CHOICE (Log 67): `[R0]` and
`[R0+k]` are as for every other register, here and in `State.place`. -/
def State.value (s : State) : Operand → Except Stop Word
  | .num c => .ok c
  | .reg m => s.readReg m
  | .ind m => do
    let a ← s.readReg m
    s.readMem a
  | .indOff m k => do
    let a ← s.readReg m
    s.readMem (a + k)
  | .abs a => s.readMem a

/-- A place written by the instruction at PC; UNWROP where the operand is not writable (R82, R207). -/
def State.storeAt (s : State) (p : Place) (v : Word) : Except Stop State :=
  match p with
  | .reg m => .ok (s.setReg m v)
  | .mem a => s.writeMem a v
  | .unwritable => .error (.trap ⟨.unwrop, s.pc, none⟩)

/-- The bit number of SBIT and CBIT: a number 0 to 31, refused otherwise (41 R117, R118). -/
def bitNumber : Operand → Except Stop Nat
  | .num c => if c.toNat < 32 then .ok c.toNat else .error (.refuse .bitNumber)
  | _ => .error (.refuse .bitNumber)

end Sys2Proof.Machine
end

