-- ==== Sys2Proof/Machine/Devices.lean ====
section
/-! DEFINITION. What the PERI operations share: operation codes and error codes (30_encoding.md R78, 42 R127), their memory accesses
(42 R125), the choice among error codes (42 R127, D35), the host's answers (42 R123) and the host's
arrivals (43 R150, R157, R162). -/

namespace Sys2Proof.Machine

/-! ### Codes -/

/-- The word of an operation name (R78, D34). -/
def periCode (c : PeriCodes) : PeriOp → Word
  | .discCheck => c.discCheck
  | .discRead => c.discRead
  | .discWrite => c.discWrite
  | .tapeCheck => c.tapeCheck
  | .tapeRewind => c.tapeRewind
  | .tapeLoad => c.tapeLoad
  | .tapeUnload => c.tapeUnload
  | .tapeRead => c.tapeRead
  | .tapeWrite => c.tapeWrite
  | .termInC => c.termInC
  | .termOutC => c.termOutC
  | .termInW => c.termInW
  | .termOutW => c.termOutW
  | .netSS => c.netSS
  | .netSend => c.netSend
  | .netRecv => c.netRecv
  | .seconds => c.seconds
  | .uSeconds => c.uSeconds
  | .dateTime => c.dateTime

/-- The nineteen operations (R78). -/
def allPeriOps : List PeriOp :=
  [.discCheck, .discRead, .discWrite, .tapeCheck, .tapeRewind, .tapeLoad, .tapeUnload, .tapeRead, .tapeWrite,
   .termInC, .termOutC, .termInW, .termOutW, .netSS, .netSend, .netRecv, .seconds, .uSeconds, .dateTime]

/-- The operation a word selects, `none` if it is no operation code (R124). -/
def periOpOf (c : PeriCodes) (w : Word) : Option PeriOp := allPeriOps.find? (fun op => periCode c op == w)

/-- The operation numbers are pairwise distinct (R78, D34). -/
abbrev periCodesDistinct (c : PeriCodes) : Prop := (allPeriOps.map (periCode c)).Nodup

def errBadCode : Word := -1
def errReadParams : Word := -2
def errDevNumber : Word := -3
def errPosition : Word := -4
def errMemory : Word := -5
def errDevFailed : Word := -6
def errNotFound : Word := -7
def errBadParam : Word := -8
def errInUse : Word := -9
def errNoData : Word := -11

/-- One error code if its condition holds. -/
def codeIf (b : Bool) (code : Word) : List Word := if b then [code] else []

/-- The code reported when the conditions of `codes` hold: the one, or a free choice among several (R127, D35). -/
def State.pickCode (s : State) : List Word → Word
  | [c] => c
  | cs => cs.getD (s.free.toNat % cs.length) 0

/-- A free word that is not negative (D42). -/
def State.freeNonNegative (s : State) : Word := s.free &&& 0x7FFFFFFF

/-- A free word that is negative (43 R158, corner cases), but never −10, a code the source does not have (42 R127): −6,
the device failed, takes its place. -/
def State.freeNegative (s : State) : Word :=
  let w := s.free ||| 0x80000000
  if w = -10 then errDevFailed else w

/-! ### Memory (R125) -/

/-- `PeriRead(a)`: as an operand access, a failure raises nothing. -/
def State.periRead (s : State) (a : Word) : Option Word := (s.readMem a).toOption

/-- `PeriWrite(a, v)`: as an operand access, a failure raises nothing. -/
def State.periWrite (s : State) (a v : Word) : Option State := (s.writeMem a v).toOption

/-- Words read from `a` upward until the first failure; the mark says that none failed. -/
def State.readRun (s : State) (a : Word) : Nat → List Word × Bool
  | 0 => ([], true)
  | n + 1 =>
    match s.periRead a with
    | none => ([], false)
    | some w =>
      let run := s.readRun (a + 1) n
      (w :: run.1, run.2)

/-- Words stored from `a` upward until the first failure. -/
def State.storeRun (s : State) (a : Word) : List Word → StoreRun
  | [] => ⟨s, 0, true⟩
  | w :: ws =>
    match s.periWrite a w with
    | none => ⟨s, 0, false⟩
    | some s' =>
      let run := s'.storeRun (a + 1) ws
      ⟨run.state, run.stored + 1, run.complete⟩

/-- The `n` words from `a` upward become free values: memory a failed transfer has touched (R125, D35). -/
def State.spoil (s : State) (a : Word) (n : Nat) : State := ((s.skip n).storeRun a (s.freeWords n)).state

/-- Words 1 to `n` of the control structure at `c` (R121), `none` where one cannot be read (−2). -/
def State.control (s : State) (c : Word) (n : Nat) : Option (List Word) :=
  match s.readRun (c + 1) n with
  | (ws, true) => some ws
  | (_, false) => none

/-- The scan for a zero character from `a` upward (43 R155), at most `fuel` words: the characters before it. -/
def State.scanString (s : State) : Nat → Word → List Byte × ScanEnd
  | 0, _ => ([], .endless)
  | fuel + 1, a =>
    match s.periRead a with
    | none => ([], .memory)
    | some w =>
      let head := (unpackWord w).takeWhile (fun b => b ≠ 0)
      if head.length < 4 then (head, .zero)
      else
        let rest := s.scanString fuel (a + 1)
        (head ++ rest.1, rest.2)

/-- The scan for a zero word from `a` upward (43 R154): the words before it. -/
def State.scanWords (s : State) : Nat → Word → List Word × ScanEnd
  | 0, _ => ([], .endless)
  | fuel + 1, a =>
    match s.periRead a with
    | none => ([], .memory)
    | some w =>
      if w = 0 then ([], .zero)
      else
        let rest := s.scanWords fuel (a + 1)
        (w :: rest.1, rest.2)

/-- One word for each address: a scan that meets no zero in them never meets one (Log 52). -/
def addressSpace : Nat := 2 ^ 32

/-! ### The host's answers (R123; Log 49) -/

/-- The host's answer where `there` is something to ask it for; elsewhere no question and no failure of the host's. -/
def State.askWhen (s : State) (there : Bool) (answer : Bool × State) : Bool × State :=
  if there then answer else (true, s)

/-- The host is asked to open a tape's file. -/
def State.askTapeOpen (s : State) : Option (List Byte) × State :=
  match s.host.tapeOpens with
  | [] => (Config.hostTapeOpen s.draws, s.skip 1)
  | a :: rest => (a, { s with host := { s.host with tapeOpens := rest } })

/-- The host is asked to write disc blocks. -/
def State.askDiscWrite (s : State) : Bool × State :=
  match s.host.discWrites with
  | [] => (Config.hostOk s.draws, s.skip 1)
  | a :: rest => (a, { s with host := { s.host with discWrites := rest } })

/-- The host is asked to write a tape block. -/
def State.askTapeWrite (s : State) : Bool × State :=
  match s.host.tapeWrites with
  | [] => (Config.hostOk s.draws, s.skip 1)
  | a :: rest => (a, { s with host := { s.host with tapeWrites := rest } })

/-- Whether `q` is an unused port: not 0, and not the port of a unit that is on (43 R158). -/
def State.portUnused (s : State) (q : BitVec 16) : Bool :=
  decide (q ≠ 0) && s.nets.toList.all (fun n => n.all (fun u => decide (u.port ≠ q)))

/-- The port a network unit is started on, where `asked` is the port asked for and `chosen` the one the host selects (43
R158): the one asked for, or an unused one of the host's for the request 0. A request above 65535, which is no port of two
bytes, is met with a port of the host's (DESIGN CHOICE, Log 69). -/
def State.portGiven (s : State) (asked : Word) (chosen : BitVec 16) : Option (BitVec 16) :=
  if asked = 0 then if s.portUnused chosen then some chosen else none
  else if asked.toNat < 65536 then some (asked.setWidth 16)
  else some chosen

/-- The host is asked to start a network unit: `none` where it gives it no port. Whether it can give the port asked for
is its answer (43 R158, corner cases). -/
def State.askPort (s : State) (asked : Word) : Option (BitVec 16) × State :=
  match s.host.ports with
  | [] => ((Config.hostPort s.draws).bind (s.portGiven asked), s.skip 1)
  | a :: rest => (a.bind (s.portGiven asked), { s with host := { s.host with ports := rest } })

/-- The host is asked to send a packet. -/
def State.askSend (s : State) : Bool × State :=
  match s.host.sends with
  | [] => (Config.hostOk s.draws, s.skip 1)
  | a :: rest => (a, { s with host := { s.host with sends := rest } })

/-- The host is asked to receive. -/
def State.askRecv (s : State) : Bool × State :=
  match s.host.recvs with
  | [] => (Config.hostOk s.draws, s.skip 1)
  | a :: rest => (a, { s with host := { s.host with recvs := rest } })

/-! ### The host's arrivals (Log 49) -/

/-- A key is pressed (43 R150): its code goes to the end of the buffer. What a key outside ASCII delivers is not stated;
DESIGN CHOICE (Log 70): every key delivers one code of 8 bits, of any value. When the buffer is full the source says
nothing (N28): every code in it becomes a free value (Log 53). -/
def State.pressKey (s : State) (k : Byte) : State :=
  let full := match s.params.keybufCap with
    | none => false
    | some cap => decide (cap ≤ s.kbuf.length)
  if full then
    { s.skip s.kbuf.length with kbuf := (s.freeWords s.kbuf.length).map (fun w => w.setWidth 8) }
  else { s with kbuf := s.kbuf ++ [k] }

/-- A packet of at most 1024 bytes arrives at a unit that is on (43 R157). -/
def State.packetArrives (s : State) (a : Fin 2 × Packet) : State :=
  match s.nets[a.1] with
  | none => s
  | some u =>
    if a.2.data.length ≤ 1024 then
      { s with nets := s.nets.set a.1 (some { u with inq := u.inq ++ [a.2] }) }
    else s

/-- What the host does before an instruction: the first scheduled arrival, nothing where none is scheduled. -/
def State.hostActs (s : State) : State :=
  match s.host.arrivals with
  | [] => s
  | a :: rest =>
    let s1 := { s with host := { s.host with arrivals := rest }, clock := s.clock + a.micros }
    a.packets.foldl State.packetArrives (a.keys.foldl State.pressKey s1)

end Sys2Proof.Machine
end

