-- ==== Sys2Proof/Machine/Cycle.lean ====
section
/-! DEFINITION. What a step does around the execution of an instruction (60_exceptions.md R223): the DEBUG comparison, the
keyboard, the fetch, the TIMER. -/

namespace Sys2Proof.Machine

/-- What the model's layout says of a word (Log 1). -/
def layoutMeaning (w : Word) : WordMeaning :=
  match decode w with
  | .ok i => .instr i
  | .error _ => .unimplemented

/-- What a word stands for: what the parameter `codebook` says of it, else what the model's layout says of it if the
parameter `byLayout` admits that (30_encoding.md R71, D1; Log 1); `none` where nothing says it. -/
def decodeWord (p : Params) (w : Word) : Option WordMeaning :=
  match p.codebook.lookup w with
  | some m => some m
  | none => if p.byLayout then some (layoutMeaning w) else none

/-- The instruction at PC (R223, point 3). A word whose operation code is not implemented raises UNIMPOP (30_encoding.md
R81). Refused are a word of unknown status, "rather than guess" (R81), and an instruction the source does not name
(45 R197). -/
def State.fetch (s : State) : Except Stop Instr := do
  let w ← s.readMem s.pc
  match decodeWord s.params w with
  | some (.instr i) => .ok i
  | some .unimplemented => .error (.trap ⟨.unimpop, s.pc, none⟩)
  | some .notInSource => .error (.refuse .instructionNotInSource)
  | none => .error (.refuse .wordOfUnknownStatus)

/-- Point 1 of a step (R213, R223): the DEBUG interrupt when PC = DEBUG; `none` when the step goes on. -/
def State.debugPoint (s : State) : Option State :=
  if s.pc = s.debug then
    match (s.skip 1).deliver ⟨.debug, s.pc, s.free, s.pc⟩ with
    | .entered t => some t
    | .stopped t => some t
    | .ignored => none
  else none

/-- Point 2 of a step (R223, R227): the KEYBD interrupt while the keyboard buffer is not empty; `none` when the step
goes on. -/
def State.keyboardPoint (s : State) : Option State :=
  if s.kbuf.isEmpty then none
  else
    match (s.skip 2).deliver ⟨.keybd, s.free, (s.skip 1).free, s.pc⟩ with
    | .entered t => some t
    | .stopped t => some t
    | .ignored => none

/-- Point 5 of a step (R223, R226, D18): TIMER reduced, and the TIMER interrupt when that makes it zero. A CPU the
instruction has halted takes no interrupt (R231; Log 27). -/
def State.timerPoint (s : State) : State :=
  if s.timer = 0 then s
  else
    let t := { s with timer := s.timer - 1 }
    if t.timer = 0 ∧ t.flags.r = true then
      match (t.skip 2).deliver ⟨.timer, t.free, (t.skip 1).free, t.pc⟩ with
      | .entered u => u
      | .stopped u => u
      | .ignored => t
    else t

/-- The state in which a step examines its points: the host has acted, and no instruction has raised anything yet. -/
def State.beginStep (s : State) : State := { s.hostActs with interrupted := false }

/-- Points 1 and 2 of a step, in the order of 92 D20 (DESIGN CHOICE, Log 26): the interrupt that comes before the fetch;
`none` when the step goes on to the fetch. -/
def State.beforeFetch (s : State) : Option State :=
  match s.debugPoint with
  | some t => some t
  | none => s.keyboardPoint

/-- The state after an instruction: TIMER counts it unless it raised an interrupt (R226). -/
def State.endStep (s : State) : State := if s.interrupted then s else s.timerPoint

/-- A word placed where the next step fetches: at the physical address of PC, or at PC itself with VM off where the
translation of PC fails (20_memory.md R42). -/
def State.placeAtPc (s : State) (w : Word) : State :=
  match s.translate s.pc with
  | .ok pa => s.putWord pa.toNat w
  | .error _ => { s with flags := { s.flags with vm := false } }.putWord s.pc.toNat w

/-- What else the next step needs to run exactly the placed word: the CPU running, no DEBUG match, no key waiting or
arriving, and the word listed in the codebook with the meaning the layout gives it. -/
def State.readyToFetch (s : State) (w : Word) : State :=
  { s with
      flags := { s.flags with r := true },
      debug := if s.debug = s.pc then ~~~s.pc else s.debug,
      kbuf := [],
      host := { s.host with arrivals := [] },
      params := { s.params with codebook := (w, layoutMeaning w) :: s.params.codebook } }

end Sys2Proof.Machine
end

