-- ==== Sys2Proof/Machine/BitOps.lean ====
section
/-! DEFINITION. Bit-range and bit instructions (41_bit_instructions.md R113 to R118). The operands of EXBR, DPBR, EXBRV and DPBRV
are not in the source, and the rules say that a model should refuse the instructions and offer Extract and
Deposit as functions: they are `extractRange` and `depositRange` of Bits.lean, and on a vector of words in memory the two
functions below. -/

namespace Sys2Proof.Machine

/-- The range described by `d` in the vector of words at `a` (R115); `none` where it does not lie within a word (D30). -/
def State.extractFromVector (s : State) (a d : Word) : Except Stop (Option Word) := do
  let w ← s.readMem (a + rangeSkip d)
  .ok (extractRange w d)

/-- The range described by `d` in the vector of words at `a` replaced by `v` (R116); `none` where it does not lie within
a word (D30). -/
def State.depositIntoVector (s : State) (a d v : Word) : Except Stop (Option State) := do
  let w ← s.readMem (a + rangeSkip d)
  match depositRange w d v with
  | none => .ok none
  | some x => do
    let t ← s.writeMem (a + rangeSkip d) x
    .ok (some t)

/-- EXBR (R113): refused, its operand roles are not in the source. -/
def execExbr (_bits : BitVec 27) (s : State) : Host.Outcome State Fault Refusal :=
  s.settle (.error (.refuse .bitRangeOperandRoles))

/-- DPBR (R114): refused, its operand roles are not in the source. -/
def execDpbr (_bits : BitVec 27) (s : State) : Host.Outcome State Fault Refusal :=
  s.settle (.error (.refuse .bitRangeOperandRoles))

/-- EXBRV (R115): refused, its operand roles are not in the source. -/
def execExbrv (_bits : BitVec 27) (s : State) : Host.Outcome State Fault Refusal :=
  s.settle (.error (.refuse .bitRangeOperandRoles))

/-- DPBRV (R116): refused, its operand roles are not in the source. -/
def execDpbrv (_bits : BitVec 27) (s : State) : Host.Outcome State Fault Refusal :=
  s.settle (.error (.refuse .bitRangeOperandRoles))

/-- SBIT (R117). -/
def execSbit (rd : Reg) (b : Operand) (s : State) : Host.Outcome State Fault Refusal :=
  s.settle do
    let n ← bitNumber b
    let v ← s.readReg rd
    .ok (s.setReg rd (setBit v n)).advance

/-- CBIT (R118). -/
def execCbit (rd : Reg) (b : Operand) (s : State) : Host.Outcome State Fault Refusal :=
  s.settle do
    let n ← bitNumber b
    let v ← s.readReg rd
    .ok (s.setReg rd (clearBit v n)).advance

end Sys2Proof.Machine
end

