-- ==== Sys2Proof/Machine/FlagOps.lean ====
section
/-! DEFINITION. Special-register and flag instructions: GETSR, SETSR, GETFL, SETFL, FLAGSJ, COMP, COMPZ, JCOND
(40_special_register_flag_instructions.md R90 to R97). -/

namespace Sys2Proof.Machine

/-- GETSR (R90). -/
def execGetsr (rd : Reg) (k : Word) (s : State) : Host.Outcome State Fault Refusal :=
  s.settle do
    let r ← s.specialNamed k
    let t ← s.writeReg rd (s.special r)
    .ok t.advance

/-- SETSR (R91). -/
def execSetsr (rs : Reg) (k : Word) (s : State) : Host.Outcome State Fault Refusal :=
  s.settle do
    s.needSystem
    let r ← s.specialNamed k
    let v ← s.readReg rs
    .ok (s.setSpecial r v).advance

/-- GETFL (R92). -/
def execGetfl (rd : Reg) (f : Word) (s : State) : Host.Outcome State Fault Refusal :=
  s.settle do
    let name ← flagNamed f
    let t ← s.writeReg rd (boolWord (getFlag s.flags name))
    .ok t.advance

/-- SETFL (R93): in user mode R, SYS, IP and VM are protected, whatever the value (D40). -/
def execSetfl (rs : Reg) (f : Word) (s : State) : Host.Outcome State Fault Refusal :=
  s.settle do
    let name ← flagNamed f
    if isProtected name then s.needSystem else .ok ()
    let v ← s.readReg rs
    .ok (s.setFlags (putFlag s.flags (decide (v ≠ 0)) name)).advance

/-- FLAGSJ (R94): the target is computed before the flags change. The one use in the source names a label, and whether
the operand may be a memory form is not said. DESIGN CHOICE (Log 63): every operand form is admitted. -/
def execFlagsj (rs : Reg) (target : Operand) (s : State) : Host.Outcome State Fault Refusal :=
  s.settle do
    s.needSystem
    let w ← s.readReg rs
    let t ← s.value target
    .ok ((s.setFlags (flagsOfWord w)).jump t)

/-- COMP (R95, D29). Every operand form is admitted (DESIGN CHOICE, Log 63). The free bit is used where the difference overflows. -/
def execComp (rn : Reg) (op : Operand) (s : State) : Host.Outcome State Fault Refusal :=
  s.settle do
    let a ← s.readReg rn
    let b ← s.value op
    .ok ({ s with flags := compareFlags s.flags a b s.freeBit }.skip 1).advance

/-- COMPZ (R96, D29). Every operand form is admitted (DESIGN CHOICE, Log 63). -/
def execCompz (op : Operand) (s : State) : Host.Outcome State Fault Refusal :=
  s.settle do
    let v ← s.value op
    .ok { s with flags := compareZeroFlags s.flags v }.advance

/-- JCOND (R97): jumps when ERR is 1; every other condition is refused. Every operand form is admitted (DESIGN CHOICE,
Log 63). -/
def execJcond (c : Cond) (target : Operand) (s : State) : Host.Outcome State Fault Refusal :=
  s.settle
    (match c with
     | .unlisted _ => .error (.refuse .unlistedCondition)
     | .err =>
       if s.flags.err then do
         let t ← s.value target
         .ok (s.jump t)
       else .ok s.advance)

end Sys2Proof.Machine
end

