-- ==== Sys2Proof/Machine/General.lean ====
section
/-! DEFINITION. The general instructions the source uses: LOAD, STORE, PUSH, CALL, RET, INC
(45_general_instructions_referenced.md R190 to R195). -/

namespace Sys2Proof.Machine

/-- LOAD (R190). -/
def execLoad (rd : Reg) (op : Operand) (s : State) : Host.Outcome State Fault Refusal :=
  s.settle do
    operandReg rd
    let v ← s.value op
    .ok (s.setReg rd v).advance

/-- STORE (R191). -/
def execStore (rs : Reg) (op : Operand) (s : State) : Host.Outcome State Fault Refusal :=
  s.settle do
    let v ← s.readReg rs
    let p ← s.place op
    let t ← s.storeAt p v
    .ok t.advance

/-- PUSH (R192): the value is read before SP changes (D9). -/
def execPush (op : Operand) (s : State) : Host.Outcome State Fault Refusal :=
  s.settle do
    let v ← s.value op
    let t ← s.push v
    .ok t.advance

/-- CALL (R193): the return address is pushed, then the operand is evaluated. -/
def execCall (target : Operand) (s : State) : Host.Outcome State Fault Refusal :=
  s.settle do
    let t ← s.push (s.pc + 1)
    let a ← t.value target
    .ok (t.jump a)

/-- RET (R194). -/
def execRet (s : State) : Host.Outcome State Fault Refusal :=
  s.settle do
    let a ← s.readMem s.sp
    .ok ((s.setSp (s.sp + 1)).jump a)

/-- INC (R195): Z and N are free values afterwards (D41). -/
def execInc (op : Operand) (s : State) : Host.Outcome State Fault Refusal :=
  s.settle do
    let p ← s.place op
    if p = .unwritable then .error (.trap ⟨.unwrop, s.pc, none⟩) else .ok ()
    let v ← s.value op
    let t ← s.storeAt p (v + 1)
    .ok ({ t with flags := { t.flags with z := t.freeBit, n := (t.skip 1).freeBit } }.skip 2).advance

end Sys2Proof.Machine
end

