-- ==== Sys2Proof/Machine/DiscOps.lean ====
section
/-! DEFINITION. The disc operations of PERI (42 R128 to R131). `c` is the address of the control structure. -/

namespace Sys2Proof.Machine

/-- The drive a number names, with its index; `none` where the number is out of 1..8 or the disc does not exist. -/
def State.driveOf (s : State) (d : Word) : Option (Fin 8 × Disc) :=
  match unitIndex 8 d with
  | none => none
  | some i => (s.discs[i]).map (fun disc => (i, disc))

/-- A drive's content replaced. -/
def State.setDisc (s : State) (i : Fin 8) (disc : Disc) : State := { s with discs := s.discs.set i (some disc) }

/-- The `n` words of a disc from block `b` on; a word never written reads as a free value (R128, D25). -/
def State.discWords (s : State) (content : Memory) (b n : Nat) : List Word :=
  (List.range n).map (fun j => (Memory.read content (128 * b + j)).getD (Config.freeWord (s.draws + j)))

/-- Some block of `b .. b+k-1` is < 0 or, on a drive that exists, >= its size (R130). -/
def badBlocks (drive : Option (Fin 8 × Disc)) (b k : Word) : Bool :=
  decide (b.toInt < 0) ||
    match drive with
    | none => false
    | some x => decide (x.2.size < b.toNat + k.toNat)

/-- $DISCCHECK (R129). -/
def discCheck (s : State) (c : Word) : PeriEnd :=
  match s.control c 1 with
  | some [d] =>
    match unitIndex 8 d with
    | none => .done errDevNumber s
    | some i =>
      match s.discs[i] with
      | none => .done 0 s
      | some disc => .done (BitVec.ofNat 32 disc.size) s
  | _ => .done errReadParams s

/-- $DISCREAD (R130). On a failure −5 the words stored so far are free values (R125, D35). -/
def discRead (s : State) (c : Word) : PeriEnd :=
  match s.control c 4 with
  | some [d, b, k, m] =>
    if k.toInt ≤ 0 then .refuse .blockCount
    else
      let n := 128 * k.toNat
      let drive := s.driveOf d
      let content := match drive with
        | none => []
        | some x => x.2.content
      let run := (s.skip n).storeRun m (s.discWords content b.toNat n)
      let codes := codeIf drive.isNone errDevNumber ++ codeIf (badBlocks drive b k) errPosition ++
        codeIf (!run.complete) errMemory
      if codes.isEmpty then .done k run.state
      else
        let s1 := s.skip n
        let code := s1.pickCode codes
        .done code (if code = errMemory then (s1.skip 1).spoil m run.stored else s1.skip 1)
  | _ => .done errReadParams s

/-- The blocks named by a transfer that failed hold free values (R131). -/
def State.spoilBlocks (s : State) (drive : Option (Fin 8 × Disc)) (b n : Nat) : State :=
  match drive with
  | none => s
  | some x =>
    (s.skip n).setDisc x.1 { x.2 with content := Memory.writeRun x.2.content (128 * b) (s.freeWords n) }

/-- $DISCWRITE (R131). The host is asked where the named blocks are on a drive, so −6 can stand beside −5 (R127, D35;
Log 40). On either, where the blocks are on the drive, they are free values. -/
def discWrite (s : State) (c : Word) : PeriEnd :=
  match s.control c 4 with
  | some [d, b, k, m] =>
    if k.toInt ≤ 0 then .refuse .blockCount
    else
      let n := 128 * k.toNat
      let drive := s.driveOf d
      let run := s.readRun m n
      let answer := s.askWhen (drive.isSome && !badBlocks drive b k) s.askDiscWrite
      let codes := codeIf drive.isNone errDevNumber ++ codeIf (badBlocks drive b k) errPosition ++
        codeIf (!run.2) errMemory ++ codeIf (!answer.1) errDevFailed
      match drive, codes with
      | some x, [] =>
        .done k (answer.2.setDisc x.1
          { x.2 with content := Memory.writeRun x.2.content (128 * b.toNat) run.1 })
      | _, cs =>
        let code := answer.2.pickCode cs
        let s1 := answer.2.skip 1
        .done code
          (if (code = errMemory ∨ code = errDevFailed) ∧ badBlocks drive b k = false then
             s1.spoilBlocks drive b.toNat n
           else s1)
  | _ => .done errReadParams s

end Sys2Proof.Machine
end

