-- ==== Sys2Proof/Machine/NetOps.lean ====
section
/-! DEFINITION. The network operations of PERI (43 R157 to R161). `c` is the address of the control structure. -/

namespace Sys2Proof.Machine

/-- A unit turned on or off, or its queue changed. -/
def State.setNet (s : State) (i : Fin 2) (u : Option NetUnit) : State := { s with nets := s.nets.set i u }

/-- The unit of a number that is on, with its index; `none` where the number is out of 1..2 or the unit off. -/
def State.netOf (s : State) (u : Word) : Option (Fin 2 × NetUnit) :=
  match unitIndex 2 u with
  | none => none
  | some i => (s.nets[i]).map (fun n => (i, n))

/-- A unit's own address (R157, R158): the real IP address of the computer and the unit's port, as the opaque pair of
R161. -/
def NetUnit.address (u : NetUnit) : Word × Word := Config.addressPair Config.hostIp u.port

/-- Turning unit `u` on (R158): the second of the two words at `p` is the port asked for, or zero for one the host selects,
and both are overwritten by the unit's address. The host that gives no port makes the operation fail with a free negative
result (corner cases). -/
def State.netStart (s : State) (u p : Word) : PeriEnd :=
  let pair := s.readRun p 2
  let codes := codeIf (unitIndex 2 u).isNone errDevNumber ++ codeIf (s.netOf u).isSome errInUse ++
    codeIf (!pair.2) errMemory
  if codes.isEmpty then
    if pair.1.getD 0 0 ≠ 0 then .refuse .networkAddressWord
    else
      let answer := s.askPort (pair.1.getD 1 0)
      match unitIndex 2 u, answer.1 with
      | some i, some port =>
        let started : NetUnit := { port := port, inq := [] }
        let run := answer.2.storeRun p [started.address.1, started.address.2]
        if run.complete then .done run.state.freeNonNegative ((run.state.setNet i (some started)).skip 1)
        else
          let s1 := answer.2.setNet i (if answer.2.freeBit then some started else none)
          .done errMemory ((s1.skip 1).spoil p run.stored)
      | _, _ => .done answer.2.freeNegative (answer.2.skip 1)
  else .done (s.pickCode codes) (s.skip 1)

/-- Turning unit `u` off; each of the two words at `p` that can be written is a free value afterwards (R158, corner
cases). -/
def State.netStop (s : State) (u p : Word) : PeriEnd :=
  match s.netOf u with
  | none => .done errDevNumber s
  | some x => .done s.freeNonNegative ((((s.setNet x.1 none).skip 1).spoil p 1).spoil (p + 1) 1)

/-- $NETSS (R158). -/
def netSS (s : State) (c : Word) : PeriEnd :=
  match s.control c 3 with
  | some [u, on, p] =>
    if on = 1 then s.netStart u p
    else if on = 0 then s.netStop u p
    else .refuse .networkSwitch
  | _ => .done errReadParams s

/-- $NETSEND (R159). The host is asked where a unit is on and the number of bytes is one it may be handed, so −6 can stand
beside −5 (R127, D35; Log 40). -/
def netSend (s : State) (c : Word) : PeriEnd :=
  match s.control c 4 with
  | some [u, p, n, m] =>
    let badLength := decide (n.toInt < 0 ∨ 1024 < n.toInt)
    let pair := s.readRun p 2
    let data := if badLength then ([], true) else s.readRun m (wordsFor n.toNat)
    let answer := s.askWhen ((s.netOf u).isSome && !badLength) s.askSend
    let codes := codeIf (s.netOf u).isNone errDevNumber ++ codeIf badLength errBadParam ++
      codeIf (!(pair.2 && data.2)) errMemory ++ codeIf (!answer.1) errDevFailed
    match s.netOf u, codes with
    | some x, [] =>
      let packet : Packet :=
        { endpoint := (pair.1.getD 0 0, pair.1.getD 1 0), data := (unpackBytes data.1).take n.toNat }
      .done answer.2.freeNonNegative
        ({ answer.2 with netSent := answer.2.netSent ++ [(x.1, packet)] }.skip 1)
    | _, cs => .done (answer.2.pickCode cs) (answer.2.skip 1)
  | _ => .done errReadParams s

/-- The stores of a received packet: the source address at `p`, then the data at `m`, the unused bytes of its last
word free (R160). -/
def State.storePacket (s : State) (p m : Word) (k : Packet) : StoreRun × StoreRun :=
  let head := (s.skip 1).storeRun p [k.endpoint.1, k.endpoint.2]
  (head, if head.complete then head.state.storeRun m (packBytes (fillWord k.data s.free))
         else ⟨head.state, 0, false⟩)

/-- $NETRECV (R160). On −5 the words stored so far are free, and so is whether the packet is gone (R125, D35). -/
def netRecv (s : State) (c : Word) : PeriEnd :=
  match s.control c 3 with
  | some [u, p, m] =>
    match s.netOf u with
    | none => .done (s.pickCode (errDevNumber :: codeIf (!(s.readRun p 2).2) errMemory)) (s.skip 1)
    | some x =>
      let answer := s.askRecv
      let s1 := answer.2
      match x.2.inq with
      | [] =>
        let codes := codeIf (!answer.1) errDevFailed ++ [errNoData] ++ codeIf (!(s1.readRun p 2).2) errMemory
        .done (s1.pickCode codes) (s1.skip 1)
      | k :: rest =>
        let runs := s1.storePacket p m k
        let codes := codeIf (!answer.1) errDevFailed ++ codeIf (!runs.2.complete) errMemory
        if codes.isEmpty then
          .done runs.2.state.freeNonNegative
            ((runs.2.state.setNet x.1 (some { x.2 with inq := rest })).skip 1)
        else
          let code := s1.pickCode codes
          let s2 := s1.skip 1
          .done code
            (if code = errMemory then
               let kept := if s2.freeBit then x.2.inq else rest
               (((s2.setNet x.1 (some { x.2 with inq := kept })).skip 1).spoil p runs.1.stored).spoil m
                 runs.2.stored
             else s2)
  | _ => .done errReadParams s

end Sys2Proof.Machine
end

