-- ==== Sys2Proof/Machine/TapeOps.lean ====
section
/-! DEFINITION. The magnetic tape operations of PERI (42 R132 to R138). `c` is the address of the control structure. -/

namespace Sys2Proof.Machine

/-- The mode a word names: 'R' = 82, 'W' = 87 (R133, R135). -/
def tapeModeOf (w : Word) : Option TapeMode :=
  if w = 82 then some .read else if w = 87 then some .write else none

/-- The letter of a mode (R133). -/
def tapeLetter : TapeMode → Word
  | .read => 82
  | .write => 87

/-- A unit loaded, unloaded or moved. -/
def State.setTape (s : State) (i : Fin 8) (t : Option Tape) : State := { s with tapes := s.tapes.set i t }

/-- The loaded tape of a unit number, with its index; `none` where the number is out of 1..8 or the unit unloaded. -/
def State.tapeOf (s : State) (u : Word) : Option (Fin 8 × Tape) :=
  match unitIndex 8 u with
  | none => none
  | some i => (s.tapes[i]).map (fun t => (i, t))

/-- $TAPECHECK (R133). -/
def tapeCheck (s : State) (c : Word) : PeriEnd :=
  match s.control c 1 with
  | some [u] =>
    match unitIndex 8 u with
    | none => .done errDevNumber s
    | some i =>
      match s.tapes[i] with
      | none => .done 0 s
      | some t => .done (tapeLetter t.mode) s
  | _ => .done errReadParams s

/-- $TAPEREWIND (R134); an unloaded unit is "not available" (D35). -/
def tapeRewind (s : State) (c : Word) : PeriEnd :=
  match s.control c 1 with
  | some [u] =>
    match s.tapeOf u with
    | none => .done errDevNumber s
    | some x => .done 1 (s.setTape x.1 (some { x.2 with pos := 0 }))
  | _ => .done errReadParams s

/-- $TAPELOAD (R135). Whether the file is accessible and what it holds is the host's answer; a file that is not gives −7
where its name could be read, beside −8 and −3 too (R127, D35; Log 40). The unit holds a copy of the
file's bytes taken now and dropped at the unload (DESIGN CHOICE, Log 64). A unit numbered 1 to 8 is never "otherwise not
available" (DESIGN CHOICE, Log 65). A name without an end can be met only where the unit number is out of range (Log 52;
`tapeLoad_scan_ends` in Laws/Devices.lean), and then −3 is reported. -/
def tapeLoad (s : State) (c : Word) : PeriEnd :=
  match s.control c 3 with
  | some [u, name, mode] =>
    if (s.tapeOf u).isSome then .refuse .tapeAlreadyLoaded
    else
      let unit := unitIndex 8 u
      let file := s.scanString addressSpace name
      let answer := s.askTapeOpen
      let codes := codeIf unit.isNone errDevNumber ++ codeIf (file.2 == .memory) errMemory ++
        codeIf (tapeModeOf mode).isNone errBadParam ++
        codeIf (file.2 == .zero && answer.1.isNone) errNotFound
      match unit, tapeModeOf mode, answer.1, codes with
      | some i, some md, some bytes, [] =>
        .done 1 (answer.2.setTape i (some { file := file.1, mode := md, data := bytes, pos := 0 }))
      | _, _, _, cs => .done (answer.2.pickCode cs) (answer.2.skip 1)
  | _ => .done errReadParams s

/-- $TAPEUNLOAD (R136). −3 is for a unit number out of 1..8 alone: a number 1 to 8 is always "available" (DESIGN CHOICE,
Log 65). -/
def tapeUnload (s : State) (c : Word) : PeriEnd :=
  match s.control c 1 with
  | some [u] =>
    match unitIndex 8 u with
    | none => .done errDevNumber s
    | some i =>
      match s.tapes[i] with
      | none => .done errNotFound s
      | some _ => .done 1 (s.setTape i none)
  | _ => .done errReadParams s

/-- $TAPEREAD (R137). The unused high bytes of a short last word are free; on −5 the words stored so far and the
position within the block are free (R125, D35). A unit loaded for writing gives −3, or −5 by a free choice where the
block could not be stored either (R127, D35). -/
def tapeRead (s : State) (c : Word) : PeriEnd :=
  match s.control c 2 with
  | some [u, m] =>
    match s.tapeOf u with
    | none => .done errDevNumber s
    | some x =>
      let block := (x.2.data.drop x.2.pos).take 512
      let run := (s.skip 1).storeRun m (packBytes (fillWord block s.free))
      let codes := codeIf (x.2.mode == .write) errDevNumber ++ codeIf (!run.complete) errMemory
      if codes.isEmpty then
        if block.isEmpty then .done 0 s
        else
          .done (BitVec.ofNat 32 block.length)
            (run.state.setTape x.1 (some { x.2 with pos := x.2.pos + block.length }))
      else
        let code := s.pickCode codes
        let s1 := s.skip 1
        .done code
          (if code = errMemory then
             ((s1.skip 1).spoil m run.stored).setTape x.1
               (some { x.2 with pos := x.2.pos + s1.freeUpTo block.length })
           else s1)
  | _ => .done errReadParams s

/-- The bytes `bs` put into a tape at its position, which moves past them (R138). What becomes of the
bytes behind them, where the tape is longer, the source does not say. DESIGN CHOICE (Log 68): they stay. -/
def putBytes (t : Tape) (bs : List Byte) : Tape :=
  { t with data := t.data.take t.pos ++ bs ++ t.data.drop (t.pos + bs.length), pos := t.pos + bs.length }

/-- A write of `n` bytes that failed part way (R125, D35): a free number of free bytes, at most `n`, went to the tape, and
the position moved by another free number, at most `n`. DESIGN CHOICE (Log 40): no byte but the `n` at the position is
touched, and the position stays within the tape. -/
def State.spoilTape (s : State) (x : Fin 8 × Tape) (n : Nat) : State :=
  let bs := ((s.skip 2).freeWords (s.freeUpTo n)).map (fun w => w.setWidth 8)
  let t := putBytes x.2 bs
  (s.skip (n + 2)).setTape x.1
    (some { t with pos := min (x.2.pos + (s.skip 1).freeUpTo n) t.data.length })

/-- $TAPEWRITE (R138). −4 is never returned. The host is asked where there is a tape to write to, so −6 can stand beside −5
(R127, D35; Log 40). -/
def tapeWrite (s : State) (c : Word) : PeriEnd :=
  match s.control c 3 with
  | some [u, m, n] =>
    if n.toInt ≤ 0 ∨ 512 < n.toInt then .refuse .byteCount
    else
      let run := s.readRun m (wordsFor n.toNat)
      match (s.tapeOf u).filter (fun x => decide (x.2.mode = .write)) with
      | none =>
        let codes := errDevNumber :: codeIf (!run.2) errMemory
        .done (s.pickCode codes) (s.skip 1)
      | some x =>
        let answer := s.askTapeWrite
        let codes := codeIf (!run.2) errMemory ++ codeIf (!answer.1) errDevFailed
        if codes.isEmpty then
          .done n (answer.2.setTape x.1 (some (putBytes x.2 ((unpackBytes run.1).take n.toNat))))
        else .done (answer.2.pickCode codes) ((answer.2.skip 1).spoilTape x n.toNat)
  | _ => .done errReadParams s

end Sys2Proof.Machine
end

