-- ==== Sys2Proof/Machine/TermOps.lean ====
section
/-! DEFINITION. The terminal operations of PERI (43 R150 to R155). `c` is the address of the control structure. -/

namespace Sys2Proof.Machine

/-- Up to `max` characters taken from the keyboard buffer and stored at `m` in the given form (R151, R153). On −5 the
words stored so far are free, and so is how many of the characters are gone (R125, D35). -/
def State.takeKeys (s : State) (max m : Word) (form : List Byte → List Word) : PeriEnd :=
  if max.toInt < 0 then .refuse .characterCount
  else
    let n := min max.toNat s.kbuf.length
    let run := { s with kbuf := s.kbuf.drop n }.storeRun m (form (s.kbuf.take n))
    if run.complete then .done (BitVec.ofNat 32 n) run.state
    else
      .done errMemory (({ s with kbuf := s.kbuf.drop (s.freeUpTo n) }.skip 1).spoil m run.stored)

/-- $TERMINC (R151): a packed string, zero terminated, absent bytes 0. -/
def termInC (s : State) (c : Word) : PeriEnd :=
  match s.control c 2 with
  | some [max, m] => s.takeKeys max m (fun cs => packBytes (cs ++ [0]))
  | _ => .done errReadParams s

/-- $TERMINW (R153): one character a word, not terminated. -/
def termInW (s : State) (c : Word) : PeriEnd :=
  match s.control c 2 with
  | some [max, m] => s.takeKeys max m (fun cs => cs.map (fun b => b.setWidth 32))
  | _ => .done errReadParams s

/-- Characters printed on the terminal (R152). -/
def State.print (s : State) (bs : List Byte) : State := { s with screen := s.screen ++ bs }

/-- The end of a print that scanned for its end (R152): the characters before the end are printed, "an unlimited number";
a memory problem gives −5, and they stay printed. The scan always ends (Log 52): the count, word 1 of the control
structure, is itself a zero in the address space (`termOut_scan_ends` in Laws/Devices.lean). -/
def State.printScan (s : State) (bs : List Byte) : ScanEnd → PeriEnd
  | .zero | .endless => .done (BitVec.ofNat 32 bs.length) (s.print bs)
  | .memory => .done errMemory (s.print bs)

/-- The end of a print of a given number of characters: all printed, or −5 with a free number of the readable ones
printed (R125, D35). -/
def State.printCount (s : State) (k : Word) (bs : List Byte) (ok : Bool) : PeriEnd :=
  if ok then .done k (s.print bs)
  else .done errMemory ((s.print (bs.take (s.freeUpTo bs.length))).skip 1)

/-- $TERMOUTC (R152). -/
def termOutC (s : State) (c : Word) : PeriEnd :=
  match s.control c 2 with
  | some [k, m] =>
    if k.toInt < 0 then .refuse .characterCount
    else if k = 0 then
      let text := s.scanString addressSpace m
      s.printScan text.1 text.2
    else
      let run := s.readRun m (wordsFor k.toNat)
      s.printCount k ((unpackBytes run.1).take k.toNat) run.2
  | _ => .done errReadParams s

/-- The characters of words that hold one each (R154); a word above 255 is no character, and a free one is printed for
it (Log 54). -/
def State.wordChars (s : State) (ws : List Word) : List Byte :=
  ws.zipWith (fun w i => if w.toNat < 256 then w.setWidth 8 else (Config.freeWord (s.draws + i)).setWidth 8)
    (List.range ws.length)

/-- $TERMOUTW (R154). -/
def termOutW (s : State) (c : Word) : PeriEnd :=
  match s.control c 2 with
  | some [k, m] =>
    if k.toInt < 0 then .refuse .characterCount
    else if k = 0 then
      let text := s.scanWords addressSpace m
      (s.skip text.1.length).printScan (s.wordChars text.1) text.2
    else
      let run := s.readRun m k.toNat
      (s.skip run.1.length).printCount k (s.wordChars run.1) run.2
  | _ => .done errReadParams s

end Sys2Proof.Machine
end

