-- ==== Sys2Proof/Machine/TimeOps.lean ====
section
/-! DEFINITION. The time operations of PERI (43 R162 to R165). `c` is the address of the control structure. -/

namespace Sys2Proof.Machine

/-- The clock's seconds as a word (R163). -/
def State.clockSeconds (s : State) : Word := BitVec.ofNat 32 (s.clock / 1000000)

/-- The clock's microseconds within the second, 0 to 999999 (R164). -/
def State.clockMicros (s : State) : Word := BitVec.ofNat 32 (s.clock % 1000000)

/-- Output words stored in the control structure from `a` on; −2 where one cannot be, the words stored so far free
(R125, D35); else a free result that is not negative (D42). -/
def State.answerWords (s : State) (a : Word) (ws : List Word) : PeriEnd :=
  let run := s.storeRun a ws
  if run.complete then .done run.state.freeNonNegative (run.state.skip 1)
  else .done errReadParams (s.spoil a run.stored)

/-- $SECONDS (R163). -/
def seconds (s : State) (_c : Word) : PeriEnd := .done s.clockSeconds s

/-- $USECONDS (R164). -/
def uSeconds (s : State) (c : Word) : PeriEnd := s.answerWords (c + 1) [s.clockSeconds, s.clockMicros]

/-- $DATETIME (R165, D43). -/
def dateTime (s : State) (c : Word) : PeriEnd :=
  match s.control c 1 with
  | some [t] =>
    if t.toInt < 0 then .refuse .negativeTime
    else s.answerWords (c + 2) ((dateTimeParts t.toNat).map (BitVec.ofNat 32))
  | _ => .done errReadParams s

end Sys2Proof.Machine
end

