-- ==== Sys2Proof/Machine/Peri.lean ====
section
/-! DEFINITION. PERI, the input/output instruction (42 R120 to R125). -/

namespace Sys2Proof.Machine

/-- The operation selected (R129 to R138, 43 R151 to R165). -/
def runPeriOp (op : PeriOp) (s : State) (c : Word) : PeriEnd :=
  match op with
  | .discCheck => discCheck s c
  | .discRead => discRead s c
  | .discWrite => discWrite s c
  | .tapeCheck => tapeCheck s c
  | .tapeRewind => tapeRewind s c
  | .tapeLoad => tapeLoad s c
  | .tapeUnload => tapeUnload s c
  | .tapeRead => tapeRead s c
  | .tapeWrite => tapeWrite s c
  | .termInC => termInC s c
  | .termOutC => termOutC s c
  | .termInW => termInW s c
  | .termOutW => termOutW s c
  | .netSS => netSS s c
  | .netSend => netSend s c
  | .netRecv => netRecv s c
  | .seconds => seconds s c
  | .uSeconds => uSeconds s c
  | .dateTime => dateTime s c

/-- The operation of the control structure at `c`: −2 where its first word cannot be read (R125), −1 where it is no
operation code (R124). -/
def State.periAt (s : State) (c : Word) : PeriEnd :=
  match s.periRead c with
  | none => .done errReadParams s
  | some w =>
    match periOpOf s.params.periOp w with
    | none => .done errBadCode s
    | some op => runPeriOp op s c

/-- The result in the main register and ERR, set exactly when the result is negative (R120, R122). -/
def State.periResult (s : State) (rd : Reg) (result : Word) : State :=
  let t := s.setReg rd result
  { t with flags := { t.flags with err := decide (result.toInt < 0) } }

/-- PERI (R120). Every operand form is admitted for the control structure's address (DESIGN CHOICE, Log 63). -/
def execPeri (rd : Reg) (control : Operand) (s : State) : Host.Outcome State Fault Refusal :=
  s.settle do
    s.needSystem
    operandReg rd
    let c ← s.value control
    match s.periAt c with
    | .done result t => .ok (t.periResult rd result).advance
    | .refuse r => .error (.refuse r)

end Sys2Proof.Machine
end

