-- ==== Sys2Proof/Machine/System.lean ====
section
/-! DEFINITION. System instructions: HALT, SYSCALL, IRET, PHLOAD, PHSTORE, CLRPP (44_system_instructions.md R180 to R185). -/

namespace Sys2Proof.Machine

/-- HALT (R180): halts in system mode, raises the HALT interrupt in user mode. -/
def execHalt (s : State) : Host.Outcome State Fault Refusal :=
  s.settle
    (if s.flags.sys then
       .ok { s with flags := { s.flags with r := false }, stopReason := some .haltInstruction }.advance
     else .error (.trap ⟨.halt, s.pc, none⟩))

/-- The words SYSCALL pushes: the interrupt frame without its three information words, the return address as saved
PC (R181). -/
def State.gateFrame (s : State) : List Word :=
  s.registerFrame (s.sysSp - 13) (s.pc + 1) ++ [flagsWord s.flags, 40]

/-- A memory failure while SYSCALL reads the gate or pushes its frame, treated as in interrupt entry (R181, D17).
There is no original interrupt, so its address and code words are free (Log 23). -/
def State.gateFault (s : State) (begun : Bool) (touched : List Nat) (returnPc : Word) : State :=
  ((s.skip 2).intrFault begun touched s.free (s.skip 1).free returnPc).raised (s.skip 2)

/-- The gate entered: the 18-word frame, its top word remembered as the top of a SYSCALL frame (Log 56). -/
def State.enterGate (s : State) (entry : Word) : State :=
  let run := s.enterFrame s.gateFrame entry
  if run.complete then
    { run.state with gateFrames := run.state.gateFrames ++ run.touched.getLast?.toList }
  else run.state.gateFault true run.touched (s.pc + 1)

/-- SYSCALL with index `i` (R181). -/
def State.callGate (s : State) (i : Word) : Except Stop State :=
  if i.toInt < 0 ∨ s.cglen.toInt ≤ i.toInt then .error (.trap ⟨.badcall, s.pc, some i⟩)
  else
    match s.physRead (s.cgbr + i) with
    | .error _ => .ok (s.gateFault false [] (s.pc + 1))
    | .ok entry => if entry = 0 then .error (.refuse .zeroCallGate) else .ok (s.enterGate entry)

/-- SYSCALL (R181). Every operand form is admitted for the index (DESIGN CHOICE, Log 63), and no main register is written
(DESIGN CHOICE, Log 66). -/
def execSyscall (index : Operand) (s : State) : Host.Outcome State Fault Refusal :=
  s.settle do
    let i ← s.value index
    s.callGate i

/-- IRET (R182). -/
def execIret (s : State) : Host.Outcome State Fault Refusal :=
  s.settle do
    s.needSystem
    s.returnFromInterrupt

/-- PHLOAD (R183): privileged; its effect in system mode is not in the source. -/
def execPhload (_bits : BitVec 27) (s : State) : Host.Outcome State Fault Refusal :=
  s.settle do
    s.needSystem
    .error (.refuse .effectNotInSource)

/-- PHSTORE (R184): privileged; its effect in system mode is not in the source. -/
def execPhstore (_bits : BitVec 27) (s : State) : Host.Outcome State Fault Refusal :=
  s.settle do
    s.needSystem
    .error (.refuse .effectNotInSource)

/-- CLRPP (R185): privileged; its effect in system mode is not in the source. -/
def execClrpp (_bits : BitVec 27) (s : State) : Host.Outcome State Fault Refusal :=
  s.settle do
    s.needSystem
    .error (.refuse .effectNotInSource)

end Sys2Proof.Machine
end

