-- ==== Sys2Proof/Machine/Dispatch.lean ====
section
/-! DEFINITION. The meaning of every instruction, one arm each. -/

namespace Sys2Proof.Machine

def exec (i : Instr) (s : State) : Host.Outcome State Fault Refusal :=
  match i with
  | .getsr rd k => Sys2Proof.Machine.execGetsr rd k s
  | .setsr rs k => Sys2Proof.Machine.execSetsr rs k s
  | .getfl rd f => Sys2Proof.Machine.execGetfl rd f s
  | .setfl rs f => Sys2Proof.Machine.execSetfl rs f s
  | .flagsj rs target => Sys2Proof.Machine.execFlagsj rs target s
  | .comp rn op => Sys2Proof.Machine.execComp rn op s
  | .compz op => Sys2Proof.Machine.execCompz op s
  | .jcond c target => Sys2Proof.Machine.execJcond c target s
  | .exbr bits => Sys2Proof.Machine.execExbr bits s
  | .dpbr bits => Sys2Proof.Machine.execDpbr bits s
  | .exbrv bits => Sys2Proof.Machine.execExbrv bits s
  | .dpbrv bits => Sys2Proof.Machine.execDpbrv bits s
  | .sbit rd b => Sys2Proof.Machine.execSbit rd b s
  | .cbit rd b => Sys2Proof.Machine.execCbit rd b s
  | .peri rd control => Sys2Proof.Machine.execPeri rd control s
  | .halt => Sys2Proof.Machine.execHalt s
  | .syscall index => Sys2Proof.Machine.execSyscall index s
  | .iret => Sys2Proof.Machine.execIret s
  | .phload bits => Sys2Proof.Machine.execPhload bits s
  | .phstore bits => Sys2Proof.Machine.execPhstore bits s
  | .clrpp bits => Sys2Proof.Machine.execClrpp bits s
  | .load rd op => Sys2Proof.Machine.execLoad rd op s
  | .store rs op => Sys2Proof.Machine.execStore rs op s
  | .push op => Sys2Proof.Machine.execPush op s
  | .call target => Sys2Proof.Machine.execCall target s
  | .ret => Sys2Proof.Machine.execRet s
  | .inc op => Sys2Proof.Machine.execInc op s

end Sys2Proof.Machine
end

