-- ==== Sys2Proof/Machine/Step.lean ====
section
/-! DEFINITION. One step of the CPU (60_exceptions.md R223). -/

namespace Sys2Proof.Machine

/-- One step (R223). A halted CPU changes no state (R231). A step that an interrupt ends before the fetch runs no
instruction. -/
def step (s : State) : Host.Outcome State Fault Refusal :=
  if s.flags.r = false then .next s
  else
    match s.beginStep.beforeFetch with
    | some t => .next t
    | none =>
      match s.beginStep.fetch with
      | .error e => s.beginStep.settle (.error e)
      | .ok i =>
        match exec i s.beginStep with
        | .next t => .next t.endStep
        | .fault f => .fault f
        | .refused r => .refused r

/-- `s` with the instruction whose bits are `w` where the next step fetches, so that the step runs exactly it: one
32-bit word (30_encoding.md R70). -/
def State.withFetchWord (s : State) (_nbits w : Nat) : State :=
  (s.readyToFetch (BitVec.ofNat 32 w)).placeAtPc (BitVec.ofNat 32 w)

end Sys2Proof.Machine
end

