-- ==== Sys2Proof/Safety.lean ====
section
/-! DEFINITION. What counts as a good state, and what an instruction leaves unchanged, in the terms claims use. -/

namespace Sys2Proof.Machine

/-! ### Good states -/

/-- A memory's addresses rise strictly and lie below `bound`. -/
def Memory.wfBelow (m : Memory) (bound : Nat) : Prop := Memory.wf m ∧ ∀ e ∈ m, e.1 < bound

/-- Memory is in canonical form and holds only words of physical memory (20_memory.md R41); every disc is in canonical
form and holds only words of its own blocks (42 R128); no tape stands behind its end (42 R132). -/
def State.Good (s : State) : Prop :=
  Memory.wfBelow s.mem s.params.physWords ∧
    (∀ (i : Fin 8) (d : Disc), s.discs[i] = some d → Memory.wfBelow d.content (128 * d.size)) ∧
      ∀ (i : Fin 8) (t : Tape), s.tapes[i] = some t → t.pos ≤ t.data.length

/-- A halted CPU has a recorded reason (60_exceptions.md R231). -/
def State.HaltedForReason (s : State) : Prop := s.flags.r = false → s.stopReason ≠ none

/-- The sizes of the drives that exist (42 R128). -/
def State.driveSizes (s : State) : List (Option Nat) := s.discs.toList.map (fun d => d.map (fun x => x.size))

/-! ### What is left unchanged -/

/-- Every word of physical memory reads as before. -/
def SameMemory (s t : State) : Prop := ∀ a : Nat, t.memWord a = s.memWord a

/-- The word at physical address `pa` is `v`, every other word reads as before. -/
def StoredAt (s t : State) (pa v : Word) : Prop :=
  t.memWord pa.toNat = v ∧ ∀ a : Nat, a ≠ pa.toNat → t.memWord a = s.memWord a

/-- PDBR, INTVEC, CGBR, CGLEN, DEBUG and TIMER are as before. -/
def SameControl (s t : State) : Prop :=
  t.pdbr = s.pdbr ∧ t.intvec = s.intvec ∧ t.cgbr = s.cgbr ∧ t.cglen = s.cglen ∧ t.debug = s.debug ∧
    t.timer = s.timer

/-- The devices and the parameters are as before. -/
def SameDevices (s t : State) : Prop :=
  t.kbuf = s.kbuf ∧ t.screen = s.screen ∧ t.discs = s.discs ∧ t.tapes = s.tapes ∧ t.nets = s.nets ∧
    t.netSent = s.netSent ∧ t.clock = s.clock ∧ t.params = s.params

/-- R0 to R12 and the four stack registers are as before. -/
def SameRegisters (s t : State) : Prop :=
  t.gpr = s.gpr ∧ t.sysSp = s.sysSp ∧ t.sysFp = s.sysFp ∧ t.usrSp = s.usrSp ∧ t.usrFp = s.usrFp

/-- The stack registers SP and FP do not name in the current mode (10_state.md R12, R13). -/
def State.otherStack (s : State) : Word × Word :=
  if s.flags.sys then (s.usrSp, s.usrFp) else (s.sysSp, s.sysFp)

/-- Every flag and the reason for a halt are as before. -/
def SameFlags (s t : State) : Prop := t.flags = s.flags ∧ t.stopReason = s.stopReason

/-- The instruction at `s` wrote register `rd` with `v`, moved to the next instruction and changed nothing else. -/
def WroteRegister (s t : State) (rd : Reg) (v : Word) : Prop :=
  t.reg rd = v ∧ t.pc = s.pc + 1 ∧ (∀ m : Reg, m ≠ rd → m ≠ .pc → t.reg m = s.reg m) ∧
    t.otherStack = s.otherStack ∧ SameFlags s t ∧ SameControl s t ∧ SameMemory s t ∧ SameDevices s t

/-- The instruction at `s` wrote the flags as `f`, moved to the next instruction and changed nothing else. -/
def WroteFlags (s t : State) (f : Flags) : Prop :=
  t.flags = f ∧ t.pc = s.pc + 1 ∧ (f.r = true → t.stopReason = s.stopReason) ∧ SameRegisters s t ∧
    SameControl s t ∧ SameMemory s t ∧ SameDevices s t

/-- R0 to R12, FP and the other mode's stack registers are as before, SP is `sp`. -/
def MovedSp (s t : State) (sp : Word) : Prop :=
  t.gpr = s.gpr ∧ t.sp = sp ∧ t.fp = s.fp ∧ t.otherStack = s.otherStack

/-- The PERI call `PERI rd, op` in system mode has its control structure at `c`, and its first word selects
operation `o` (42 R120). -/
def PeriCall (s : State) (rd : Reg) (op : Operand) (c : Word) (o : PeriOp) : Prop :=
  s.flags.sys = true ∧ rd ≠ .pc ∧ s.value op = .ok c ∧
    ∃ w : Word, s.readMem c = .ok w ∧ periOpOf s.params.periOp w = some o

/-- The call ends with `result` in the main register, ERR set exactly when it is negative, the PC moved on, and
everything else as in `u` (42 R120, R122). -/
def PeriEnds (s : State) (rd : Reg) (op : Operand) (result : Word) (u : State) : Prop :=
  Sys2Proof.Machine.exec (.peri rd op) s = .next (u.periResult rd result).advance

/-- How many words after its first an operation reads of its control structure (42 R129 to R138, 43 R151 to R165). -/
def periInputs : PeriOp → Nat
  | .discCheck | .tapeCheck | .tapeRewind | .tapeUnload | .dateTime => 1
  | .tapeRead | .termInC | .termOutC | .termInW | .termOutW => 2
  | .tapeLoad | .tapeWrite | .netSS | .netRecv => 3
  | .discRead | .discWrite | .netSend => 4
  | .seconds | .uSeconds => 0

/-- Words 1, 2, ... of the control structure at `c` are the given ones (42 R121). -/
def ControlWords (s : State) (c : Word) (ws : List Word) : Prop := s.control c ws.length = some ws

/-- `n` words from `a` upward lie in physical memory, with VM off. -/
def PlainRange (s : State) (a : Word) (n : Nat) : Prop :=
  s.flags.vm = false ∧ a.toNat + n ≤ s.params.physWords ∧ a.toNat + n ≤ 2 ^ 32

/-- Byte `j` of the packed bytes that start with the word at physical address `a`, the low byte of a word first
(20_memory.md R52). -/
def State.byteAt (s : State) (a : Word) (j : Nat) : Byte :=
  (s.memWord (a.toNat + j / 4)).extractLsb' (8 * (j % 4)) 8

/-- The packed string `bs` with its zero character lies at `a` in physical memory, with VM off (43 R155). -/
def StringAt (s : State) (a : Word) (bs : List Byte) : Prop :=
  PlainRange s a (bs.length / 4 + 1) ∧
    (∀ j : Nat, j < bs.length → s.byteAt a j = bs.getD j 0 ∧ bs.getD j 0 ≠ 0) ∧ s.byteAt a bs.length = 0

/-- The characters `bs`, one a word, and a zero word after them lie at `a` in physical memory, with VM off (43 R154). -/
def CharactersAt (s : State) (a : Word) (bs : List Byte) : Prop :=
  PlainRange s a (bs.length + 1) ∧
    (∀ j : Nat, j < bs.length → s.memWord (a.toNat + j) = (bs.getD j 0).setWidth 32 ∧ bs.getD j 0 ≠ 0) ∧
    s.memWord (a.toNat + bs.length) = 0

/-- The words of a frame on the system stack below `top`: word `j` pushed lies at `top - 1 - j`, all else is as in
`s` (60_exceptions.md R218). -/
def FrameBelow (s t : State) (top : Word) (frame : List Word) : Prop :=
  (∀ j : Nat, j < frame.length → t.memWord (top.toNat - 1 - j) = frame.getD j 0) ∧
    ∀ a : Nat, (a < top.toNat - frame.length ∨ top.toNat ≤ a) → t.memWord a = s.memWord a

/-- Days from 1 January 2000 to the first day of year `y`, by the Gregorian rule (43 R165). -/
def daysBeforeYear (y : Nat) : Nat :=
  365 * (y - 2000) + ((y - 1) / 4 + (y - 1) / 400 - (y - 1) / 100) - (1999 / 4 + 1999 / 400 - 1999 / 100)

end Sys2Proof.Machine
end

