-- ==== Sys2Proof/Certificates/Slice0/Obligations.lean ====
section
/-! DEFINITION. The statements for the provers. Each docstring names the rule of spec/ it formalises; where a clause is the
model's own choice it names the log entry. -/

open Sys2Proof Sys2Proof.Machine

/-! ### The words of instructions -/

/-- Decode and encode agree. Decoding the word of an instruction gives the instruction back, with every operand at every
value the layout admits; and every word has one meaning: an instruction that decoding gives encodes to the word it was read
from, and fits the layout. The layout is the model's choice (Log 1). -/
def Obligations.DecodeAndEncodeAgree : Prop :=
  (∀ i : Instr, i.wf = true → decode (encode i) = .ok i) ∧
    ∀ (w : Word) (i : Instr), decode w = .ok i → encode i = w ∧ i.wf = true

/-- A few words written out bit by bit in the model's layout (Log 1), one for each instruction file of the spec. -/
def Obligations.WrittenOutWordsDecode : Prop :=
  decode 0x08800000 = .ok (.getsr (.r 1) 0) ∧
  decode 0x10800006 = .ok (.setsr (.r 1) 6) ∧
  decode 0x40000140 = .ok (.jcond .err (.num 0x140)) ∧
  decode 0x6A800006 = .ok (.sbit (.r 5) (.num 6)) ∧
  decode 0x79800150 = .ok (.peri (.r 3) (.num 0x150)) ∧
  decode 0x80000000 = .ok .halt ∧
  decode 0xB1320001 = .ok (.load (.r 2) (.indOff (.r 2) 1)) ∧
  decode 0x00000000 = .error .unknownOperation

/-! ### The step -/

/-- R223, R226: when the CPU runs and no interrupt comes before the fetch, a step is the execution of the instruction that the
word at PC stands for, followed by the TIMER point unless that instruction raised an interrupt; a fetch that fails is the
step's interrupt, MEMORY, PAGEFAULT or PAGEPRIV. The mark `interrupted` is the model's own (Log 56): raising an interrupt sets
it, and an instruction's next state carries it only if the instruction raised an interrupt, or is a SYSCALL whose gate could
not be read or whose frame could not be pushed (92 D17). -/
def Obligations.StepExecutesTheDecodedInstruction : Prop :=
  ∀ s : State, s.flags.r = true → s.beginStep.beforeFetch = none →
    (∀ (w : Word) (i : Instr), s.beginStep.readMem s.beginStep.pc = .ok w →
      decodeWord s.beginStep.params w = some (.instr i) →
      (∀ t, exec i s.beginStep = .next t →
        step s = .next t.endStep ∧ (t.interrupted = true → t.endStep = t) ∧
          (t.interrupted = false → t.endStep = t.timerPoint) ∧
          (t.interrupted = true → (∃ q : Trap, t = s.beginStep.raise q) ∨
            ∃ (op : Operand) (n : Word), i = .syscall op ∧ s.beginStep.value op = .ok n ∧
              ∀ h : Word, s.beginStep.physRead (s.beginStep.cgbr + n) = .ok h →
                (s.beginStep.enterFrame s.beginStep.gateFrame h).complete = false)) ∧
      (∀ r, exec i s.beginStep = .refused r → step s = .refused r)) ∧
    (∀ q : Trap, s.beginStep.readMem s.beginStep.pc = .error (.trap q) →
      step s = .next (s.beginStep.raise q) ∧
        (q.code = .memory ∨ (q.code = .pagefault ∧ q.address = s.beginStep.pc) ∨
          (q.code = .pagepriv ∧ q.address = s.beginStep.pc))) ∧
    ∀ q : Trap, (s.raise q).interrupted = true

/-- R204: a word at PC whose operation code is not implemented raises UNIMPOP with the address of that word; the saved PC is
that address too, and no instruction is executed. R81, R197: a word of which nothing says what it stands for, and an
instruction the source does not name, are refused. What a word stands for is the parameter of R71 (Log 1). -/
def Obligations.UnimplementedWordRaisesUnimpop : Prop :=
  ∀ (s : State) (w : Word), s.flags.r = true → s.beginStep.beforeFetch = none →
    s.beginStep.readMem s.beginStep.pc = .ok w →
    (decodeWord s.beginStep.params w = some .unimplemented →
      step s = .next (s.beginStep.raise ⟨.unimpop, s.beginStep.pc, none⟩)) ∧
    (decodeWord s.beginStep.params w = none → step s = .refused .wordOfUnknownStatus) ∧
    (decodeWord s.beginStep.params w = some .notInSource → step s = .refused .instructionNotInSource)

/-! ### Reset -/

/-- R240: after start-up SYS = 1, IP = 1, VM = 0 and R = 1; with Z = N = ERR = 0 the FLAGS word reads 49. -/
def Obligations.ResetModeAndFlags : Prop :=
  State.reset.flags.sys = true ∧ State.reset.flags.ip = true ∧ State.reset.flags.vm = false ∧
    State.reset.flags.r = true ∧
    flagsWord { State.reset.flags with z := false, n := false, err := false } = 49

/-- The start-up values the spec leaves open, as the MODEL chooses them (Logs 4, 5, 6, 7, 8, 9); memory has never been
written (Log 3). -/
def Obligations.ResetChosenValues : Prop :=
  State.reset.pc = 0x100 ∧ (∀ n : Fin 13, State.reset.gpr[n] = 0) ∧
    (∀ r : SReg, r ≠ .flags → State.reset.special r = if r = .debug then 0xFFFFFFFF else 0) ∧
    State.reset.flags.z = false ∧ State.reset.flags.n = false ∧ State.reset.flags.err = false ∧
    (∀ a : Nat, Memory.read State.reset.mem a = none) ∧ State.reset.kbuf = [] ∧
    State.reset.driveSizes = [some 6000, none, none, none, none, none, none, none] ∧
    (∀ i : Fin 8, State.reset.tapes[i] = none) ∧ (∀ i : Fin 2, State.reset.nets[i] = none) ∧
    periCodesDistinct State.reset.params.periOp

/-- The invariants of the next three statements hold after start-up. -/
def Obligations.ResetIsGood : Prop := State.reset.Good ∧ State.reset.HaltedForReason

/-! ### Invariants of every step -/

/-- Every step from a good state leads to a good state: memory and discs stay canonical and inside their bounds
(20_memory.md R41, 42 R128), tapes stay within their data (42 R132). No step changes a parameter of the machine or creates,
removes or resizes a drive (42 R128: a program cannot create or resize a drive). -/
def Obligations.StepKeepsGoodStates : Prop :=
  ∀ s t : State, s.Good → step s = .next t → t.Good ∧ t.params = s.params ∧ t.driveSizes = s.driveSizes

/-- R231 (92 D12, D31): a step of a halted CPU changes nothing, and whenever the CPU is halted there is a reason: the HALT
instruction, a fatal interrupt or a write of 0 to R. -/
def Obligations.StepKeepsHaltReasons : Prop :=
  ∀ s t : State, step s = .next t →
    (s.flags.r = false → t = s) ∧ (s.HaltedForReason → t.HaltedForReason)

/-! ### Modes -/

/-- R224, R225, R233: an instruction executed in user mode changes no control register, and if it ends in system mode with
the CPU running, PC holds a word of the interrupt vector, or the word of the call gate vector at the index of a SYSCALL. (An
entry that fails part way leads nowhere else: the CPU then stops, R249.) -/
def Obligations.UserModeReachesSystemModeOnlyThroughVectors : Prop :=
  ∀ (i : Instr) (s t : State), s.flags.sys = false → exec i s = .next t →
    SameControl s t ∧
    (t.flags.sys = true → t.flags.r = true →
      (∃ c : IntCode, s.physRead (s.intvec + intNumber c) = .ok t.pc) ∨
      ∃ (op : Operand) (n : Word), i = .syscall op ∧ s.value op = .ok n ∧ 0 ≤ n.toInt ∧ n.toInt < s.cglen.toInt ∧
        s.physRead (s.cgbr + n) = .ok t.pc)

/-- R12: SP names SYSSP in system mode and USRSP in user mode, for reads, for writes, for SETSR's view of it, and across
a change of SYS, with no copy. -/
def Obligations.SpNamesTheModesStackPointer : Prop :=
  ∀ (s : State) (v : Word) (f : Flags),
    s.reg .sp = (if s.flags.sys then s.special .sysSp else s.special .usrSp) ∧
    (s.flags.sys = true →
      s.setReg .sp v = { s with sysSp := v } ∧ (s.setSpecial .sysSp v).reg .sp = v ∧
        (s.setSpecial .usrSp v).reg .sp = s.reg .sp) ∧
    (s.flags.sys = false →
      s.setReg .sp v = { s with usrSp := v } ∧ (s.setSpecial .usrSp v).reg .sp = v ∧
        (s.setSpecial .sysSp v).reg .sp = s.reg .sp) ∧
    ({ s with flags := f } : State).reg .sp = (if f.sys then s.sysSp else s.usrSp)

/-- R16, R27: the numbers 0 to 6 name R, Z, N, ERR, SYS, IP and VM in this order and no other number names a flag; bit n of
FLAGS is the flag of number n; reading FLAGS gives the current flags and writing it sets all of them at once. -/
def Obligations.FlagsWordHoldsTheFlags : Prop :=
  (List.range 7).map (fun n => flagOfNumber (BitVec.ofNat 32 n)) =
    [some .r, some .z, some .n, some .err, some .sys, some .ip, some .vm] ∧
  (∀ k : Word, 6 < k.toNat → flagOfNumber k = none) ∧
  (∀ (n : Nat) (name : FlagName), n < 7 → flagOfNumber (BitVec.ofNat 32 n) = some name →
    (∀ f : Flags, (flagsWord f).getLsbD n = getFlag f name) ∧
    (∀ w : Word, getFlag (flagsOfWord w) name = w.getLsbD n)) ∧
  (∀ (s : State) (w : Word), s.special .flags = flagsWord s.flags ∧
    (s.setSpecial .flags w).flags = flagsOfWord w)

/-! ### Memory -/

/-- 20_memory.md R41 with the parameter PHYS_WORDS (92 D6; Log 13) and VM = 0 (R42): an access succeeds exactly below
PHYS_WORDS, a read gives the word last written, and a failure raises MEMORY with the physical address. -/
def Obligations.PhysicalAccess : Prop :=
  ∀ (s : State) (a v : Word), s.flags.vm = false →
    (a.toNat < s.params.physWords →
      s.readMem a = .ok (s.memWord a.toNat) ∧
      ∃ t, s.writeMem a v = .ok t ∧ StoredAt s t a v ∧ t.readMem a = .ok v ∧ SameRegisters s t ∧
        SameControl s t ∧ SameFlags s t ∧ SameDevices s t ∧ t.pc = s.pc) ∧
    (s.params.physWords ≤ a.toNat →
      s.readMem a = .error (.trap ⟨.memory, a, none⟩) ∧ s.writeMem a v = .error (.trap ⟨.memory, a, none⟩))

/-- R43: the three fields of a virtual address: bits 31:22, 21:11 and 10:0. -/
def Obligations.VirtualAddressFields : Prop :=
  ∀ a : Word, (dirField a).toNat = a.toNat / 2 ^ 22 ∧ (pageField a).toNat = a.toNat / 2 ^ 11 % 2 ^ 11 ∧
    (offsetField a).toNat = a.toNat % 2 ^ 11

/-- R44 to R50, R62 with VM = 1. The first read of the walk is at PDBR's bits 31:10 plus the page table number, the second at
the directory entry's bits 31:11 plus the page number; a read that fails raises MEMORY with its own physical address (R62).
PAGEFAULT for a zero directory entry, PAGEFAULT for a table entry with bit 0 clear, PAGEPRIV for bit 1 set in user mode, in
that order, and then no access occurs (R50, R212); else the physical address is the entry's bits 31:11 with the offset. In
system mode the System bit has no effect (R50). -/
def Obligations.TranslationWalk : Prop :=
  ∀ (s : State) (a v pos : Word), s.flags.vm = true →
    pos = BitVec.ofNat 32 (s.pdbr.toNat / 1024 * 1024 + a.toNat / 2 ^ 22) →
    (s.params.physWords ≤ pos.toNat → s.readMem a = .error (.trap ⟨.memory, pos, none⟩) ∧
      s.writeMem a v = .error (.trap ⟨.memory, pos, none⟩)) ∧
    ∀ pde : Word, s.physRead pos = .ok pde →
      (pde = 0 → s.readMem a = .error (.trap ⟨.pagefault, a, none⟩) ∧
        s.writeMem a v = .error (.trap ⟨.pagefault, a, none⟩)) ∧
      (pde ≠ 0 → ∀ ptPos : Word,
        ptPos = BitVec.ofNat 32 (pde.toNat / 2048 * 2048 + a.toNat / 2 ^ 11 % 2 ^ 11) →
        (s.params.physWords ≤ ptPos.toNat → s.readMem a = .error (.trap ⟨.memory, ptPos, none⟩) ∧
          s.writeMem a v = .error (.trap ⟨.memory, ptPos, none⟩)) ∧
        ∀ pte : Word, s.physRead ptPos = .ok pte →
          (pte.getLsbD 0 = false → s.readMem a = .error (.trap ⟨.pagefault, a, none⟩) ∧
            s.writeMem a v = .error (.trap ⟨.pagefault, a, none⟩)) ∧
          (pte.getLsbD 0 = true → pte.getLsbD 1 = true → s.flags.sys = false →
            s.readMem a = .error (.trap ⟨.pagepriv, a, none⟩) ∧
              s.writeMem a v = .error (.trap ⟨.pagepriv, a, none⟩)) ∧
          (pte.getLsbD 0 = true → (pte.getLsbD 1 = false ∨ s.flags.sys = true) →
            s.translate a = .ok (BitVec.ofNat 32 (pte.toNat / 2048 * 2048 + a.toNat % 2048)) ∧
            s.readMem a = s.physRead (BitVec.ofNat 32 (pte.toNat / 2048 * 2048 + a.toNat % 2048)) ∧
            s.writeMem a v = s.physWrite (BitVec.ofNat 32 (pte.toNat / 2048 * 2048 + a.toNat % 2048)) v))

/-! ### Operands and general instructions -/

/-- R190: the value of every operand form that does not name PC: a constant is its own value, a register its content,
a bracketed form the memory word at the register's content, at that plus the number, or at the constant; its place is the
register, or the memory address, and a constant has none. That R0 in brackets is as every other register is the model's
choice (10 R11; Log 67). -/
def Obligations.OperandValues : Prop :=
  ∀ (s : State) (c k : Word) (m : Reg),
    s.value (.num c) = .ok c ∧ s.place (.num c) = .ok .unwritable ∧
    s.value (.abs c) = s.readMem c ∧ s.place (.abs c) = .ok (.mem c) ∧
    (m ≠ .pc → s.value (.reg m) = .ok (s.reg m) ∧ s.place (.reg m) = .ok (.reg m) ∧
      s.value (.ind m) = s.readMem (s.reg m) ∧ s.place (.ind m) = .ok (.mem (s.reg m)) ∧
      s.value (.indOff m k) = s.readMem (s.reg m + k) ∧ s.place (.indOff m k) = .ok (.mem (s.reg m + k)))

/-- The MODEL's choice (Log 50; 93 "PC named as a register operand"): an instruction that names PC as its register, or in
its operand, is refused where nothing stops it earlier. -/
def Obligations.PcAsOperandIsRefused : Prop :=
  ∀ (s : State) (m : Reg) (k c : Word) (op : Operand),
    (op = .reg .pc ∨ op = .ind .pc ∨ op = .indOff .pc k →
      s.value op = .error (.refuse .pcAsOperand) ∧
      (m ≠ .pc → exec (.load m op) s = .refused .pcAsOperand ∧ exec (.store m op) s = .refused .pcAsOperand ∧
        exec (.comp m op) s = .refused .pcAsOperand) ∧
      exec (.push op) s = .refused .pcAsOperand ∧ exec (.compz op) s = .refused .pcAsOperand ∧
      exec (.inc op) s = .refused .pcAsOperand ∧ exec (.syscall op) s = .refused .pcAsOperand ∧
      (∀ t, s.push (s.pc + 1) = .ok t → exec (.call op) s = .refused .pcAsOperand) ∧
      (s.flags.err = true → exec (.jcond .err op) s = .refused .pcAsOperand) ∧
      (s.flags.sys = true → m ≠ .pc →
        exec (.flagsj m op) s = .refused .pcAsOperand ∧ exec (.peri m op) s = .refused .pcAsOperand)) ∧
    exec (.load .pc op) s = .refused .pcAsOperand ∧ exec (.store .pc op) s = .refused .pcAsOperand ∧
    exec (.comp .pc op) s = .refused .pcAsOperand ∧
    (∀ r : SReg, sregOfNumber s.params k = some r → exec (.getsr .pc k) s = .refused .pcAsOperand ∧
      (s.flags.sys = true → exec (.setsr .pc k) s = .refused .pcAsOperand)) ∧
    (k.toNat < 7 → exec (.getfl .pc k) s = .refused .pcAsOperand ∧
      (s.flags.sys = true → exec (.setfl .pc k) s = .refused .pcAsOperand)) ∧
    (c.toNat < 32 → exec (.sbit .pc (.num c)) s = .refused .pcAsOperand ∧
      exec (.cbit .pc (.num c)) s = .refused .pcAsOperand) ∧
    (s.flags.sys = true → exec (.flagsj .pc op) s = .refused .pcAsOperand ∧
      exec (.peri .pc op) s = .refused .pcAsOperand)

/-- R228: a memory operand that cannot be read, or a store that cannot be done, raises its interrupt at the state before the
instruction: none of the instruction's own writes happens, the SP of a PUSH or CALL included. R182 (92 D16): so does any of
the twenty-one reads of an IRET, all or nothing. That COMP, COMPZ, SYSCALL, JCOND, FLAGSJ and PERI have memory operands at all
is the model's choice (Log 63). -/
def Obligations.FailedAccessRaisesItsInterrupt : Prop :=
  ∀ (s : State) (m : Reg) (op : Operand) (q : Trap), m ≠ .pc →
    (s.value op = .error (.trap q) →
      exec (.load m op) s = .next (s.raise q) ∧ exec (.push op) s = .next (s.raise q) ∧
      exec (.comp m op) s = .next (s.raise q) ∧ exec (.compz op) s = .next (s.raise q) ∧
      exec (.inc op) s = .next (s.raise q) ∧ exec (.syscall op) s = .next (s.raise q) ∧
      (s.flags.err = true → exec (.jcond .err op) s = .next (s.raise q)) ∧
      (s.flags.sys = true → exec (.flagsj m op) s = .next (s.raise q) ∧ exec (.peri m op) s = .next (s.raise q))) ∧
    (∀ t, s.push (s.pc + 1) = .ok t → t.value op = .error (.trap q) → exec (.call op) s = .next (s.raise q)) ∧
    (∀ a : Word, s.place op = .ok (.mem a) → s.writeMem a (s.reg m) = .error (.trap q) →
      exec (.store m op) s = .next (s.raise q)) ∧
    (∀ v : Word, s.value op = .ok v → s.writeMem (s.sp - 1) v = .error (.trap q) →
      exec (.push op) s = .next (s.raise q)) ∧
    (s.writeMem (s.sp - 1) (s.pc + 1) = .error (.trap q) → exec (.call op) s = .next (s.raise q)) ∧
    (s.readMem s.sp = .error (.trap q) → exec .ret s = .next (s.raise q)) ∧
    (s.flags.sys = true → s.translate s.sp = .error (.trap q) → exec .iret s = .next (s.raise q)) ∧
    (∀ top : Word, s.flags.sys = true → s.translate s.sp = .ok top → top.toNat ∉ s.gateFrames →
      (s.readAll (wordRange s.sp 8) = .error (.trap q) → exec .iret s = .next (s.raise q)) ∧
      ∀ low : List Word, s.readAll (wordRange s.sp 8) = .ok low →
        s.readAll (wordRange (low.getD 7 0) 13) = .error (.trap q) → exec .iret s = .next (s.raise q))

/-- LOAD (R190; 92 D38, D41): the operand's value goes to the register, in every form, and nothing else changes. -/
def Obligations.LoadPutsTheOperandValueInTheRegister : Prop :=
  ∀ (s : State) (rd : Reg) (op : Operand) (v : Word), rd ≠ .pc → s.value op = .ok v →
    ∃ t, exec (.load rd op) s = .next t ∧ WroteRegister s t rd v

/-- STORE (R191; 92 D38, D41). To memory: the register's content goes to the word the operand's place translates to; every
other word, every register and every flag is unchanged. With a register as its place ("not shown in the source"; 92 D38) the
register is copied. That STORE's own register may be SP or FP is the model's choice (Log 50). -/
def Obligations.StoreWritesTheAddressedWord : Prop :=
  (∀ (s : State) (rs : Reg) (op : Operand) (a pa : Word),
    rs ≠ .pc → s.place op = .ok (.mem a) → s.translate a = .ok pa → pa.toNat < s.params.physWords →
    ∃ t, exec (.store rs op) s = .next t ∧ StoredAt s t pa (s.reg rs) ∧ t.pc = s.pc + 1 ∧ SameRegisters s t ∧
      SameFlags s t ∧ SameControl s t ∧ SameDevices s t) ∧
  ∀ (s : State) (rs rd : Reg), rs ≠ .pc → rd ≠ .pc →
    ∃ t, exec (.store rs (.reg rd)) s = .next t ∧ WroteRegister s t rd (s.reg rs)

/-- R207: an instruction that must write its operand (STORE, INC) raises UNWROP, with its own address, when the operand
is a constant. -/
def Obligations.UnwritableOperandRaisesUnwrop : Prop :=
  ∀ (s : State) (rs : Reg) (c : Word),
    (rs ≠ .pc → exec (.store rs (.num c)) s = .next (s.raise ⟨.unwrop, s.pc, none⟩)) ∧
      exec (.inc (.num c)) s = .next (s.raise ⟨.unwrop, s.pc, none⟩)

/-- PUSH (R192; 92 D9, D38, D41): SP is reduced by 1 and the operand's value, read before that, is stored at the new
SP. -/
def Obligations.PushStoresBelowSp : Prop :=
  ∀ (s : State) (op : Operand) (v pa : Word),
    s.value op = .ok v → s.translate (s.sp - 1) = .ok pa → pa.toNat < s.params.physWords →
    ∃ t, exec (.push op) s = .next t ∧ StoredAt s t pa v ∧ MovedSp s t (s.sp - 1) ∧ t.pc = s.pc + 1 ∧
      SameFlags s t ∧ SameControl s t ∧ SameDevices s t

/-- CALL (R193; 92 D38, D41): the return address is stored below SP, then PC takes the operand's value. RET (R194; 92 D38,
D41): PC takes the word SP points at, SP grows by 1. -/
def Obligations.CallPushesAndRetPopsThePc : Prop :=
  (∀ (s : State) (op : Operand) (pa a : Word),
    s.translate (s.sp - 1) = .ok pa → pa.toNat < s.params.physWords →
    ((s.putWord pa.toNat (s.pc + 1)).setSp (s.sp - 1)).value op = .ok a →
    ∃ t, exec (.call op) s = .next t ∧ t.pc = a ∧ StoredAt s t pa (s.pc + 1) ∧ MovedSp s t (s.sp - 1) ∧
      SameFlags s t ∧ SameControl s t ∧ SameDevices s t) ∧
  ∀ (s : State) (a : Word), s.readMem s.sp = .ok a →
    ∃ t, exec .ret s = .next t ∧ t.pc = a ∧ MovedSp s t (s.sp + 1) ∧ SameMemory s t ∧ SameFlags s t ∧
      SameControl s t ∧ SameDevices s t

/-- INC (R195; 92 D38): the operand's place takes its value + 1, for a register and for a memory word; Z and N are open
(92 D41), every other flag is unchanged. -/
def Obligations.IncAddsOneToItsOperand : Prop :=
  (∀ (s : State) (m : Reg), m ≠ .pc →
    ∃ t, exec (.inc (.reg m)) s = .next t ∧ t.reg m = s.reg m + 1 ∧ t.pc = s.pc + 1 ∧
      (∀ m' : Reg, m' ≠ m → m' ≠ .pc → t.reg m' = s.reg m') ∧ t.otherStack = s.otherStack ∧
      { t.flags with z := s.flags.z, n := s.flags.n } = s.flags ∧ t.stopReason = s.stopReason ∧
      SameControl s t ∧ SameMemory s t ∧ SameDevices s t) ∧
  (∀ (s : State) (op : Operand) (a pa v : Word),
    s.place op = .ok (.mem a) → s.value op = .ok v → s.translate a = .ok pa →
    pa.toNat < s.params.physWords →
    ∃ t, exec (.inc op) s = .next t ∧ StoredAt s t pa (v + 1) ∧ t.pc = s.pc + 1 ∧ SameRegisters s t ∧
      { t.flags with z := s.flags.z, n := s.flags.n } = s.flags ∧ t.stopReason = s.stopReason ∧
      SameControl s t ∧ SameDevices s t)

/-! ### Special registers and flags -/

/-- GETSR (R90): in either mode the special register a number names goes to the register; numbers 0 to 8 name the
registers in the order of R15. GETFL (R92): in either mode the register takes 1 if the named flag is set and 0 if not. Nothing
else changes. Whether the register may be SP or FP is not in the source (R90); that it may is the model's choice (DESIGN
CHOICE, Log 50). -/
def Obligations.GetsrAndGetflReadWhatIsNamed : Prop :=
  (∀ (s : State) (rd : Reg) (k : Word) (r : SReg), rd ≠ .pc → sregOfNumber s.params k = some r →
    ∃ t, exec (.getsr rd k) s = .next t ∧ WroteRegister s t rd (s.special r)) ∧
  (∀ p : Params, (List.range 9).map (fun k => sregOfNumber p (BitVec.ofNat 32 k)) =
    [some .flags, some .pdbr, some .intvec, some .cgbr, some .cglen, some .debug, some .timer, some .sysSp,
     some .sysFp]) ∧
  ∀ (s : State) (rd : Reg) (f : Word) (name : FlagName), rd ≠ .pc → flagOfNumber f = some name →
    ∃ t, exec (.getfl rd f) s = .next t ∧ WroteRegister s t rd (if getFlag s.flags name then 1 else 0)

/-- SETSR (R91) in system mode: the named special register takes the register's content (FLAGS its low seven bits, 92
D5), every other special register, R0 to R12, memory and the devices are unchanged. That Rn may be SP or FP is the model's
choice (Log 50). -/
def Obligations.SetsrWritesTheNamedRegister : Prop :=
  ∀ (s : State) (rs : Reg) (k : Word) (r : SReg),
    s.flags.sys = true → rs ≠ .pc → sregOfNumber s.params k = some r →
    ∃ t, exec (.setsr rs k) s = .next t ∧
      t.special r = (if r = .flags then s.reg rs &&& 0x7F else s.reg rs) ∧
      (∀ r' : SReg, r' ≠ r → t.special r' = s.special r') ∧ t.gpr = s.gpr ∧ t.pc = s.pc + 1 ∧
      (t.flags.r = true → t.stopReason = s.stopReason) ∧ SameMemory s t ∧ SameDevices s t

/-- SETFL (R93): in system mode any flag, in user mode Z, N and ERR, takes "register not 0"; every other flag, every
register and memory are unchanged. That Rn may be SP or FP is the model's choice (Log 50). -/
def Obligations.SetflWritesTheNamedFlag : Prop :=
  ∀ (s : State) (rs : Reg) (f : Word) (name : FlagName),
    rs ≠ .pc → flagOfNumber f = some name →
    (s.flags.sys = true ∨ name = .z ∨ name = .n ∨ name = .err) →
    ∃ t, exec (.setfl rs f) s = .next t ∧ getFlag t.flags name = decide (s.reg rs ≠ 0) ∧
      (∀ name' : FlagName, name' ≠ name → getFlag t.flags name' = getFlag s.flags name') ∧
      WroteFlags s t t.flags

/-- FLAGSJ (R94) in system mode: all flags from the register, PC from the operand, whose value is computed before the
flags change. Whether the operand may be a memory form is not in the source (R94); that it may is the model's choice (DESIGN
CHOICE, Log 63), and so is that Rn may be SP or FP (Log 50). -/
def Obligations.FlagsjSetsFlagsAndPc : Prop :=
  ∀ (s : State) (rs : Reg) (op : Operand) (a : Word),
    s.flags.sys = true → rs ≠ .pc → s.value op = .ok a →
    ∃ t, exec (.flagsj rs op) s = .next t ∧ t.flags = flagsOfWord (s.reg rs) ∧ t.pc = a ∧
      (t.flags.r = true → t.stopReason = s.stopReason) ∧ SameRegisters s t ∧ SameControl s t ∧
      SameMemory s t ∧ SameDevices s t

/-- COMP (R95; 92 D29): Z is equality; N is the sign of the difference of the signed values wherever that difference fits
a word, and open elsewhere. COMPZ (R96; 92 D29): Z says the value is 0, N that it is negative. Neither changes another flag
or a register. The model's choices (DESIGN CHOICE): every operand form is admitted (Log 63), and SP and FP as Rn (Log 50). -/
def Obligations.CompAndCompzCompareSignedValues : Prop :=
  (∀ (s : State) (rn : Reg) (op : Operand) (b : Word), rn ≠ .pc → s.value op = .ok b →
    ∃ t, exec (.comp rn op) s = .next t ∧ t.flags.z = decide (s.reg rn = b) ∧
      (-2 ^ 31 ≤ (s.reg rn).toInt - b.toInt → (s.reg rn).toInt - b.toInt < 2 ^ 31 →
        t.flags.n = decide ((s.reg rn).toInt < b.toInt)) ∧
      WroteFlags s t { s.flags with z := t.flags.z, n := t.flags.n }) ∧
  ∀ (s : State) (op : Operand) (v : Word), s.value op = .ok v →
    ∃ t, exec (.compz op) s = .next t ∧ WroteFlags s t { s.flags with z := decide (v = 0), n := v.getLsbD 31 }

/-- JCOND (R97): with ERR set PC takes the operand's value, with ERR clear it goes on; every condition other than ERR
is refused. That the operand may have every form of R190 is the model's choice (DESIGN CHOICE, Log 63). -/
def Obligations.JcondJumpsOnErr : Prop :=
  ∀ (s : State) (op : Operand),
    (s.flags.err = true → ∀ a : Word, s.value op = .ok a →
      exec (.jcond .err op) s = .next { s with pc := a }) ∧
    (s.flags.err = false → exec (.jcond .err op) s = .next { s with pc := s.pc + 1 }) ∧
    ∀ c : BitVec 4, exec (.jcond (.unlisted c) op) s = .refused .unlistedCondition

/-! ### Bits -/

/-- SBIT and CBIT (R117, R118): bit b of the register becomes 1, or 0; all other bits are unchanged, and so is everything
else. That the register may be SP or FP is the model's choice (Log 50). -/
def Obligations.SbitAndCbitWriteOneBit : Prop :=
  ∀ (s : State) (rd : Reg) (b : Word), rd ≠ .pc → b.toNat < 32 →
    (∃ t v, exec (.sbit rd (.num b)) s = .next t ∧ WroteRegister s t rd v ∧
      ∀ j : Nat, j < 32 → v.getLsbD j = (decide (j = b.toNat) || (s.reg rd).getLsbD j)) ∧
    (∃ t v, exec (.cbit rd (.num b)) s = .next t ∧ WroteRegister s t rd v ∧
      ∀ j : Nat, j < 32 → v.getLsbD j = (!decide (j = b.toNat) && (s.reg rd).getLsbD j))

/-- R111, R112 with R110's descriptor fields: Extract gives the range's bits right-justified with zeros above them; Deposit
replaces them by the low bits of the value and leaves the other bits of the word. R115, R116: on a vector of words both act on
the word that lies as many words after the vector's start as the descriptor's bits 31:10 say; a deposit writes that word and
nothing else, and a failing access is theirs. A range that leaves the word has no value (92 D30). -/
def Obligations.ExtractAndDepositActOnTheRange : Prop :=
  ∀ (w d x : Word) (len pos : Nat),
    len = (if d.toNat % 32 = 0 then 32 else d.toNat % 32) → pos = d.toNat / 32 % 32 →
    (pos + len ≤ 32 →
      (∃ v, extractRange w d = some v ∧
        ∀ j : Nat, v.getLsbD j = (decide (j < len) && w.getLsbD (pos + j))) ∧
      ∃ v, depositRange w d x = some v ∧
        ∀ j : Nat, j < 32 → v.getLsbD j =
          if pos ≤ j ∧ j < pos + len then x.getLsbD (j - pos) else w.getLsbD j) ∧
    (32 < pos + len → extractRange w d = none ∧ depositRange w d x = none) ∧
    ∀ (s : State) (a at_ pa : Word), at_ = a + BitVec.ofNat 32 (d.toNat / 1024) →
      (∀ e, s.readMem at_ = .error e → s.extractFromVector a d = .error e ∧ s.depositIntoVector a d x = .error e) ∧
      (s.translate at_ = .ok pa → s.physRead pa = .ok w →
        s.extractFromVector a d = .ok (extractRange w d) ∧
        (32 < pos + len → s.depositIntoVector a d x = .ok none) ∧
        ∀ v, depositRange w d x = some v → ∃ t, s.depositIntoVector a d x = .ok (some t) ∧ StoredAt s t pa v ∧
          SameRegisters s t ∧ SameFlags s t ∧ SameControl s t ∧ SameDevices s t ∧ t.pc = s.pc)

/-- R113 to R116: EXBR, DPBR, EXBRV and DPBRV are refused, since their operand roles are not in the source; R183 to R185
(92 D37): PHLOAD, PHSTORE and CLRPP are refused in system mode, since their effect is not in the source. 92 D28, R117, R118: a
number that names no special register or no flag, a bit number above 31 and a bit number not given by a number are refused. -/
def Obligations.FormsTheSourceDoesNotDefineAreRefused : Prop :=
  ∀ (s : State) (b : BitVec 27) (m m' : Reg) (k : Word),
    exec (.exbr b) s = .refused .bitRangeOperandRoles ∧ exec (.dpbr b) s = .refused .bitRangeOperandRoles ∧
    exec (.exbrv b) s = .refused .bitRangeOperandRoles ∧ exec (.dpbrv b) s = .refused .bitRangeOperandRoles ∧
    (s.flags.sys = true →
      exec (.phload b) s = .refused .effectNotInSource ∧ exec (.phstore b) s = .refused .effectNotInSource ∧
        exec (.clrpp b) s = .refused .effectNotInSource) ∧
    (sregOfNumber s.params k = none → exec (.getsr m k) s = .refused .specialRegisterNumber ∧
      (s.flags.sys = true → exec (.setsr m k) s = .refused .specialRegisterNumber)) ∧
    (6 < k.toNat → exec (.getfl m k) s = .refused .flagNumber ∧ exec (.setfl m k) s = .refused .flagNumber) ∧
    (31 < k.toNat → exec (.sbit m (.num k)) s = .refused .bitNumber ∧
      exec (.cbit m (.num k)) s = .refused .bitNumber) ∧
    ∀ op : Operand, (op = .reg m' ∨ op = .ind m' ∨ op = .indOff m' k ∨ op = .abs k) →
      exec (.sbit m op) s = .refused .bitNumber ∧ exec (.cbit m op) s = .refused .bitNumber

/-! ### Privilege and system instructions -/

/-- R209: in user mode SETSR, PERI, IRET, PHLOAD, PHSTORE, FLAGSJ and CLRPP, and a SETFL that names R, SYS, IP or VM, raise
PRIVOP with the address of the instruction and do nothing else. -/
def Obligations.PrivilegedOperationRaisesPrivop : Prop :=
  ∀ (s : State) (m : Reg) (k : Word) (op : Operand) (b : BitVec 27) (i : Instr), s.flags.sys = false →
    (i ∈ [Instr.setsr m k, .peri m op, .iret, .phload b, .phstore b, .flagsj m op, .clrpp b] ∨
      (i = .setfl m k ∧ (k = 0 ∨ k = 4 ∨ k = 5 ∨ k = 6))) →
    exec i s = .next (s.raise ⟨.privop, s.pc, none⟩)

/-- R205: HALT in user mode raises the HALT interrupt with the address of the instruction; in system mode it halts the
CPU and raises nothing (PC goes on, 92 D21). -/
def Obligations.HaltByMode : Prop :=
  ∀ s : State,
    (s.flags.sys = false → exec .halt s = .next (s.raise ⟨.halt, s.pc, none⟩)) ∧
    (s.flags.sys = true → ∃ t, exec .halt s = .next t ∧ t.flags = { s.flags with r := false } ∧
      t.stopReason = some .haltInstruction ∧ t.pc = s.pc + 1 ∧ SameRegisters s t ∧ SameControl s t ∧
      SameMemory s t ∧ SameDevices s t)

/-- R211: SYSCALL with an index below 0 or not below CGLEN raises BADCALL with the address of the instruction and the
operand as information. That the operand may have every form of R190 is the model's choice (DESIGN CHOICE, Log 63). -/
def Obligations.BadIndexRaisesBadcall : Prop :=
  ∀ (s : State) (op : Operand) (i : Word), s.value op = .ok i →
    (i.toInt < 0 ∨ s.cglen.toInt ≤ i.toInt) →
    exec (.syscall op) s = .next (s.raise ⟨.badcall, s.pc, some i⟩)

/-- SYSCALL (R181; 92 D8, D17): with the 18 words of the frame in physical memory and VM off, SYS and IP are turned on, the
frame is pushed on the system stack, PC takes the gate's entry; USRSP, USRFP and R0 to R12 are unchanged. An IRET right after
it, and a zero gate entry, are refused. The model's choices (DESIGN CHOICE): no main register is written (R181: whether one is, is
not in the source; Log 66), and the operand may have every form of R190 (Log 63). -/
def Obligations.SyscallEntersTheGate : Prop :=
  ∀ (s : State) (op : Operand) (i entry : Word), s.value op = .ok i → 0 ≤ i.toInt → i.toInt < s.cglen.toInt →
    s.physRead (s.cgbr + i) = .ok entry →
    (entry = 0 → exec (.syscall op) s = .refused .zeroCallGate) ∧
    (entry ≠ 0 → s.flags.vm = false → 18 ≤ s.sysSp.toNat → s.sysSp.toNat ≤ s.params.physWords →
      ∃ t, exec (.syscall op) s = .next t ∧ t.pc = entry ∧ t.flags = { s.flags with sys := true, ip := true } ∧
        t.stopReason = s.stopReason ∧ t.sysSp = s.sysSp - 18 ∧ t.sysFp = s.sysFp ∧ t.usrSp = s.usrSp ∧
        t.usrFp = s.usrFp ∧ t.gpr = s.gpr ∧ SameControl s t ∧ SameDevices s t ∧
        FrameBelow s t s.sysSp
          (s.gpr.toList ++ [s.sysSp - 13, s.sysFp, s.pc + 1, flagsWord s.flags, 40]) ∧
        exec .iret t = .refused .returnFromGateFrame)

/-- IRET (R182; 92 D16): in system mode, on words that can be read and are no SYSCALL frame, the eight words from SP give
oldflags, PC, FP and SP, and the thirteen from the popped SP give R12 down to R0. -/
def Obligations.IretRestoresWhatTheFrameHolds : Prop :=
  ∀ (s : State) (top : Word) (low high : List Word), s.flags.sys = true →
    s.translate s.sp = .ok top → top.toNat ∉ s.gateFrames →
    s.readAll (wordRange s.sp 8) = .ok low → s.readAll (wordRange (low.getD 7 0) 13) = .ok high →
    ∃ t, exec .iret s = .next t ∧ t.flags = flagsOfWord (low.getD 1 0) ∧ t.pc = low.getD 5 0 ∧
      t.sysFp = low.getD 6 0 ∧ t.sysSp = low.getD 7 0 + 13 ∧ (∀ n : Fin 13, t.gpr[n] = high.getD (12 - n) 0) ∧
      t.usrSp = s.usrSp ∧ t.usrFp = s.usrFp ∧ (t.flags.r = true → t.stopReason = s.stopReason) ∧
      SameControl s t ∧ SameMemory s t ∧ SameDevices s t

/-- R220, R182: an interrupt that is delivered and returned from with its frame unmodified leaves R0 to R12, SP, FP, PC and
the flags of the interrupted program as they were (VM off, the 21 words in physical memory). It rests on the decisions 92 D8
(the saved PC is the instruction's own address), D9 (PUSH SP pushes the old SP) and D16 (IRET inverts the entry). -/
def Obligations.IretUndoesInterruptEntry : Prop :=
  ∀ (s : State) (q : Trap) (h : Word), s.flags.ip = false → s.flags.r = true → s.flags.vm = false →
    s.physRead (s.intvec + intNumber q.code) = .ok h → h ≠ 0 → 21 ≤ s.sysSp.toNat →
    s.sysSp.toNat ≤ s.params.physWords →
    ∃ t, exec .iret (s.raise q) = .next t ∧ t.gpr = s.gpr ∧ t.flags = s.flags ∧ t.pc = s.pc ∧
      SameRegisters s t ∧ t.stopReason = s.stopReason ∧ SameControl s t ∧ SameDevices s t

/-! ### Interrupts -/

/-- R217, R218 (92 D8, D9): an interrupt raised with IP = 0 and a handler in the vector, VM off and the 21 words in physical
memory: SYS and IP on, PC at the handler, SYSSP less 21, the frame on the system stack, all else unchanged. -/
def Obligations.InterruptEntryPushesTheFrame : Prop :=
  ∀ (s : State) (q : Trap) (h : Word), s.flags.ip = false → s.flags.vm = false →
    s.physRead (s.intvec + intNumber q.code) = .ok h → h ≠ 0 → 21 ≤ s.sysSp.toNat →
    s.sysSp.toNat ≤ s.params.physWords →
    ∃ (t : State) (info : Word), s.raise q = t ∧ (∀ x, q.info = some x → info = x) ∧ t.pc = h ∧
      t.flags = { s.flags with sys := true, ip := true } ∧ t.stopReason = s.stopReason ∧
      t.sysSp = s.sysSp - 21 ∧ t.sysFp = s.sysFp ∧ t.usrSp = s.usrSp ∧ t.usrFp = s.usrFp ∧ t.gpr = s.gpr ∧
      SameControl s t ∧ SameDevices s t ∧
      FrameBelow s t s.sysSp
        (s.gpr.toList ++
          [s.sysSp - 13, s.sysFp, s.pc, info, q.address, intNumber q.code, flagsWord s.flags, 40])

/-- R217 with translation on or off: an entry all of whose pushes are done turns SYS and IP on, sets PC to the entry
point, lowers SYSSP by the length of the frame, and leaves R0 to R12, FP, the user's stack registers, the control
registers and the devices alone. -/
def Obligations.CompletedEntryChangesOnlyTheSystemStack : Prop :=
  ∀ (s : State) (frame : List Word) (entry : Word), (s.enterFrame frame entry).complete = true →
    ∃ t, (s.enterFrame frame entry).state = t ∧ t.pc = entry ∧
      t.flags = { s.flags with sys := true, ip := true } ∧ t.stopReason = s.stopReason ∧
      t.sysSp = s.sysSp - BitVec.ofNat 32 frame.length ∧ t.sysFp = s.sysFp ∧ t.usrSp = s.usrSp ∧
      t.usrFp = s.usrFp ∧ t.gpr = s.gpr ∧ SameControl s t ∧ SameDevices s t ∧
      ∀ a : Nat, a ∉ (s.enterFrame frame entry).touched → t.memWord a = s.memWord a

/-- R200: the numbers 0 to 13 of the fourteen interrupts. R201 (92 D11): TIMER and KEYBD are notifications, DEBUG's class is
the parameter DEBUG_FATAL, every other interrupt that is raised is fatal. R215 (92 D12, D13): a fatal interrupt with IP = 1,
or with a zero vector entry, stops the CPU with its code as the reason, everything else as before the instruction; a
notification is ignored. -/
def Obligations.UnhandledInterruptStopsOrIsIgnored : Prop :=
  [IntCode.none, .memory, .pagefault, .unimpop, .halt, .divzero, .unwrop, .timer, .privop, .keybd, .badcall, .pagepriv,
    .debug, .intrfault].map intNumber = (List.range 14).map (BitVec.ofNat 32) ∧
  (∀ p : Params, isFatal p .timer = false ∧ isFatal p .keybd = false ∧ isFatal p .debug = p.debugFatal ∧
    ∀ c : IntCode, c ≠ .none → c ≠ .timer → c ≠ .keybd → c ≠ .debug → isFatal p c = true) ∧
  ∀ (s : State) (q : Request),
    (s.flags.ip = true ∨ s.physRead (s.intvec + intNumber q.code) = .ok 0) →
    (isFatal s.params q.code = true →
      ∃ t, s.deliver q = .stopped t ∧ t.flags = { s.flags with r := false } ∧
        t.stopReason = some (.fatalInterrupt q.code) ∧ t.pc = s.pc ∧ SameRegisters s t ∧ SameControl s t ∧
        SameMemory s t ∧ SameDevices s t) ∧
    (isFatal s.params q.code = false → s.deliver q = .ignored)

/-- R214, R249 (92 D14, D15). With IP = 0 and a vector entry that cannot be read, INTRFAULT's handler is entered (VM off,
room for the frame) with the original address and saved PC and, as information, the original code; the frame's oldflags and
saved SP are open. If entry 13 cannot be read either, or is zero, the CPU stops with reason INTRFAULT, everything else as
before the instruction. A push of the entry that fails stops it too, since INTRFAULT's own entry then fails the same way
(R249): R0 to R12, FP, PC, the user's stack registers and every word outside those already pushed are those of the interrupted
program. With VM off and no memory below SYSSP the first push fails. -/
def Obligations.FailedDeliveryRaisesIntrfault : Prop :=
  (∀ (s : State) (q : Request) (h : Word), s.flags.ip = false → s.flags.vm = false →
    s.params.physWords ≤ (s.intvec + intNumber q.code).toNat → s.physRead (s.intvec + 13) = .ok h → h ≠ 0 →
    21 ≤ s.sysSp.toNat → s.sysSp.toNat ≤ s.params.physWords →
    ∃ (t : State) (sp f : Word), s.deliver q = .entered t ∧ t.pc = h ∧ f.toNat < 128 ∧
      t.flags = { s.flags with sys := true, ip := true } ∧ t.stopReason = s.stopReason ∧
      t.sysSp = s.sysSp - 21 ∧ t.sysFp = s.sysFp ∧ t.usrSp = s.usrSp ∧ t.usrFp = s.usrFp ∧ t.gpr = s.gpr ∧
      SameControl s t ∧ SameDevices s t ∧
      FrameBelow s t s.sysSp
        (s.gpr.toList ++ [sp, s.sysFp, q.savedPc, intNumber q.code, q.address, 13, f, 40])) ∧
  (∀ (s : State) (q : Request), s.flags.ip = false →
    s.params.physWords ≤ (s.intvec + intNumber q.code).toNat →
    (s.params.physWords ≤ (s.intvec + 13).toNat ∨ s.physRead (s.intvec + 13) = .ok 0) →
    ∃ t, s.deliver q = .stopped t ∧ t.flags = { s.flags with r := false } ∧
      t.stopReason = some (.fatalInterrupt .intrfault) ∧ t.pc = s.pc ∧ SameRegisters s t ∧ SameControl s t ∧
      SameMemory s t ∧ SameDevices s t) ∧
  (∀ (s : State) (q : Request) (h : Word) (entry : PushRun), s.flags.ip = false →
    s.physRead (s.intvec + intNumber q.code) = .ok h → h ≠ 0 →
    entry = s.enterFrame (s.interruptFrame q (flagsWord s.flags) (s.sysSp - 13)) h → entry.complete = false →
    ∃ t, s.deliver q = .stopped t ∧ t.flags.r = false ∧ t.stopReason = some (.fatalInterrupt .intrfault) ∧
      t.pc = s.pc ∧ t.gpr = s.gpr ∧ t.sysFp = s.sysFp ∧ t.usrSp = s.usrSp ∧ t.usrFp = s.usrFp ∧ SameControl s t ∧
      (∀ a : Nat, a ∉ entry.touched → t.memWord a = s.memWord a) ∧ SameDevices s t) ∧
  ∀ (s : State) (q : Request) (h : Word) (entry : PushRun), s.flags.vm = false →
    s.params.physWords ≤ (s.sysSp - 1).toNat →
    entry = s.enterFrame (s.interruptFrame q (flagsWord s.flags) (s.sysSp - 13)) h →
    entry.complete = false ∧ entry.touched = []

/-- R226 (92 D18; Log 27 for a CPU that the instruction halted): the TIMER point. A TIMER of 0 stays 0 and signals nothing;
else it is reduced by 1, and when that makes it 0 the TIMER interrupt is signalled, which is lost with IP = 1. -/
def Obligations.TimerCountsAndSignalsOnce : Prop :=
  ∀ s : State,
    (s.timer = 0 → s.timerPoint = s) ∧
    (s.timer ≠ 0 → (s.timer ≠ 1 ∨ s.flags.ip = true ∨ s.flags.r = false) →
      s.timerPoint = { s with timer := s.timer - 1 }) ∧
    (s.timer = 1 → s.flags.r = true → s.flags.ip = false → s.flags.vm = false →
      ∀ h : Word, s.physRead (s.intvec + 7) = .ok h → h ≠ 0 → 21 ≤ s.sysSp.toNat →
        s.sysSp.toNat ≤ s.params.physWords →
        s.timerPoint.pc = h ∧ s.timerPoint.timer = 0 ∧ s.timerPoint.sysSp = s.sysSp - 21 ∧
          s.timerPoint.memWord (s.sysSp.toNat - 16) = s.pc ∧ s.timerPoint.memWord (s.sysSp.toNat - 19) = 7)

/-- R213 (92 D39) and R227 (92 D19): before the fetch, DEBUG is signalled when PC equals it, then KEYBD while the keyboard
buffer is not empty; both save the PC of the instruction not yet executed. With the handler in the vector, VM off and room
for the frame, the step is that entry. That DEBUG comes before KEYBD, and both before the fetch, is a choice (92 D20;
DESIGN CHOICE, Log 26). -/
def Obligations.DebugAndKeyboardComeBeforeTheFetch : Prop :=
  ∀ (s : State) (h : Word), s.flags.r = true → s.beginStep.flags.ip = false → s.beginStep.flags.vm = false →
    h ≠ 0 → 21 ≤ s.beginStep.sysSp.toNat → s.beginStep.sysSp.toNat ≤ s.beginStep.params.physWords →
    (s.beginStep.pc = s.beginStep.debug → s.beginStep.physRead (s.beginStep.intvec + 12) = .ok h →
      ∃ t, step s = .next t ∧ t.pc = h ∧ t.memWord (s.beginStep.sysSp.toNat - 19) = 12 ∧
        t.memWord (s.beginStep.sysSp.toNat - 18) = s.beginStep.pc ∧
        t.memWord (s.beginStep.sysSp.toNat - 16) = s.beginStep.pc) ∧
    (s.beginStep.pc ≠ s.beginStep.debug → s.beginStep.kbuf ≠ [] →
      s.beginStep.physRead (s.beginStep.intvec + 9) = .ok h →
      ∃ t, step s = .next t ∧ t.pc = h ∧ t.memWord (s.beginStep.sysSp.toNat - 19) = 9 ∧
        t.memWord (s.beginStep.sysSp.toNat - 16) = s.beginStep.pc ∧ t.kbuf = s.beginStep.kbuf)

/-- What the host does before a step (42 R123; the schedule is the model's, Log 49): keys go to the end of the keyboard
buffer while there is room (R150), packets of at most 1024 bytes to the end of the queue of a unit that is on (R157), and the
clock does not decrease (R162), over the whole step either; a key's code is any of 8 bits (DESIGN CHOICE, Log 70);
registers, flags, memory, discs and tapes are not the host's to change. -/
def Obligations.HostArrivalsAppendAndTheClockRuns : Prop :=
  ∀ s : State,
    (s.host.arrivals = [] → s.beginStep = { s with interrupted := false }) ∧
    (∀ (a : Arrival) (rest : List Arrival), s.host.arrivals = a :: rest →
      ((s.params.keybufCap = none ∨ ∃ cap, s.params.keybufCap = some cap ∧ s.kbuf.length + a.keys.length ≤ cap) →
        s.beginStep.kbuf = s.kbuf ++ a.keys) ∧
      (∀ i : Fin 2, s.beginStep.nets[i] = (s.nets[i]).map (fun u =>
        { u with inq := u.inq ++
            (a.packets.filter (fun p => decide (p.1 = i ∧ p.2.data.length ≤ 1024))).map Prod.snd })) ∧
      s.beginStep.clock = s.clock + a.micros ∧ s.beginStep.host.arrivals = rest ∧ s.beginStep.pc = s.pc ∧
      SameRegisters s s.beginStep ∧ SameFlags s s.beginStep ∧ SameControl s s.beginStep ∧ SameMemory s s.beginStep ∧
      s.beginStep.screen = s.screen ∧ s.beginStep.discs = s.discs ∧ s.beginStep.tapes = s.tapes ∧
      s.beginStep.netSent = s.netSent ∧ s.beginStep.params = s.params) ∧
    ∀ t : State, step s = .next t → s.clock ≤ t.clock

/-! ### PERI -/

/-- R120, R122: a PERI whose operation ends with a result puts it in the main register, sets ERR exactly when the result is
negative, and moves on; every other flag is as the operation left it. PERI's register may be SP or FP and its operand of every
form of R190: the model's choices (Logs 50, 63). -/
def Obligations.PeriReportsResultAndErr : Prop :=
  ∀ (s u : State) (rd : Reg) (op : Operand) (c result : Word), s.flags.sys = true → rd ≠ .pc →
    s.value op = .ok c → s.periAt c = .done result u →
    ∃ t, exec (.peri rd op) s = .next t ∧ t.reg rd = result ∧
      t.flags = { u.flags with err := decide (result.toInt < 0) } ∧ t.pc = u.pc + 1 ∧
      (∀ m : Reg, m ≠ rd → m ≠ .pc → t.reg m = u.reg m) ∧ t.otherStack = u.otherStack ∧
      t.stopReason = u.stopReason ∧ SameMemory u t ∧ SameControl u t ∧ SameDevices u t

/-- R124: an operation code that is not recognised: nothing happens except that −1 goes to the register and ERR is set. PERI's
register may be SP or FP and its operand of every form of R190: the model's choices (Logs 50, 63). -/
def Obligations.UnknownOperationReportsBadCode : Prop :=
  ∀ (s : State) (rd : Reg) (op : Operand) (c w : Word), s.flags.sys = true → rd ≠ .pc → s.value op = .ok c →
    s.readMem c = .ok w → (∀ o : PeriOp, periCode s.params.periOp o ≠ w) →
    ∃ t, exec (.peri rd op) s = .next t ∧ t.reg rd = -1 ∧ t.flags = { s.flags with err := true } ∧
      t.pc = s.pc + 1 ∧ (∀ m : Reg, m ≠ rd → m ≠ .pc → t.reg m = s.reg m) ∧ t.otherStack = s.otherStack ∧
      t.stopReason = s.stopReason ∧ SameMemory s t ∧ SameControl s t ∧ SameDevices s t

/-- R125, R127: a control structure of which a word cannot be read, the first or another that the operation reads, gives −2
with ERR set, raises no interrupt and changes no memory and no device. PERI's register may be SP or FP and its operand of every
form of R190: the model's choices (Logs 50, 63). -/
def Obligations.UnreadableControlStructureReportsReadParams : Prop :=
  ∀ (s : State) (rd : Reg) (op : Operand) (c : Word), s.flags.sys = true → rd ≠ .pc → s.value op = .ok c →
    ((s.readMem c).toOption = none ∨
      ∃ o : PeriOp, PeriCall s rd op c o ∧ ∃ j : Nat, j < periInputs o ∧
        (s.readMem (c + 1 + BitVec.ofNat 32 j)).toOption = none) →
    ∃ t, exec (.peri rd op) s = .next t ∧ t.reg rd = -2 ∧ t.flags = { s.flags with err := true } ∧
      t.pc = s.pc + 1 ∧ (∀ m : Reg, m ≠ rd → m ≠ .pc → t.reg m = s.reg m) ∧ t.otherStack = s.otherStack ∧
      t.stopReason = s.stopReason ∧ SameMemory s t ∧ SameControl s t ∧ SameDevices s t

/-- $DISCCHECK (R129): −2 where the drive number cannot be read, −3 for a drive number out of 1..8, 0 for a disc that does not
exist, else its size in blocks; nothing but the main register and ERR is written. PERI's register may be SP or FP and its
operand of every form of R190: the model's choices (Logs 50, 63). -/
def Obligations.DisccheckReportsTheSize : Prop :=
  ∀ (s : State) (rd : Reg) (op : Operand) (c : Word), PeriCall s rd op c .discCheck →
    ((s.readMem (c + 1)).toOption = none → PeriEnds s rd op (-2) s) ∧
    ∀ d : Word, s.readMem (c + 1) = .ok d →
      ((d.toInt < 1 ∨ 8 < d.toInt) → PeriEnds s rd op (-3) s) ∧
      (∀ i : Fin 8, d.toNat = i + 1 →
        (s.discs[i] = none → PeriEnds s rd op 0 s) ∧
        ∀ disc, s.discs[i] = some disc → PeriEnds s rd op (BitVec.ofNat 32 disc.size) s)

/-- $DISCREAD (R130), all of its conditions met and the buffer in physical memory with VM off: the result is the block count,
every word of the blocks that has been written arrives at its place, and no other word of memory changes. PERI's register may
be SP or FP and its operand of every form of R190: the model's choices (Logs 50, 63). -/
def Obligations.DiscreadCopiesTheBlocks : Prop :=
  ∀ (s : State) (rd : Reg) (op : Operand) (c d b k m : Word) (i : Fin 8) (disc : Disc),
    PeriCall s rd op c .discRead → ControlWords s c [d, b, k, m] → d.toNat = i + 1 → s.discs[i] = some disc →
    0 < k.toInt → 0 ≤ b.toInt → b.toNat + k.toNat ≤ disc.size → PlainRange s m (128 * k.toNat) →
    ∃ u, PeriEnds s rd op k u ∧
      (∀ j : Nat, j < 128 * k.toNat → ∀ w, Memory.read disc.content (128 * b.toNat + j) = some w →
        u.memWord (m.toNat + j) = w) ∧
      (∀ a : Nat, (a < m.toNat ∨ m.toNat + 128 * k.toNat ≤ a) → u.memWord a = s.memWord a) ∧
      SameRegisters s u ∧ SameFlags s u ∧ SameControl s u ∧ SameDevices s u ∧ u.pc = s.pc

/-- $DISCWRITE (R131), all of its conditions met, the buffer in physical memory with VM off and the host's write a success: the
result is the block count, the named blocks hold the buffer's words, the drive's other words are unchanged, and memory is only
read. The host's answer is scheduled (Log 49). PERI's register may be SP or FP and its operand of every form of R190: the
model's choices (Logs 50, 63). -/
def Obligations.DiscwriteFillsTheBlocks : Prop :=
  ∀ (s : State) (rd : Reg) (op : Operand) (c d b k m : Word) (i : Fin 8) (disc : Disc) (rest : List Bool),
    PeriCall s rd op c .discWrite → ControlWords s c [d, b, k, m] → d.toNat = i + 1 → s.discs[i] = some disc →
    0 < k.toInt → 0 ≤ b.toInt → b.toNat + k.toNat ≤ disc.size → PlainRange s m (128 * k.toNat) →
    s.host.discWrites = true :: rest →
    ∃ (u : State) (disc' : Disc), PeriEnds s rd op k u ∧ u.discs = s.discs.set i (some disc') ∧
      disc'.size = disc.size ∧
      (∀ j : Nat, j < 128 * k.toNat →
        Memory.read disc'.content (128 * b.toNat + j) = some (s.memWord (m.toNat + j))) ∧
      (∀ a : Nat, (a < 128 * b.toNat ∨ 128 * (b.toNat + k.toNat) ≤ a) →
        Memory.read disc'.content a = Memory.read disc.content a) ∧
      SameMemory s u ∧ SameRegisters s u ∧ SameFlags s u ∧ SameControl s u ∧ u.pc = s.pc ∧
      u.tapes = s.tapes ∧ u.nets = s.nets ∧ u.kbuf = s.kbuf ∧ u.screen = s.screen ∧ u.params = s.params

/-- $DISCREAD and $DISCWRITE (R130, R131) with exactly one condition against them: −3 for a drive that is not available, −4 for
a block out of the drive, with nothing transferred; a block count of 0 or less is refused (N45). PERI's register may be SP or
FP and its operand of every form of R190: the model's choices (Logs 50, 63). -/
def Obligations.BadDiscRequestsMoveNothing : Prop :=
  ∀ (s : State) (rd : Reg) (op : Operand) (c d b k m : Word) (o : PeriOp), (o = .discRead ∨ o = .discWrite) →
    PeriCall s rd op c o → ControlWords s c [d, b, k, m] →
    (k.toInt ≤ 0 → exec (.peri rd op) s = .refused .blockCount) ∧
    (0 < k.toInt → PlainRange s m (128 * k.toNat) →
      (0 ≤ b.toInt → s.driveOf d = none →
        ∃ u, PeriEnds s rd op (-3) u ∧ SameMemory s u ∧ SameRegisters s u ∧ SameFlags s u ∧ SameControl s u ∧
          SameDevices s u ∧ u.pc = s.pc) ∧
      (∀ x, s.driveOf d = some x → (b.toInt < 0 ∨ x.2.size < b.toNat + k.toNat) →
        ∃ u, PeriEnds s rd op (-4) u ∧ SameMemory s u ∧ SameRegisters s u ∧ SameFlags s u ∧ SameControl s u ∧
          SameDevices s u ∧ u.pc = s.pc))

/-- $TAPECHECK, $TAPEREWIND and $TAPEUNLOAD (R133, R134, R136) on a unit number in 1..8: 0, −3 and −7 for an unloaded unit; the
mode's letter, a rewind and an unload for a loaded one. Out of 1..8 all three give −3. $TAPELOAD (R135) of an unloaded unit
with a name in memory: the file the host opens is loaded at its beginning in the mode 'R' or 'W' asked for; −7 for a file the
host does not open, −8 for another mode, −3 for a unit number out of 1..8, each where it is the only condition, and one of −7
and −8 where both are (92 D35); a loaded unit is refused (N45). The model's choices (DESIGN CHOICE): a unit 1 to 8 is never
"not available" to $TAPELOAD and $TAPEUNLOAD (Log 65), it holds the bytes as they are at the load (Log 64), and the host's
answers are scheduled (Log 49). PERI's register may be SP or FP and its operand of every form of R190: the model's choices
(Logs 50, 63). -/
def Obligations.TapeCheckLoadRewindUnload : Prop :=
  (∀ (s : State) (rd : Reg) (op : Operand) (c u : Word), ControlWords s c [u] →
    (∀ o, o ∈ [PeriOp.tapeCheck, .tapeRewind, .tapeUnload] → (u.toInt < 1 ∨ 8 < u.toInt) →
      PeriCall s rd op c o → PeriEnds s rd op (-3) s) ∧
    (∀ i : Fin 8, u.toNat = i + 1 → s.tapes[i] = none →
      (PeriCall s rd op c .tapeCheck → PeriEnds s rd op 0 s) ∧
      (PeriCall s rd op c .tapeRewind → PeriEnds s rd op (-3) s) ∧
      (PeriCall s rd op c .tapeUnload → PeriEnds s rd op (-7) s)) ∧
    (∀ (i : Fin 8) (t : Tape), u.toNat = i + 1 → s.tapes[i] = some t →
      (PeriCall s rd op c .tapeCheck → PeriEnds s rd op (if t.mode = .read then 82 else 87) s) ∧
      (PeriCall s rd op c .tapeRewind →
        PeriEnds s rd op 1 { s with tapes := s.tapes.set i (some { t with pos := 0 }) }) ∧
      (PeriCall s rd op c .tapeUnload → PeriEnds s rd op 1 { s with tapes := s.tapes.set i none }))) ∧
  ∀ (s : State) (rd : Reg) (op : Operand) (c u name mode : Word) (file : List Byte)
    (answer : Option (List Byte)) (rest : List (Option (List Byte))),
    PeriCall s rd op c .tapeLoad → ControlWords s c [u, name, mode] → StringAt s name file →
    s.host.tapeOpens = answer :: rest →
    (∀ i : Fin 8, u.toNat = i + 1 → s.tapes[i] ≠ none → exec (.peri rd op) s = .refused .tapeAlreadyLoaded) ∧
    (∀ i : Fin 8, u.toNat = i + 1 → s.tapes[i] = none →
      (∀ (bytes : List Byte) (md : TapeMode), answer = some bytes →
        (mode = 82 ∧ md = .read ∨ mode = 87 ∧ md = .write) →
        PeriEnds s rd op 1
          { s with tapes := s.tapes.set i (some { file := file, mode := md, data := bytes, pos := 0 }),
                   host := { s.host with tapeOpens := rest } }) ∧
      (answer = none → (mode = 82 ∨ mode = 87) →
        ∃ v, PeriEnds s rd op (-7) v ∧ SameMemory s v ∧ SameRegisters s v ∧ SameFlags s v ∧ SameControl s v ∧
          SameDevices s v ∧ v.pc = s.pc) ∧
      (mode ≠ 82 → mode ≠ 87 →
        ∃ (v : State) (code : Word), PeriEnds s rd op code v ∧ (code = -8 ∨ (code = -7 ∧ answer = none)) ∧
          SameMemory s v ∧ SameRegisters s v ∧ SameFlags s v ∧ SameControl s v ∧ SameDevices s v ∧ v.pc = s.pc)) ∧
    ((u.toInt < 1 ∨ 8 < u.toInt) → answer ≠ none → (mode = 82 ∨ mode = 87) →
      ∃ v, PeriEnds s rd op (-3) v ∧ SameMemory s v ∧ SameRegisters s v ∧ SameFlags s v ∧ SameControl s v ∧
        SameDevices s v ∧ v.pc = s.pc)

/-- $TAPEREAD (R137) into physical memory with VM off: the bytes left, at most 512, are stored packed four a word from the
first (92 D24), their number is the result, the position moves past them, no other word changes; at the end of the tape 0 and
nothing changes; −3 for a unit loaded for writing, out of 1..8 or unloaded. $TAPEWRITE (R138) of 1 to 512 bytes from physical
memory: the tape holds them at its position, which moves past them, and the rest of the tape is as before (Log 68); the result
is the count; −6 where the host's write fails (what is then on the tape is open), −3 for a unit that is not loaded for writing,
and any other count is refused (N45). The model's choices (DESIGN CHOICE): the unit holds a copy of the file of its own (Log
64), a write keeps the bytes behind its own (Log 68), and the host's answers are scheduled (Log 49). PERI's register may be SP
or FP and its operand of every form of R190: the model's choices (Logs 50, 63). -/
def Obligations.TapereadAndTapewriteMoveTheNextBlock : Prop :=
  (∀ (s : State) (rd : Reg) (op : Operand) (c u m : Word), PeriCall s rd op c .tapeRead → ControlWords s c [u, m] →
    (u.toInt < 1 ∨ 8 < u.toInt ∨ ∃ i : Fin 8, u.toNat = i + 1 ∧ s.tapes[i] = none) → PeriEnds s rd op (-3) s) ∧
  (∀ (s : State) (rd : Reg) (op : Operand) (c u m : Word) (i : Fin 8) (t : Tape) (n : Nat),
    PeriCall s rd op c .tapeRead → ControlWords s c [u, m] → u.toNat = i + 1 → s.tapes[i] = some t →
    n = min 512 (t.data.length - t.pos) → PlainRange s m ((n + 3) / 4) →
    (t.mode = .write → ∃ v, PeriEnds s rd op (-3) v ∧ SameMemory s v ∧ SameRegisters s v ∧ SameFlags s v ∧
      SameControl s v ∧ SameDevices s v ∧ v.pc = s.pc) ∧
    (t.mode = .read → n = 0 → PeriEnds s rd op 0 s) ∧
    (t.mode = .read → 0 < n →
      ∃ v, PeriEnds s rd op (BitVec.ofNat 32 n) v ∧
        (∀ j : Nat, j < n → v.byteAt m j = t.data.getD (t.pos + j) 0) ∧
        (∀ a : Nat, (a < m.toNat ∨ m.toNat + (n + 3) / 4 ≤ a) → v.memWord a = s.memWord a) ∧
        v.tapes = s.tapes.set i (some { t with pos := t.pos + n }) ∧ SameRegisters s v ∧ SameFlags s v ∧
        SameControl s v ∧ v.discs = s.discs ∧ v.nets = s.nets ∧ v.kbuf = s.kbuf ∧ v.screen = s.screen ∧
        v.pc = s.pc)) ∧
  ∀ (s : State) (rd : Reg) (op : Operand) (c u m n : Word), PeriCall s rd op c .tapeWrite →
    ControlWords s c [u, m, n] →
    ((n.toInt ≤ 0 ∨ 512 < n.toInt) → exec (.peri rd op) s = .refused .byteCount) ∧
    (0 < n.toInt → n.toInt ≤ 512 → PlainRange s m ((n.toNat + 3) / 4) →
      ((u.toInt < 1 ∨ 8 < u.toInt ∨ ∃ i : Fin 8, u.toNat = i + 1 ∧ ∀ t, s.tapes[i] = some t → t.mode = .read) →
        ∃ v, PeriEnds s rd op (-3) v ∧ SameMemory s v ∧ SameRegisters s v ∧ SameFlags s v ∧ SameControl s v ∧
          SameDevices s v ∧ v.pc = s.pc) ∧
      (∀ (i : Fin 8) (t : Tape) (answer : Bool) (rest : List Bool), u.toNat = i + 1 → s.tapes[i] = some t →
        t.mode = .write → t.pos ≤ t.data.length → s.host.tapeWrites = answer :: rest →
        ∃ (v : State) (t' : Tape), v.tapes = s.tapes.set i (some t') ∧ SameMemory s v ∧ SameRegisters s v ∧
          SameFlags s v ∧ SameControl s v ∧ v.discs = s.discs ∧ v.nets = s.nets ∧ v.kbuf = s.kbuf ∧
          v.screen = s.screen ∧ v.pc = s.pc ∧ t'.mode = .write ∧ t'.file = t.file ∧
          (answer = false → PeriEnds s rd op (-6) v) ∧
          (answer = true → PeriEnds s rd op n v ∧ t'.pos = t.pos + n.toNat ∧
            (∀ j : Nat, j < n.toNat → t'.data[t.pos + j]? = some (s.byteAt m j)) ∧
            ∀ j : Nat, (j < t.pos ∨ t.pos + n.toNat ≤ j) → t'.data[j]? = t.data[j]?)))

/-- $TERMINW and $TERMINC (R151, R153) into physical memory with VM off: as many characters as asked for and present leave the
buffer, from its front; $TERMINW stores each in a word, $TERMINC packs them four a word and stores a zero after them; the
result is their number. PERI's register may be SP or FP and its operand of every form of R190: the model's choices (Logs 50,
63). -/
def Obligations.TerminTakesCharactersFromTheFront : Prop :=
  ∀ (s : State) (rd : Reg) (op : Operand) (c max m : Word) (n : Nat), ControlWords s c [max, m] →
    0 ≤ max.toInt → n = min max.toNat s.kbuf.length →
    (PeriCall s rd op c .termInW → PlainRange s m n →
      ∃ u, PeriEnds s rd op (BitVec.ofNat 32 n) u ∧ u.kbuf = s.kbuf.drop n ∧
        (∀ j : Nat, j < n → u.memWord (m.toNat + j) = (s.kbuf.getD j 0).setWidth 32) ∧
        (∀ a : Nat, (a < m.toNat ∨ m.toNat + n ≤ a) → u.memWord a = s.memWord a) ∧ SameRegisters s u ∧
        SameFlags s u ∧ SameControl s u ∧ u.screen = s.screen ∧ u.discs = s.discs ∧ u.pc = s.pc) ∧
    (PeriCall s rd op c .termInC → PlainRange s m (n / 4 + 1) →
      ∃ u, PeriEnds s rd op (BitVec.ofNat 32 n) u ∧ u.kbuf = s.kbuf.drop n ∧
        (∀ j : Nat, j < 4 * (n / 4 + 1) →
          (u.memWord (m.toNat + j / 4)).extractLsb' (8 * (j % 4)) 8 = if j < n then s.kbuf.getD j 0 else 0) ∧
        (∀ a : Nat, (a < m.toNat ∨ m.toNat + (n / 4 + 1) ≤ a) → u.memWord a = s.memWord a) ∧
        SameRegisters s u ∧ SameFlags s u ∧ SameControl s u ∧ u.screen = s.screen ∧ u.discs = s.discs ∧
        u.pc = s.pc)

/-- $TERMOUTC and $TERMOUTW (R152, R154) from physical memory with VM off. Of `k` characters, `k` not 0: the bytes of the words
at `m`, the low byte first, or the words' characters, are appended to the terminal output, zeros among them too; the result is
`k` and nothing else changes. With `k` = 0: the string at `m` up to its zero character, or the characters up to the zero word,
are appended, and the result is their number. PERI's register may be SP or FP and its operand of every form of R190: the
model's choices (Logs 50, 63). -/
def Obligations.TermoutPrintsTheCharacters : Prop :=
  ∀ (s : State) (rd : Reg) (op : Operand) (c k m : Word), ControlWords s c [k, m] →
    (0 < k.toInt → PeriCall s rd op c .termOutC → PlainRange s m ((k.toNat + 3) / 4) →
      ∃ bs : List Byte, PeriEnds s rd op k { s with screen := s.screen ++ bs } ∧ bs.length = k.toNat ∧
        ∀ j : Nat, j < k.toNat → bs.getD j 0 = s.byteAt m j) ∧
    (0 < k.toInt → PeriCall s rd op c .termOutW → PlainRange s m k.toNat →
      (∀ j : Nat, j < k.toNat → (s.memWord (m.toNat + j)).toNat < 256) →
      ∃ (u : State) (bs : List Byte), PeriEnds s rd op k u ∧ u.screen = s.screen ++ bs ∧ bs.length = k.toNat ∧
        (∀ j : Nat, j < k.toNat → (bs.getD j 0).toNat = (s.memWord (m.toNat + j)).toNat) ∧
        SameMemory s u ∧ SameRegisters s u ∧ SameFlags s u ∧ SameControl s u ∧ u.kbuf = s.kbuf ∧
        u.discs = s.discs ∧ u.tapes = s.tapes ∧ u.nets = s.nets ∧ u.pc = s.pc) ∧
    (k = 0 → ∀ bs : List Byte,
      (PeriCall s rd op c .termOutC → StringAt s m bs →
        PeriEnds s rd op (BitVec.ofNat 32 bs.length) { s with screen := s.screen ++ bs }) ∧
      (PeriCall s rd op c .termOutW → CharactersAt s m bs →
        ∃ u, PeriEnds s rd op (BitVec.ofNat 32 bs.length) u ∧ u.screen = s.screen ++ bs ∧ SameMemory s u ∧
          SameRegisters s u ∧ SameFlags s u ∧ SameControl s u ∧ u.kbuf = s.kbuf ∧ u.discs = s.discs ∧
          u.tapes = s.tapes ∧ u.nets = s.nets ∧ u.pc = s.pc))

/-- The network (R158 to R160) in cases with exactly one outcome, the address pair and the data in physical memory with VM off.
$NETSS starting a unit that is off, to which the host gives a port, turns it on with an empty queue, on the port asked for or,
for the request 0, on an unused one the host selects, and stores its address, an opaque pair of the computer's IP address and
that port (R161), at `p`; where the host gives no port the result is negative and nothing happens; starting a unit that is on
gives −9; stopping one turns it off, and the two words at `p` are open. $NETSEND of more than 1024 bytes gives −8 and sends
nothing; a send the host accepts hands it the address pair and the packed bytes. $NETRECV takes the first packet of the queue,
its source to `p` and its bytes packed to `m`; with no packet and a host that does not fail it gives −11 (92 D23: ERR is set)
and changes no memory. Results that say nothing else are not negative (92 D42). That bytes lie in words as in strings is D24's
assumption for the network (DEDUCED, Log 30). The host's answers are scheduled (Log 49), and its IP address never changes
(DESIGN CHOICE, Log 69). PERI's register may be SP or FP and its operand of every form of R190: the model's choices (Logs 50,
63). -/
def Obligations.NetworkOperationsInTheirPlainCases : Prop :=
  ∀ (s : State) (rd : Reg) (op : Operand) (c u p n m : Word) (i : Fin 2), u.toNat = i + 1 → PlainRange s p 2 →
    (s.nets[i] = none → PeriCall s rd op c .netSS → ControlWords s c [u, 1, p] → s.memWord p.toNat = 0 →
      ∀ (asked : Word) (answer : Option (BitVec 16)) (rest : List (Option (BitVec 16))),
        asked = s.memWord (p.toNat + 1) → s.host.ports = answer :: rest →
      (answer = none →
        ∃ (v : State) (result : Word), PeriEnds s rd op result v ∧ result.toInt < 0 ∧ SameMemory s v ∧
          SameRegisters s v ∧ SameFlags s v ∧ SameControl s v ∧ SameDevices s v ∧ v.pc = s.pc) ∧
      ∀ chosen port : BitVec 16, answer = some chosen →
        (asked ≠ 0 ∧ asked.toNat = port.toNat ∨
          asked = 0 ∧ port = chosen ∧ port ≠ 0 ∧ ∀ (j : Fin 2) (other : NetUnit), s.nets[j] = some other → other.port ≠ port) →
        ∃ (v : State) (result : Word), PeriEnds s rd op result v ∧ 0 ≤ result.toInt ∧
          v.nets = s.nets.set i (some { port := port, inq := [] }) ∧
          v.memWord p.toNat = (Config.addressPair Config.hostIp port).1 ∧
          v.memWord (p.toNat + 1) = (Config.addressPair Config.hostIp port).2 ∧
          (∀ a : Nat, a ≠ p.toNat → a ≠ p.toNat + 1 → v.memWord a = s.memWord a) ∧ SameRegisters s v ∧
          SameFlags s v ∧ SameControl s v ∧ v.netSent = s.netSent ∧ v.discs = s.discs ∧ v.tapes = s.tapes ∧
          v.kbuf = s.kbuf ∧ v.screen = s.screen ∧ v.pc = s.pc) ∧
    ∀ unit : NetUnit, s.nets[i] = some unit →
      (PeriCall s rd op c .netSS → ControlWords s c [u, 1, p] →
        ∃ v, PeriEnds s rd op (-9) v ∧ SameMemory s v ∧ SameRegisters s v ∧ SameFlags s v ∧ SameControl s v ∧
          SameDevices s v ∧ v.pc = s.pc) ∧
      (PeriCall s rd op c .netSS → ControlWords s c [u, 0, p] →
        ∃ (v : State) (result : Word), PeriEnds s rd op result v ∧ 0 ≤ result.toInt ∧ v.nets = s.nets.set i none ∧
          (∀ a : Nat, a ≠ p.toNat → a ≠ p.toNat + 1 → v.memWord a = s.memWord a) ∧ SameRegisters s v ∧
          SameFlags s v ∧ SameControl s v ∧ v.netSent = s.netSent ∧ v.discs = s.discs ∧ v.tapes = s.tapes ∧
          v.kbuf = s.kbuf ∧ v.screen = s.screen ∧ v.pc = s.pc) ∧
      (PeriCall s rd op c .netSend → ControlWords s c [u, p, n, m] → (n.toInt < 0 ∨ 1024 < n.toInt) →
        ∃ v, PeriEnds s rd op (-8) v ∧ SameMemory s v ∧ SameRegisters s v ∧ SameFlags s v ∧ SameControl s v ∧
          SameDevices s v ∧ v.pc = s.pc) ∧
      (PeriCall s rd op c .netSend → ControlWords s c [u, p, n, m] → 0 ≤ n.toInt → n.toInt ≤ 1024 →
        PlainRange s m ((n.toNat + 3) / 4) → ∀ rest, s.host.sends = true :: rest →
        ∃ (v : State) (result : Word) (k : Packet), PeriEnds s rd op result v ∧ 0 ≤ result.toInt ∧
          v.netSent = s.netSent ++ [(i, k)] ∧
          k.endpoint = (s.memWord p.toNat, s.memWord (p.toNat + 1)) ∧ k.data.length = n.toNat ∧
          (∀ j : Nat, j < n.toNat → k.data.getD j 0 = s.byteAt m j) ∧
          SameMemory s v ∧ SameRegisters s v ∧ SameFlags s v ∧ SameControl s v ∧ v.nets = s.nets ∧ v.pc = s.pc) ∧
      (PeriCall s rd op c .netRecv → ControlWords s c [u, p, m] → unit.inq = [] →
        ∀ rest, s.host.recvs = true :: rest →
        ∃ v, PeriEnds s rd op (-11) v ∧ SameMemory s v ∧ SameRegisters s v ∧ SameFlags s v ∧ SameControl s v ∧
          SameDevices s v ∧ v.pc = s.pc) ∧
      (PeriCall s rd op c .netRecv → ControlWords s c [u, p, m] → ∀ (k : Packet) (queue : List Packet),
        unit.inq = k :: queue → ∀ rest, s.host.recvs = true :: rest → PlainRange s m ((k.data.length + 3) / 4) →
        (p.toNat + 2 ≤ m.toNat ∨ m.toNat + (k.data.length + 3) / 4 ≤ p.toNat) →
        ∃ (v : State) (result : Word), PeriEnds s rd op result v ∧ 0 ≤ result.toInt ∧
          v.nets = s.nets.set i (some { unit with inq := queue }) ∧
          v.memWord p.toNat = k.endpoint.1 ∧ v.memWord (p.toNat + 1) = k.endpoint.2 ∧
          (∀ j : Nat, j < k.data.length → v.byteAt m j = k.data.getD j 0) ∧
          (∀ a : Nat, a ≠ p.toNat → a ≠ p.toNat + 1 → (a < m.toNat ∨ m.toNat + (k.data.length + 3) / 4 ≤ a) →
            v.memWord a = s.memWord a) ∧ SameRegisters s v ∧
          SameFlags s v ∧ SameControl s v ∧ v.netSent = s.netSent ∧ v.discs = s.discs ∧ v.tapes = s.tapes ∧
          v.kbuf = s.kbuf ∧ v.screen = s.screen ∧ v.pc = s.pc)

/-- $SECONDS and $USECONDS (R163, R164): the clock's seconds are the result of the one; the other stores seconds and
microseconds (0 to 999999) in words 1 and 2 of a control structure in physical memory, VM off, with a result that is not
negative (92 D42), and gives −2 where word 1 cannot be written (R125). For times after 19 January 2068, which the source does
not discuss, the word and ERR follow R122 (DEDUCED, Log 59). PERI's register may be SP or FP and its operand of every form of
R190: the model's choices (Logs 50, 63). -/
def Obligations.TimeOperationsReadTheClock : Prop :=
  ∀ (s : State) (rd : Reg) (op : Operand) (c : Word),
    (PeriCall s rd op c .seconds → PeriEnds s rd op (BitVec.ofNat 32 (s.clock / 1000000)) s) ∧
    (PeriCall s rd op c .uSeconds → (∀ v : Word, (s.writeMem (c + 1) v).toOption = none) → PeriEnds s rd op (-2) s) ∧
    (PeriCall s rd op c .uSeconds → PlainRange s (c + 1) 2 →
      ∃ (u : State) (result : Word), PeriEnds s rd op result u ∧ 0 ≤ result.toInt ∧
        u.memWord (c + 1).toNat = BitVec.ofNat 32 (s.clock / 1000000) ∧
        (u.memWord ((c + 1).toNat + 1)).toNat = s.clock % 1000000 ∧
        (∀ a : Nat, a ≠ (c + 1).toNat → a ≠ (c + 1).toNat + 1 → u.memWord a = s.memWord a) ∧
        SameRegisters s u ∧ SameFlags s u ∧ SameControl s u ∧ SameDevices s u ∧ u.pc = s.pc)

/-- $DATETIME (R165; 92 D42, D43, calendar PRESUMED, Log 48) of a time that is not negative, its seven words in physical memory
with VM off: year, month, day, weekday, hour, minute and second arrive in words 2 to 8; they lie in their ranges, the date is
as many days after 1 January 2000 as the time has whole days, the weekday moves on from a Saturday, and the parts of the day
add up to the rest of the time. Where word 2 cannot be written it gives −2 (R125). PERI's register may be SP or FP and its
operand of every form of R190: the model's choices (Logs 50, 63). -/
def Obligations.DatetimeStoresThePartsOfTheTime : Prop :=
  ∀ (s : State) (rd : Reg) (op : Operand) (c t : Word), PeriCall s rd op c .dateTime → ControlWords s c [t] →
    0 ≤ t.toInt → ((∀ v : Word, (s.writeMem (c + 2) v).toOption = none) → PeriEnds s rd op (-2) s) ∧
    (PlainRange s (c + 2) 7 →
    ∃ (u : State) (result : Word) (y mo d wd h mi se : Nat), PeriEnds s rd op result u ∧ 0 ≤ result.toInt ∧
      (∀ j : Nat, j < 7 →
        (u.memWord ((c + 2).toNat + j)).toNat = [y, mo, d, wd, h, mi, se].getD j 0) ∧
      (∀ a : Nat, (a < (c + 2).toNat ∨ (c + 2).toNat + 7 ≤ a) → u.memWord a = s.memWord a) ∧
      SameRegisters s u ∧ SameFlags s u ∧ SameControl s u ∧ SameDevices s u ∧ u.pc = s.pc ∧
      2000 ≤ y ∧ 1 ≤ mo ∧ mo ≤ 12 ∧ 1 ≤ d ∧ d ≤ (monthDays y).getD (mo - 1) 0 ∧
      h ≤ 23 ∧ mi ≤ 59 ∧ se ≤ 59 ∧
      daysBeforeYear y + ((monthDays y).take (mo - 1)).sum + (d - 1) = t.toNat / 86400 ∧
      wd = (6 + t.toNat / 86400) % 7 ∧ 3600 * h + 60 * mi + se = t.toNat % 86400)
end

