-- ==== Sys2Proof/Laws/Decode.lean ====
section
/-! SUPPORT. The fields of a word in the model's layout (Log 1): reading a packed field gives it back, and packing the fields
of a word gives the word back. -/

namespace Sys2Proof

/-! ### Reading packed fields -/

@[simp] theorem opField_packFields (op : BitVec 5) (main : BitVec 4) (form : BitVec 3) (x : BitVec 20) :
    opField (packFields op main form x) = op := by
  apply BitVec.eq_of_getLsbD_eq
  intro i hi
  simp only [opField, packFields, BitVec.getLsbD_extractLsb', BitVec.getLsbD_append, hi, decide_true, Bool.true_and]
  rw [if_neg (by omega), if_neg (by omega), if_neg (by omega)]
  congr 1; omega

@[simp] theorem mainField_packFields (op : BitVec 5) (main : BitVec 4) (form : BitVec 3) (x : BitVec 20) :
    mainField (packFields op main form x) = main := by
  apply BitVec.eq_of_getLsbD_eq
  intro i hi
  simp only [mainField, packFields, BitVec.getLsbD_extractLsb', BitVec.getLsbD_append, hi, decide_true, Bool.true_and]
  rw [if_neg (by omega), if_neg (by omega), if_pos (by omega)]
  congr 1; omega

@[simp] theorem formField_packFields (op : BitVec 5) (main : BitVec 4) (form : BitVec 3) (x : BitVec 20) :
    formField (packFields op main form x) = form := by
  apply BitVec.eq_of_getLsbD_eq
  intro i hi
  simp only [formField, packFields, BitVec.getLsbD_extractLsb', BitVec.getLsbD_append, hi, decide_true, Bool.true_and]
  rw [if_neg (by omega), if_pos (by omega)]
  congr 1; omega

@[simp] theorem lowField_packFields (op : BitVec 5) (main : BitVec 4) (form : BitVec 3) (x : BitVec 20) :
    lowField (packFields op main form x) = x := by
  apply BitVec.eq_of_getLsbD_eq
  intro i hi
  simp only [lowField, packFields, BitVec.getLsbD_extractLsb', BitVec.getLsbD_append, hi, decide_true, Bool.true_and]
  rw [if_pos (by omega)]
  congr 1; omega

@[simp] theorem opField_packBits (op : BitVec 5) (rest : BitVec 27) : opField (packBits op rest) = op := by
  apply BitVec.eq_of_getLsbD_eq
  intro i hi
  simp only [opField, packBits, BitVec.getLsbD_extractLsb', BitVec.getLsbD_append, hi, decide_true, Bool.true_and]
  rw [if_neg (by omega)]
  congr 1; omega

@[simp] theorem restField_packBits (op : BitVec 5) (rest : BitVec 27) : restField (packBits op rest) = rest := by
  apply BitVec.eq_of_getLsbD_eq
  intro i hi
  simp only [restField, packBits, BitVec.getLsbD_extractLsb', BitVec.getLsbD_append, hi, decide_true, Bool.true_and]
  rw [if_pos (by omega)]
  congr 1; omega

/-! ### Packing a word's fields -/

theorem packFields_fields (w : Word) : packFields (opField w) (mainField w) (formField w) (lowField w) = w := by
  apply BitVec.eq_of_getLsbD_eq
  intro i hi
  simp only [opField, mainField, formField, lowField, packFields, BitVec.getLsbD_extractLsb', BitVec.getLsbD_append]
  split
  · simp only [*, decide_true, Bool.true_and]; congr 1; omega
  · split
    · simp only [*, decide_true, Bool.true_and]; congr 1; omega
    · split
      · simp only [*, decide_true, Bool.true_and]; congr 1; omega
      · rw [decide_eq_true (by omega)]; simp only [Bool.true_and]; congr 1; omega

theorem packBits_fields (w : Word) : packBits (opField w) (restField w) = w := by
  apply BitVec.eq_of_getLsbD_eq
  intro i hi
  simp only [opField, restField, packBits, BitVec.getLsbD_extractLsb', BitVec.getLsbD_append]
  split
  · simp only [*, decide_true, Bool.true_and]; congr 1; omega
  · rw [decide_eq_true (by omega)]; simp only [Bool.true_and]; congr 1; omega

/-! ### Registers and conditions -/

@[simp] theorem decodeReg_encodeReg (m : Reg) : decodeReg (encodeReg m) = m := by
  cases m with
  | r n => revert n; decide
  | _ => decide

@[simp] theorem encodeReg_decodeReg (b : BitVec 4) : encodeReg (decodeReg b) = b := by revert b; decide

@[simp] theorem encodeCond_decodeCond (b : BitVec 4) : encodeCond (decodeCond b) = b := by revert b; decide

theorem decodeCond_fits (b : BitVec 4) : (decodeCond b).fits = true := by revert b; decide

theorem decodeCond_encodeCond {c : Cond} (h : c.fits = true) : decodeCond (encodeCond c) = c := by
  cases c with
  | err => decide
  | unlisted b => revert b; decide

/-! ### Operands and numbers -/

/-- The two halves of an operand's low field. -/
theorem lowHalves_append (m : BitVec 4) (k : BitVec 16) :
    (m ++ k : BitVec 20).extractLsb' 16 4 = m ∧ (m ++ k : BitVec 20).extractLsb' 0 16 = k := by
  constructor
  · apply BitVec.eq_of_getLsbD_eq
    intro i hi
    simp only [BitVec.getLsbD_extractLsb', BitVec.getLsbD_append, hi, decide_true, Bool.true_and]
    rw [if_neg (by omega)]
    congr 1; omega
  · apply BitVec.eq_of_getLsbD_eq
    intro i hi
    simp only [BitVec.getLsbD_extractLsb', BitVec.getLsbD_append, hi, decide_true, Bool.true_and]
    rw [if_pos (by omega)]
    congr 1; omega

theorem append_lowHalves (x : BitVec 20) : (x.extractLsb' 16 4 ++ x.extractLsb' 0 16 : BitVec 20) = x := by
  apply BitVec.eq_of_getLsbD_eq
  intro i hi
  simp only [BitVec.getLsbD_extractLsb', BitVec.getLsbD_append]
  split
  · simp only [*, decide_true, Bool.true_and]; congr 1; omega
  · rw [decide_eq_true (by omega)]; simp only [Bool.true_and]; congr 1; omega

/-- A word that fits a field comes back from it. -/
theorem widen_narrow {n : Nat} {c : Word} (hn : n ≤ 32) (h : c.toNat < 2 ^ n) :
    (c.setWidth n).setWidth 32 = c := by
  apply BitVec.eq_of_toNat_eq
  simp only [BitVec.toNat_setWidth]
  have : 2 ^ n ≤ 2 ^ 32 := Nat.pow_le_pow_right (by omega) hn
  rw [Nat.mod_eq_of_lt h, Nat.mod_eq_of_lt (by omega)]

theorem narrow_widen {n : Nat} (hn : n ≤ 32) (x : BitVec n) : ((x.setWidth 32 : Word).setWidth n) = x := by
  apply BitVec.eq_of_toNat_eq
  simp only [BitVec.toNat_setWidth]
  have : 2 ^ n ≤ 2 ^ 32 := Nat.pow_le_pow_right (by omega) hn
  have := x.isLt
  rw [Nat.mod_eq_of_lt (show x.toNat < 2 ^ 32 by omega), Nat.mod_eq_of_lt x.isLt]

theorem widen_lt {n : Nat} (hn : n ≤ 32) (x : BitVec n) : (x.setWidth 32 : Word).toNat < 2 ^ n := by
  simp only [BitVec.toNat_setWidth]
  have : 2 ^ n ≤ 2 ^ 32 := Nat.pow_le_pow_right (by omega) hn
  have := x.isLt
  rw [Nat.mod_eq_of_lt (by omega)]
  exact x.isLt

/-- An operand that fits reads back from its form and low field. -/
theorem decodeOperand_encodeOperand {o : Operand} (h : o.fits = true) :
    decodeOperand (encodeOperand o).1 (encodeOperand o).2 = .ok o := by
  cases o with
  | num c =>
    have h1 : c.toNat < 2 ^ 20 := by simpa [Operand.fits] using h
    simp only [encodeOperand, decodeOperand]
    exact congrArg _ (congrArg _ (widen_narrow (by omega) h1))
  | reg m =>
    have h1 := lowHalves_append (encodeReg m) 0
    simp only [encodeOperand]
    show (if _ then _ else _) = _
    rw [h1.1, h1.2, if_pos rfl, decodeReg_encodeReg]
  | ind m =>
    have h1 := lowHalves_append (encodeReg m) 0
    simp only [encodeOperand]
    show (if _ then _ else _) = _
    rw [h1.1, h1.2, if_pos rfl, decodeReg_encodeReg]
  | indOff m k =>
    have h1 := lowHalves_append (encodeReg m) (k.setWidth 16)
    have h2 : k.toNat < 2 ^ 16 := by simpa [Operand.fits] using h
    simp only [encodeOperand]
    show Except.ok (Operand.indOff _ _) = _
    rw [h1.1, h1.2, decodeReg_encodeReg, widen_narrow (by omega) h2]
  | abs a =>
    have h1 : a.toNat < 2 ^ 20 := by simpa [Operand.fits] using h
    simp only [encodeOperand]
    show Except.ok (Operand.abs _) = _
    rw [widen_narrow (by omega) h1]

/-- A form and low field that decode to an operand are that operand's, and it fits. -/
theorem encodeOperand_decodeOperand {f : BitVec 3} {x : BitVec 20} {o : Operand} (h : decodeOperand f x = .ok o) :
    encodeOperand o = (f, x) ∧ o.fits = true := by
  have hf : f = 0 ∨ f = 1 ∨ f = 2 ∨ f = 3 ∨ f = 4 ∨ f = 5 ∨ f = 6 ∨ f = 7 := by
    clear h; revert f; decide
  have hx := append_lowHalves x
  rcases hf with rfl | rfl | rfl | rfl | rfl | rfl | rfl | rfl
  · have h : Except.ok (Operand.num (x.setWidth 32)) = (Except.ok o : Except DecodeError Operand) := h
    cases h
    exact ⟨by simp only [encodeOperand, narrow_widen (n := 20) (by omega)],
      by simpa [Operand.fits] using widen_lt (n := 20) (by omega) x⟩
  · change (if _ then _ else _) = _ at h
    split at h
    · rename_i h0
      rw [h0] at hx
      cases h
      exact ⟨by simp only [encodeOperand, encodeReg_decodeReg]; rw [hx], rfl⟩
    · cases h
  · change (if _ then _ else _) = _ at h
    split at h
    · rename_i h0
      rw [h0] at hx
      cases h
      exact ⟨by simp only [encodeOperand, encodeReg_decodeReg]; rw [hx], rfl⟩
    · cases h
  · have h : Except.ok (Operand.indOff (decodeReg (x.extractLsb' 16 4)) ((x.extractLsb' 0 16).setWidth 32)) =
      (Except.ok o : Except DecodeError Operand) := h
    cases h
    refine ⟨?_, by simpa [Operand.fits] using widen_lt (n := 16) (by omega) (x.extractLsb' 0 16)⟩
    simp only [encodeOperand, encodeReg_decodeReg]
    rw [narrow_widen (n := 16) (by omega), hx]
  · have h : Except.ok (Operand.abs (x.setWidth 32)) = (Except.ok o : Except DecodeError Operand) := h
    cases h
    exact ⟨by simp only [encodeOperand, narrow_widen (n := 20) (by omega)],
      by simpa [Operand.fits] using widen_lt (n := 20) (by omega) x⟩
  · cases h
  · cases h
  · cases h

/-- The fields of the word of an instruction with a main register and an operand. -/
theorem packOperand_fields (op : BitVec 5) (main : BitVec 4) {o : Operand} (h : o.fits = true) :
    opField (packOperand op main o) = op ∧ mainField (packOperand op main o) = main ∧
      decodeOperand (formField (packOperand op main o)) (lowField (packOperand op main o)) = .ok o := by
  simp only [packOperand, opField_packFields, mainField_packFields, formField_packFields, lowField_packFields,
    decodeOperand_encodeOperand h, and_self]

/-- The fields of the word of an instruction whose operand is a number. -/
theorem packNumber_fields (op : BitVec 5) (main : BitVec 4) {k : Word} (h : k.toNat < 2 ^ 20) :
    opField (packNumber op main k) = op ∧ mainField (packNumber op main k) = main ∧
      decodeNumber (formField (packNumber op main k)) (lowField (packNumber op main k)) = .ok k := by
  simp only [packNumber, opField_packFields, mainField_packFields, formField_packFields, lowField_packFields,
    decodeNumber, if_true, widen_narrow (n := 20) (by omega) h, and_self]

theorem decodeNumber_ok {f : BitVec 3} {x : BitVec 20} {k : Word} (h : decodeNumber f x = .ok k) :
    f = 0 ∧ k.setWidth 20 = x ∧ k.toNat < 2 ^ 20 := by
  unfold decodeNumber at h
  split at h
  · cases h
    exact ⟨‹_›, narrow_widen (by omega) x, widen_lt (by omega) x⟩
  · cases h

end Sys2Proof
end

