-- ==== Sys2Proof/Laws/Memory.lean ====
section
/-! SUPPORT. The laws of sparse words: reads and writes, and the canonical form every memory operation keeps. -/

namespace Sys2Proof.Machine

@[simp] theorem Memory.read_nil (a : Nat) : Memory.read [] a = none := rfl

/-- A read after a write to the same address gives the word written. -/
@[simp] theorem Memory.read_write_same (m : Memory) (a : Nat) (v : Word) :
    Memory.read (Memory.write m a v) a = some v := by
  induction m with
  | nil => simp [Memory.write, Memory.read]
  | cons e m ih =>
    obtain ⟨b, w⟩ := e
    unfold Memory.write
    split
    · simp [Memory.read]
    · split
      · simp [Memory.read]
      · rename_i h1 h2
        simp [Memory.read, h2, h1, ih]

/-- An address below every listed one was never written. -/
theorem Memory.read_below {m : Memory} {a : Nat} (h : ∀ e ∈ m, a < e.1) : Memory.read m a = none := by
  cases m with
  | nil => rfl
  | cons e m =>
    have h1 := h e (by simp)
    simp [Memory.read, Nat.ne_of_lt h1, h1]

/-- A write leaves every other address alone. -/
theorem Memory.read_write_other (m : Memory) {a b : Nat} (v : Word) (h : b ≠ a) :
    Memory.read (Memory.write m a v) b = Memory.read m b := by
  induction m with
  | nil => simp [Memory.write, Memory.read, h]
  | cons e m ih =>
    obtain ⟨c, w⟩ := e
    unfold Memory.write
    split
    · rename_i hac
      by_cases hb : b < a
      · have hbc : b < c := by omega
        simp [Memory.read, h, hb, Nat.ne_of_lt hbc, hbc]
      · simp [Memory.read, h, hb]
    · split
      · rename_i hac
        subst hac
        by_cases hb : b < a
        · simp [Memory.read, h, hb]
        · simp [Memory.read, h, hb]
      · simp only [Memory.read]
        rw [ih]

/-- The addresses of a written memory are the old ones and the one written. -/
theorem Memory.mem_write {m : Memory} {a : Nat} {v : Word} {e : Nat × Word} (h : e ∈ Memory.write m a v) :
    e.1 = a ∨ e ∈ m := by
  induction m with
  | nil => simp [Memory.write] at h; simp [h]
  | cons c m ih =>
    obtain ⟨b, w⟩ := c
    unfold Memory.write at h
    split at h
    · rcases List.mem_cons.mp h with h | h
      · simp [h]
      · exact .inr h
    · split at h
      · rcases List.mem_cons.mp h with h | h
        · simp [h]
        · exact .inr (List.mem_cons_of_mem _ h)
      · rcases List.mem_cons.mp h with h | h
        · exact .inr (by simp [h])
        · exact (ih h).imp_right (List.mem_cons_of_mem _)

/-- A write keeps the canonical form. -/
theorem Memory.write_wf {m : Memory} (hm : Memory.wf m) (a : Nat) (v : Word) : Memory.wf (Memory.write m a v) := by
  induction m with
  | nil => simp [Memory.write, Memory.wf]
  | cons c m ih =>
    obtain ⟨b, w⟩ := c
    have hc := List.pairwise_cons.mp hm
    unfold Memory.write
    split
    · rename_i hab
      refine List.pairwise_cons.mpr ⟨fun e he => ?_, hm⟩
      rcases List.mem_cons.mp he with he | he
      · simpa [he] using hab
      · exact Nat.lt_trans hab (hc.1 e he)
    · split
      · rename_i hab
        subst hab
        exact List.pairwise_cons.mpr ⟨hc.1, hc.2⟩
      · rename_i h1 h2
        refine List.pairwise_cons.mpr ⟨fun e he => ?_, ih hc.2⟩
        rcases Memory.mem_write he with he | he
        · simp only [he]; omega
        · exact hc.1 e he

/-- A run of writes keeps the canonical form. -/
theorem Memory.writeRun_wf (ws : List Word) {m : Memory} (hm : Memory.wf m) (a : Nat) :
    Memory.wf (Memory.writeRun m a ws) := by
  induction ws generalizing m a with
  | nil => exact hm
  | cons w ws ih => exact ih (Memory.write_wf hm a w) (a + 1)

/-- The addresses of a run of writes. -/
theorem Memory.mem_writeRun (ws : List Word) {m : Memory} {a : Nat} {e : Nat × Word}
    (h : e ∈ Memory.writeRun m a ws) : (a ≤ e.1 ∧ e.1 < a + ws.length) ∨ e ∈ m := by
  induction ws generalizing m a with
  | nil => exact .inr h
  | cons w ws ih =>
    rcases ih h with ⟨h1, h2⟩ | h
    · left; simp only [List.length_cons]; omega
    · rcases Memory.mem_write h with h | h
      · left; simp only [List.length_cons]; omega
      · exact .inr h

/-- A run of writes leaves the addresses outside it alone. -/
theorem Memory.read_writeRun_other (ws : List Word) (m : Memory) {a b : Nat}
    (h : b < a ∨ a + ws.length ≤ b) : Memory.read (Memory.writeRun m a ws) b = Memory.read m b := by
  induction ws generalizing m a with
  | nil => rfl
  | cons w ws ih =>
    simp only [List.length_cons] at h
    rw [Memory.writeRun, ih _ (by omega), Memory.read_write_other m w (by omega)]

/-- A run of writes stores its words in order. -/
theorem Memory.read_writeRun_inside (ws : List Word) (m : Memory) {a j : Nat}
    (h : j < ws.length) : Memory.read (Memory.writeRun m a ws) (a + j) = some (ws[j]) := by
  induction ws generalizing m a j with
  | nil => simp at h
  | cons w ws ih =>
    cases j with
    | zero =>
      rw [Memory.writeRun, Memory.read_writeRun_other ws _ (by omega)]
      simp
    | succ j =>
      have := ih (Memory.write m a w) (a := a + 1) (j := j) (by simpa using h)
      simp only [Memory.writeRun, List.getElem_cons_succ]
      rw [← this]; congr 1; omega

theorem State.reset_mem_wf : Memory.wf State.reset.mem := by decide

/-- A stored word reads back, and no other word changes. -/
@[simp] theorem State.putWord_memWord_same (s : State) (a : Nat) (v : Word) : (s.putWord a v).memWord a = v := by
  simp [State.memWord, State.putWord]

theorem State.putWord_memWord_other (s : State) {a b : Nat} (v : Word) (h : b ≠ a) :
    (s.putWord a v).memWord b = s.memWord b := by
  simp [State.memWord, State.putWord, Memory.read_write_other s.mem v h]

end Sys2Proof.Machine
end

