-- ==== Sys2Proof/Laws/State.lean ====
section
/-! SUPPORT. One lemma for each field and each update of the state, so that no later proof unfolds a record update. -/

namespace Sys2Proof.Machine

/-! ### skip -/

@[simp] theorem State.skip_gpr (s : State) (n : Nat) : (s.skip n).gpr = s.gpr := rfl
@[simp] theorem State.skip_pc (s : State) (n : Nat) : (s.skip n).pc = s.pc := rfl
@[simp] theorem State.skip_pdbr (s : State) (n : Nat) : (s.skip n).pdbr = s.pdbr := rfl
@[simp] theorem State.skip_intvec (s : State) (n : Nat) : (s.skip n).intvec = s.intvec := rfl
@[simp] theorem State.skip_cgbr (s : State) (n : Nat) : (s.skip n).cgbr = s.cgbr := rfl
@[simp] theorem State.skip_cglen (s : State) (n : Nat) : (s.skip n).cglen = s.cglen := rfl
@[simp] theorem State.skip_debug (s : State) (n : Nat) : (s.skip n).debug = s.debug := rfl
@[simp] theorem State.skip_timer (s : State) (n : Nat) : (s.skip n).timer = s.timer := rfl
@[simp] theorem State.skip_sysSp (s : State) (n : Nat) : (s.skip n).sysSp = s.sysSp := rfl
@[simp] theorem State.skip_sysFp (s : State) (n : Nat) : (s.skip n).sysFp = s.sysFp := rfl
@[simp] theorem State.skip_usrSp (s : State) (n : Nat) : (s.skip n).usrSp = s.usrSp := rfl
@[simp] theorem State.skip_usrFp (s : State) (n : Nat) : (s.skip n).usrFp = s.usrFp := rfl
@[simp] theorem State.skip_flags (s : State) (n : Nat) : (s.skip n).flags = s.flags := rfl
@[simp] theorem State.skip_mem (s : State) (n : Nat) : (s.skip n).mem = s.mem := rfl
@[simp] theorem State.skip_kbuf (s : State) (n : Nat) : (s.skip n).kbuf = s.kbuf := rfl
@[simp] theorem State.skip_screen (s : State) (n : Nat) : (s.skip n).screen = s.screen := rfl
@[simp] theorem State.skip_discs (s : State) (n : Nat) : (s.skip n).discs = s.discs := rfl
@[simp] theorem State.skip_tapes (s : State) (n : Nat) : (s.skip n).tapes = s.tapes := rfl
@[simp] theorem State.skip_nets (s : State) (n : Nat) : (s.skip n).nets = s.nets := rfl
@[simp] theorem State.skip_netSent (s : State) (n : Nat) : (s.skip n).netSent = s.netSent := rfl
@[simp] theorem State.skip_clock (s : State) (n : Nat) : (s.skip n).clock = s.clock := rfl
@[simp] theorem State.skip_stopReason (s : State) (n : Nat) : (s.skip n).stopReason = s.stopReason := rfl
@[simp] theorem State.skip_params (s : State) (n : Nat) : (s.skip n).params = s.params := rfl
@[simp] theorem State.skip_host (s : State) (n : Nat) : (s.skip n).host = s.host := rfl
@[simp] theorem State.skip_draws (s : State) (n : Nat) : (s.skip n).draws = s.draws + n := rfl
@[simp] theorem State.skip_interrupted (s : State) (n : Nat) : (s.skip n).interrupted = s.interrupted := rfl
@[simp] theorem State.skip_gateFrames (s : State) (n : Nat) : (s.skip n).gateFrames = s.gateFrames := rfl

/-! ### advance -/

@[simp] theorem State.advance_gpr (s : State) : (s.advance).gpr = s.gpr := rfl
@[simp] theorem State.advance_pc (s : State) : (s.advance).pc = s.pc + 1 := rfl
@[simp] theorem State.advance_pdbr (s : State) : (s.advance).pdbr = s.pdbr := rfl
@[simp] theorem State.advance_intvec (s : State) : (s.advance).intvec = s.intvec := rfl
@[simp] theorem State.advance_cgbr (s : State) : (s.advance).cgbr = s.cgbr := rfl
@[simp] theorem State.advance_cglen (s : State) : (s.advance).cglen = s.cglen := rfl
@[simp] theorem State.advance_debug (s : State) : (s.advance).debug = s.debug := rfl
@[simp] theorem State.advance_timer (s : State) : (s.advance).timer = s.timer := rfl
@[simp] theorem State.advance_sysSp (s : State) : (s.advance).sysSp = s.sysSp := rfl
@[simp] theorem State.advance_sysFp (s : State) : (s.advance).sysFp = s.sysFp := rfl
@[simp] theorem State.advance_usrSp (s : State) : (s.advance).usrSp = s.usrSp := rfl
@[simp] theorem State.advance_usrFp (s : State) : (s.advance).usrFp = s.usrFp := rfl
@[simp] theorem State.advance_flags (s : State) : (s.advance).flags = s.flags := rfl
@[simp] theorem State.advance_mem (s : State) : (s.advance).mem = s.mem := rfl
@[simp] theorem State.advance_kbuf (s : State) : (s.advance).kbuf = s.kbuf := rfl
@[simp] theorem State.advance_screen (s : State) : (s.advance).screen = s.screen := rfl
@[simp] theorem State.advance_discs (s : State) : (s.advance).discs = s.discs := rfl
@[simp] theorem State.advance_tapes (s : State) : (s.advance).tapes = s.tapes := rfl
@[simp] theorem State.advance_nets (s : State) : (s.advance).nets = s.nets := rfl
@[simp] theorem State.advance_netSent (s : State) : (s.advance).netSent = s.netSent := rfl
@[simp] theorem State.advance_clock (s : State) : (s.advance).clock = s.clock := rfl
@[simp] theorem State.advance_stopReason (s : State) : (s.advance).stopReason = s.stopReason := rfl
@[simp] theorem State.advance_params (s : State) : (s.advance).params = s.params := rfl
@[simp] theorem State.advance_host (s : State) : (s.advance).host = s.host := rfl
@[simp] theorem State.advance_draws (s : State) : (s.advance).draws = s.draws := rfl
@[simp] theorem State.advance_interrupted (s : State) : (s.advance).interrupted = s.interrupted := rfl
@[simp] theorem State.advance_gateFrames (s : State) : (s.advance).gateFrames = s.gateFrames := rfl

/-! ### jump -/

@[simp] theorem State.jump_gpr (s : State) (a : Word) : (s.jump a).gpr = s.gpr := rfl
@[simp] theorem State.jump_pc (s : State) (a : Word) : (s.jump a).pc = a := rfl
@[simp] theorem State.jump_pdbr (s : State) (a : Word) : (s.jump a).pdbr = s.pdbr := rfl
@[simp] theorem State.jump_intvec (s : State) (a : Word) : (s.jump a).intvec = s.intvec := rfl
@[simp] theorem State.jump_cgbr (s : State) (a : Word) : (s.jump a).cgbr = s.cgbr := rfl
@[simp] theorem State.jump_cglen (s : State) (a : Word) : (s.jump a).cglen = s.cglen := rfl
@[simp] theorem State.jump_debug (s : State) (a : Word) : (s.jump a).debug = s.debug := rfl
@[simp] theorem State.jump_timer (s : State) (a : Word) : (s.jump a).timer = s.timer := rfl
@[simp] theorem State.jump_sysSp (s : State) (a : Word) : (s.jump a).sysSp = s.sysSp := rfl
@[simp] theorem State.jump_sysFp (s : State) (a : Word) : (s.jump a).sysFp = s.sysFp := rfl
@[simp] theorem State.jump_usrSp (s : State) (a : Word) : (s.jump a).usrSp = s.usrSp := rfl
@[simp] theorem State.jump_usrFp (s : State) (a : Word) : (s.jump a).usrFp = s.usrFp := rfl
@[simp] theorem State.jump_flags (s : State) (a : Word) : (s.jump a).flags = s.flags := rfl
@[simp] theorem State.jump_mem (s : State) (a : Word) : (s.jump a).mem = s.mem := rfl
@[simp] theorem State.jump_kbuf (s : State) (a : Word) : (s.jump a).kbuf = s.kbuf := rfl
@[simp] theorem State.jump_screen (s : State) (a : Word) : (s.jump a).screen = s.screen := rfl
@[simp] theorem State.jump_discs (s : State) (a : Word) : (s.jump a).discs = s.discs := rfl
@[simp] theorem State.jump_tapes (s : State) (a : Word) : (s.jump a).tapes = s.tapes := rfl
@[simp] theorem State.jump_nets (s : State) (a : Word) : (s.jump a).nets = s.nets := rfl
@[simp] theorem State.jump_netSent (s : State) (a : Word) : (s.jump a).netSent = s.netSent := rfl
@[simp] theorem State.jump_clock (s : State) (a : Word) : (s.jump a).clock = s.clock := rfl
@[simp] theorem State.jump_stopReason (s : State) (a : Word) : (s.jump a).stopReason = s.stopReason := rfl
@[simp] theorem State.jump_params (s : State) (a : Word) : (s.jump a).params = s.params := rfl
@[simp] theorem State.jump_host (s : State) (a : Word) : (s.jump a).host = s.host := rfl
@[simp] theorem State.jump_draws (s : State) (a : Word) : (s.jump a).draws = s.draws := rfl
@[simp] theorem State.jump_interrupted (s : State) (a : Word) : (s.jump a).interrupted = s.interrupted := rfl
@[simp] theorem State.jump_gateFrames (s : State) (a : Word) : (s.jump a).gateFrames = s.gateFrames := rfl

/-! ### putWord -/

@[simp] theorem State.putWord_gpr (s : State) (a : Nat) (v : Word) : (s.putWord a v).gpr = s.gpr := rfl
@[simp] theorem State.putWord_pc (s : State) (a : Nat) (v : Word) : (s.putWord a v).pc = s.pc := rfl
@[simp] theorem State.putWord_pdbr (s : State) (a : Nat) (v : Word) : (s.putWord a v).pdbr = s.pdbr := rfl
@[simp] theorem State.putWord_intvec (s : State) (a : Nat) (v : Word) : (s.putWord a v).intvec = s.intvec := rfl
@[simp] theorem State.putWord_cgbr (s : State) (a : Nat) (v : Word) : (s.putWord a v).cgbr = s.cgbr := rfl
@[simp] theorem State.putWord_cglen (s : State) (a : Nat) (v : Word) : (s.putWord a v).cglen = s.cglen := rfl
@[simp] theorem State.putWord_debug (s : State) (a : Nat) (v : Word) : (s.putWord a v).debug = s.debug := rfl
@[simp] theorem State.putWord_timer (s : State) (a : Nat) (v : Word) : (s.putWord a v).timer = s.timer := rfl
@[simp] theorem State.putWord_sysSp (s : State) (a : Nat) (v : Word) : (s.putWord a v).sysSp = s.sysSp := rfl
@[simp] theorem State.putWord_sysFp (s : State) (a : Nat) (v : Word) : (s.putWord a v).sysFp = s.sysFp := rfl
@[simp] theorem State.putWord_usrSp (s : State) (a : Nat) (v : Word) : (s.putWord a v).usrSp = s.usrSp := rfl
@[simp] theorem State.putWord_usrFp (s : State) (a : Nat) (v : Word) : (s.putWord a v).usrFp = s.usrFp := rfl
@[simp] theorem State.putWord_flags (s : State) (a : Nat) (v : Word) : (s.putWord a v).flags = s.flags := rfl
@[simp] theorem State.putWord_mem (s : State) (a : Nat) (v : Word) : (s.putWord a v).mem = Memory.write s.mem a v := rfl
@[simp] theorem State.putWord_kbuf (s : State) (a : Nat) (v : Word) : (s.putWord a v).kbuf = s.kbuf := rfl
@[simp] theorem State.putWord_screen (s : State) (a : Nat) (v : Word) : (s.putWord a v).screen = s.screen := rfl
@[simp] theorem State.putWord_discs (s : State) (a : Nat) (v : Word) : (s.putWord a v).discs = s.discs := rfl
@[simp] theorem State.putWord_tapes (s : State) (a : Nat) (v : Word) : (s.putWord a v).tapes = s.tapes := rfl
@[simp] theorem State.putWord_nets (s : State) (a : Nat) (v : Word) : (s.putWord a v).nets = s.nets := rfl
@[simp] theorem State.putWord_netSent (s : State) (a : Nat) (v : Word) : (s.putWord a v).netSent = s.netSent := rfl
@[simp] theorem State.putWord_clock (s : State) (a : Nat) (v : Word) : (s.putWord a v).clock = s.clock := rfl
@[simp] theorem State.putWord_stopReason (s : State) (a : Nat) (v : Word) : (s.putWord a v).stopReason = s.stopReason := rfl
@[simp] theorem State.putWord_params (s : State) (a : Nat) (v : Word) : (s.putWord a v).params = s.params := rfl
@[simp] theorem State.putWord_host (s : State) (a : Nat) (v : Word) : (s.putWord a v).host = s.host := rfl
@[simp] theorem State.putWord_draws (s : State) (a : Nat) (v : Word) : (s.putWord a v).draws = s.draws := rfl
@[simp] theorem State.putWord_interrupted (s : State) (a : Nat) (v : Word) : (s.putWord a v).interrupted = s.interrupted := rfl
@[simp] theorem State.putWord_gateFrames (s : State) (a : Nat) (v : Word) : (s.putWord a v).gateFrames = s.gateFrames.filter (fun b => b ≠ a) := rfl

/-! ### setFlags -/

@[simp] theorem State.setFlags_gpr (s : State) (f : Flags) : (s.setFlags f).gpr = s.gpr := rfl
@[simp] theorem State.setFlags_pc (s : State) (f : Flags) : (s.setFlags f).pc = s.pc := rfl
@[simp] theorem State.setFlags_pdbr (s : State) (f : Flags) : (s.setFlags f).pdbr = s.pdbr := rfl
@[simp] theorem State.setFlags_intvec (s : State) (f : Flags) : (s.setFlags f).intvec = s.intvec := rfl
@[simp] theorem State.setFlags_cgbr (s : State) (f : Flags) : (s.setFlags f).cgbr = s.cgbr := rfl
@[simp] theorem State.setFlags_cglen (s : State) (f : Flags) : (s.setFlags f).cglen = s.cglen := rfl
@[simp] theorem State.setFlags_debug (s : State) (f : Flags) : (s.setFlags f).debug = s.debug := rfl
@[simp] theorem State.setFlags_timer (s : State) (f : Flags) : (s.setFlags f).timer = s.timer := rfl
@[simp] theorem State.setFlags_sysSp (s : State) (f : Flags) : (s.setFlags f).sysSp = s.sysSp := rfl
@[simp] theorem State.setFlags_sysFp (s : State) (f : Flags) : (s.setFlags f).sysFp = s.sysFp := rfl
@[simp] theorem State.setFlags_usrSp (s : State) (f : Flags) : (s.setFlags f).usrSp = s.usrSp := rfl
@[simp] theorem State.setFlags_usrFp (s : State) (f : Flags) : (s.setFlags f).usrFp = s.usrFp := rfl
@[simp] theorem State.setFlags_flags (s : State) (f : Flags) : (s.setFlags f).flags = f := rfl
@[simp] theorem State.setFlags_mem (s : State) (f : Flags) : (s.setFlags f).mem = s.mem := rfl
@[simp] theorem State.setFlags_kbuf (s : State) (f : Flags) : (s.setFlags f).kbuf = s.kbuf := rfl
@[simp] theorem State.setFlags_screen (s : State) (f : Flags) : (s.setFlags f).screen = s.screen := rfl
@[simp] theorem State.setFlags_discs (s : State) (f : Flags) : (s.setFlags f).discs = s.discs := rfl
@[simp] theorem State.setFlags_tapes (s : State) (f : Flags) : (s.setFlags f).tapes = s.tapes := rfl
@[simp] theorem State.setFlags_nets (s : State) (f : Flags) : (s.setFlags f).nets = s.nets := rfl
@[simp] theorem State.setFlags_netSent (s : State) (f : Flags) : (s.setFlags f).netSent = s.netSent := rfl
@[simp] theorem State.setFlags_clock (s : State) (f : Flags) : (s.setFlags f).clock = s.clock := rfl
@[simp] theorem State.setFlags_stopReason (s : State) (f : Flags) : (s.setFlags f).stopReason = if f.r then s.stopReason else some .rWritten := rfl
@[simp] theorem State.setFlags_params (s : State) (f : Flags) : (s.setFlags f).params = s.params := rfl
@[simp] theorem State.setFlags_host (s : State) (f : Flags) : (s.setFlags f).host = s.host := rfl
@[simp] theorem State.setFlags_draws (s : State) (f : Flags) : (s.setFlags f).draws = s.draws := rfl
@[simp] theorem State.setFlags_interrupted (s : State) (f : Flags) : (s.setFlags f).interrupted = s.interrupted := rfl
@[simp] theorem State.setFlags_gateFrames (s : State) (f : Flags) : (s.setFlags f).gateFrames = s.gateFrames := rfl

/-! ### stop -/

@[simp] theorem State.stop_gpr (s : State) (c : IntCode) : (s.stop c).gpr = s.gpr := rfl
@[simp] theorem State.stop_pc (s : State) (c : IntCode) : (s.stop c).pc = s.pc := rfl
@[simp] theorem State.stop_pdbr (s : State) (c : IntCode) : (s.stop c).pdbr = s.pdbr := rfl
@[simp] theorem State.stop_intvec (s : State) (c : IntCode) : (s.stop c).intvec = s.intvec := rfl
@[simp] theorem State.stop_cgbr (s : State) (c : IntCode) : (s.stop c).cgbr = s.cgbr := rfl
@[simp] theorem State.stop_cglen (s : State) (c : IntCode) : (s.stop c).cglen = s.cglen := rfl
@[simp] theorem State.stop_debug (s : State) (c : IntCode) : (s.stop c).debug = s.debug := rfl
@[simp] theorem State.stop_timer (s : State) (c : IntCode) : (s.stop c).timer = s.timer := rfl
@[simp] theorem State.stop_sysSp (s : State) (c : IntCode) : (s.stop c).sysSp = s.sysSp := rfl
@[simp] theorem State.stop_sysFp (s : State) (c : IntCode) : (s.stop c).sysFp = s.sysFp := rfl
@[simp] theorem State.stop_usrSp (s : State) (c : IntCode) : (s.stop c).usrSp = s.usrSp := rfl
@[simp] theorem State.stop_usrFp (s : State) (c : IntCode) : (s.stop c).usrFp = s.usrFp := rfl
@[simp] theorem State.stop_flags (s : State) (c : IntCode) : (s.stop c).flags = { s.flags with r := false } := rfl
@[simp] theorem State.stop_mem (s : State) (c : IntCode) : (s.stop c).mem = s.mem := rfl
@[simp] theorem State.stop_kbuf (s : State) (c : IntCode) : (s.stop c).kbuf = s.kbuf := rfl
@[simp] theorem State.stop_screen (s : State) (c : IntCode) : (s.stop c).screen = s.screen := rfl
@[simp] theorem State.stop_discs (s : State) (c : IntCode) : (s.stop c).discs = s.discs := rfl
@[simp] theorem State.stop_tapes (s : State) (c : IntCode) : (s.stop c).tapes = s.tapes := rfl
@[simp] theorem State.stop_nets (s : State) (c : IntCode) : (s.stop c).nets = s.nets := rfl
@[simp] theorem State.stop_netSent (s : State) (c : IntCode) : (s.stop c).netSent = s.netSent := rfl
@[simp] theorem State.stop_clock (s : State) (c : IntCode) : (s.stop c).clock = s.clock := rfl
@[simp] theorem State.stop_stopReason (s : State) (c : IntCode) : (s.stop c).stopReason = some (.fatalInterrupt c) := rfl
@[simp] theorem State.stop_params (s : State) (c : IntCode) : (s.stop c).params = s.params := rfl
@[simp] theorem State.stop_host (s : State) (c : IntCode) : (s.stop c).host = s.host := rfl
@[simp] theorem State.stop_draws (s : State) (c : IntCode) : (s.stop c).draws = s.draws := rfl
@[simp] theorem State.stop_interrupted (s : State) (c : IntCode) : (s.stop c).interrupted = s.interrupted := rfl
@[simp] theorem State.stop_gateFrames (s : State) (c : IntCode) : (s.stop c).gateFrames = s.gateFrames := rfl

/-! ### setDisc -/

@[simp] theorem State.setDisc_gpr (s : State) (i : Fin 8) (d : Disc) : (s.setDisc i d).gpr = s.gpr := rfl
@[simp] theorem State.setDisc_pc (s : State) (i : Fin 8) (d : Disc) : (s.setDisc i d).pc = s.pc := rfl
@[simp] theorem State.setDisc_pdbr (s : State) (i : Fin 8) (d : Disc) : (s.setDisc i d).pdbr = s.pdbr := rfl
@[simp] theorem State.setDisc_intvec (s : State) (i : Fin 8) (d : Disc) : (s.setDisc i d).intvec = s.intvec := rfl
@[simp] theorem State.setDisc_cgbr (s : State) (i : Fin 8) (d : Disc) : (s.setDisc i d).cgbr = s.cgbr := rfl
@[simp] theorem State.setDisc_cglen (s : State) (i : Fin 8) (d : Disc) : (s.setDisc i d).cglen = s.cglen := rfl
@[simp] theorem State.setDisc_debug (s : State) (i : Fin 8) (d : Disc) : (s.setDisc i d).debug = s.debug := rfl
@[simp] theorem State.setDisc_timer (s : State) (i : Fin 8) (d : Disc) : (s.setDisc i d).timer = s.timer := rfl
@[simp] theorem State.setDisc_sysSp (s : State) (i : Fin 8) (d : Disc) : (s.setDisc i d).sysSp = s.sysSp := rfl
@[simp] theorem State.setDisc_sysFp (s : State) (i : Fin 8) (d : Disc) : (s.setDisc i d).sysFp = s.sysFp := rfl
@[simp] theorem State.setDisc_usrSp (s : State) (i : Fin 8) (d : Disc) : (s.setDisc i d).usrSp = s.usrSp := rfl
@[simp] theorem State.setDisc_usrFp (s : State) (i : Fin 8) (d : Disc) : (s.setDisc i d).usrFp = s.usrFp := rfl
@[simp] theorem State.setDisc_flags (s : State) (i : Fin 8) (d : Disc) : (s.setDisc i d).flags = s.flags := rfl
@[simp] theorem State.setDisc_mem (s : State) (i : Fin 8) (d : Disc) : (s.setDisc i d).mem = s.mem := rfl
@[simp] theorem State.setDisc_kbuf (s : State) (i : Fin 8) (d : Disc) : (s.setDisc i d).kbuf = s.kbuf := rfl
@[simp] theorem State.setDisc_screen (s : State) (i : Fin 8) (d : Disc) : (s.setDisc i d).screen = s.screen := rfl
@[simp] theorem State.setDisc_discs (s : State) (i : Fin 8) (d : Disc) : (s.setDisc i d).discs = s.discs.set i (some d) := rfl
@[simp] theorem State.setDisc_tapes (s : State) (i : Fin 8) (d : Disc) : (s.setDisc i d).tapes = s.tapes := rfl
@[simp] theorem State.setDisc_nets (s : State) (i : Fin 8) (d : Disc) : (s.setDisc i d).nets = s.nets := rfl
@[simp] theorem State.setDisc_netSent (s : State) (i : Fin 8) (d : Disc) : (s.setDisc i d).netSent = s.netSent := rfl
@[simp] theorem State.setDisc_clock (s : State) (i : Fin 8) (d : Disc) : (s.setDisc i d).clock = s.clock := rfl
@[simp] theorem State.setDisc_stopReason (s : State) (i : Fin 8) (d : Disc) : (s.setDisc i d).stopReason = s.stopReason := rfl
@[simp] theorem State.setDisc_params (s : State) (i : Fin 8) (d : Disc) : (s.setDisc i d).params = s.params := rfl
@[simp] theorem State.setDisc_host (s : State) (i : Fin 8) (d : Disc) : (s.setDisc i d).host = s.host := rfl
@[simp] theorem State.setDisc_draws (s : State) (i : Fin 8) (d : Disc) : (s.setDisc i d).draws = s.draws := rfl
@[simp] theorem State.setDisc_interrupted (s : State) (i : Fin 8) (d : Disc) : (s.setDisc i d).interrupted = s.interrupted := rfl
@[simp] theorem State.setDisc_gateFrames (s : State) (i : Fin 8) (d : Disc) : (s.setDisc i d).gateFrames = s.gateFrames := rfl

/-! ### setTape -/

@[simp] theorem State.setTape_gpr (s : State) (i : Fin 8) (t : Option Tape) : (s.setTape i t).gpr = s.gpr := rfl
@[simp] theorem State.setTape_pc (s : State) (i : Fin 8) (t : Option Tape) : (s.setTape i t).pc = s.pc := rfl
@[simp] theorem State.setTape_pdbr (s : State) (i : Fin 8) (t : Option Tape) : (s.setTape i t).pdbr = s.pdbr := rfl
@[simp] theorem State.setTape_intvec (s : State) (i : Fin 8) (t : Option Tape) : (s.setTape i t).intvec = s.intvec := rfl
@[simp] theorem State.setTape_cgbr (s : State) (i : Fin 8) (t : Option Tape) : (s.setTape i t).cgbr = s.cgbr := rfl
@[simp] theorem State.setTape_cglen (s : State) (i : Fin 8) (t : Option Tape) : (s.setTape i t).cglen = s.cglen := rfl
@[simp] theorem State.setTape_debug (s : State) (i : Fin 8) (t : Option Tape) : (s.setTape i t).debug = s.debug := rfl
@[simp] theorem State.setTape_timer (s : State) (i : Fin 8) (t : Option Tape) : (s.setTape i t).timer = s.timer := rfl
@[simp] theorem State.setTape_sysSp (s : State) (i : Fin 8) (t : Option Tape) : (s.setTape i t).sysSp = s.sysSp := rfl
@[simp] theorem State.setTape_sysFp (s : State) (i : Fin 8) (t : Option Tape) : (s.setTape i t).sysFp = s.sysFp := rfl
@[simp] theorem State.setTape_usrSp (s : State) (i : Fin 8) (t : Option Tape) : (s.setTape i t).usrSp = s.usrSp := rfl
@[simp] theorem State.setTape_usrFp (s : State) (i : Fin 8) (t : Option Tape) : (s.setTape i t).usrFp = s.usrFp := rfl
@[simp] theorem State.setTape_flags (s : State) (i : Fin 8) (t : Option Tape) : (s.setTape i t).flags = s.flags := rfl
@[simp] theorem State.setTape_mem (s : State) (i : Fin 8) (t : Option Tape) : (s.setTape i t).mem = s.mem := rfl
@[simp] theorem State.setTape_kbuf (s : State) (i : Fin 8) (t : Option Tape) : (s.setTape i t).kbuf = s.kbuf := rfl
@[simp] theorem State.setTape_screen (s : State) (i : Fin 8) (t : Option Tape) : (s.setTape i t).screen = s.screen := rfl
@[simp] theorem State.setTape_discs (s : State) (i : Fin 8) (t : Option Tape) : (s.setTape i t).discs = s.discs := rfl
@[simp] theorem State.setTape_tapes (s : State) (i : Fin 8) (t : Option Tape) : (s.setTape i t).tapes = s.tapes.set i t := rfl
@[simp] theorem State.setTape_nets (s : State) (i : Fin 8) (t : Option Tape) : (s.setTape i t).nets = s.nets := rfl
@[simp] theorem State.setTape_netSent (s : State) (i : Fin 8) (t : Option Tape) : (s.setTape i t).netSent = s.netSent := rfl
@[simp] theorem State.setTape_clock (s : State) (i : Fin 8) (t : Option Tape) : (s.setTape i t).clock = s.clock := rfl
@[simp] theorem State.setTape_stopReason (s : State) (i : Fin 8) (t : Option Tape) : (s.setTape i t).stopReason = s.stopReason := rfl
@[simp] theorem State.setTape_params (s : State) (i : Fin 8) (t : Option Tape) : (s.setTape i t).params = s.params := rfl
@[simp] theorem State.setTape_host (s : State) (i : Fin 8) (t : Option Tape) : (s.setTape i t).host = s.host := rfl
@[simp] theorem State.setTape_draws (s : State) (i : Fin 8) (t : Option Tape) : (s.setTape i t).draws = s.draws := rfl
@[simp] theorem State.setTape_interrupted (s : State) (i : Fin 8) (t : Option Tape) : (s.setTape i t).interrupted = s.interrupted := rfl
@[simp] theorem State.setTape_gateFrames (s : State) (i : Fin 8) (t : Option Tape) : (s.setTape i t).gateFrames = s.gateFrames := rfl

/-! ### setNet -/

@[simp] theorem State.setNet_gpr (s : State) (i : Fin 2) (u : Option NetUnit) : (s.setNet i u).gpr = s.gpr := rfl
@[simp] theorem State.setNet_pc (s : State) (i : Fin 2) (u : Option NetUnit) : (s.setNet i u).pc = s.pc := rfl
@[simp] theorem State.setNet_pdbr (s : State) (i : Fin 2) (u : Option NetUnit) : (s.setNet i u).pdbr = s.pdbr := rfl
@[simp] theorem State.setNet_intvec (s : State) (i : Fin 2) (u : Option NetUnit) : (s.setNet i u).intvec = s.intvec := rfl
@[simp] theorem State.setNet_cgbr (s : State) (i : Fin 2) (u : Option NetUnit) : (s.setNet i u).cgbr = s.cgbr := rfl
@[simp] theorem State.setNet_cglen (s : State) (i : Fin 2) (u : Option NetUnit) : (s.setNet i u).cglen = s.cglen := rfl
@[simp] theorem State.setNet_debug (s : State) (i : Fin 2) (u : Option NetUnit) : (s.setNet i u).debug = s.debug := rfl
@[simp] theorem State.setNet_timer (s : State) (i : Fin 2) (u : Option NetUnit) : (s.setNet i u).timer = s.timer := rfl
@[simp] theorem State.setNet_sysSp (s : State) (i : Fin 2) (u : Option NetUnit) : (s.setNet i u).sysSp = s.sysSp := rfl
@[simp] theorem State.setNet_sysFp (s : State) (i : Fin 2) (u : Option NetUnit) : (s.setNet i u).sysFp = s.sysFp := rfl
@[simp] theorem State.setNet_usrSp (s : State) (i : Fin 2) (u : Option NetUnit) : (s.setNet i u).usrSp = s.usrSp := rfl
@[simp] theorem State.setNet_usrFp (s : State) (i : Fin 2) (u : Option NetUnit) : (s.setNet i u).usrFp = s.usrFp := rfl
@[simp] theorem State.setNet_flags (s : State) (i : Fin 2) (u : Option NetUnit) : (s.setNet i u).flags = s.flags := rfl
@[simp] theorem State.setNet_mem (s : State) (i : Fin 2) (u : Option NetUnit) : (s.setNet i u).mem = s.mem := rfl
@[simp] theorem State.setNet_kbuf (s : State) (i : Fin 2) (u : Option NetUnit) : (s.setNet i u).kbuf = s.kbuf := rfl
@[simp] theorem State.setNet_screen (s : State) (i : Fin 2) (u : Option NetUnit) : (s.setNet i u).screen = s.screen := rfl
@[simp] theorem State.setNet_discs (s : State) (i : Fin 2) (u : Option NetUnit) : (s.setNet i u).discs = s.discs := rfl
@[simp] theorem State.setNet_tapes (s : State) (i : Fin 2) (u : Option NetUnit) : (s.setNet i u).tapes = s.tapes := rfl
@[simp] theorem State.setNet_nets (s : State) (i : Fin 2) (u : Option NetUnit) : (s.setNet i u).nets = s.nets.set i u := rfl
@[simp] theorem State.setNet_netSent (s : State) (i : Fin 2) (u : Option NetUnit) : (s.setNet i u).netSent = s.netSent := rfl
@[simp] theorem State.setNet_clock (s : State) (i : Fin 2) (u : Option NetUnit) : (s.setNet i u).clock = s.clock := rfl
@[simp] theorem State.setNet_stopReason (s : State) (i : Fin 2) (u : Option NetUnit) : (s.setNet i u).stopReason = s.stopReason := rfl
@[simp] theorem State.setNet_params (s : State) (i : Fin 2) (u : Option NetUnit) : (s.setNet i u).params = s.params := rfl
@[simp] theorem State.setNet_host (s : State) (i : Fin 2) (u : Option NetUnit) : (s.setNet i u).host = s.host := rfl
@[simp] theorem State.setNet_draws (s : State) (i : Fin 2) (u : Option NetUnit) : (s.setNet i u).draws = s.draws := rfl
@[simp] theorem State.setNet_interrupted (s : State) (i : Fin 2) (u : Option NetUnit) : (s.setNet i u).interrupted = s.interrupted := rfl
@[simp] theorem State.setNet_gateFrames (s : State) (i : Fin 2) (u : Option NetUnit) : (s.setNet i u).gateFrames = s.gateFrames := rfl

/-! ### print -/

@[simp] theorem State.print_gpr (s : State) (bs : List Byte) : (s.print bs).gpr = s.gpr := rfl
@[simp] theorem State.print_pc (s : State) (bs : List Byte) : (s.print bs).pc = s.pc := rfl
@[simp] theorem State.print_pdbr (s : State) (bs : List Byte) : (s.print bs).pdbr = s.pdbr := rfl
@[simp] theorem State.print_intvec (s : State) (bs : List Byte) : (s.print bs).intvec = s.intvec := rfl
@[simp] theorem State.print_cgbr (s : State) (bs : List Byte) : (s.print bs).cgbr = s.cgbr := rfl
@[simp] theorem State.print_cglen (s : State) (bs : List Byte) : (s.print bs).cglen = s.cglen := rfl
@[simp] theorem State.print_debug (s : State) (bs : List Byte) : (s.print bs).debug = s.debug := rfl
@[simp] theorem State.print_timer (s : State) (bs : List Byte) : (s.print bs).timer = s.timer := rfl
@[simp] theorem State.print_sysSp (s : State) (bs : List Byte) : (s.print bs).sysSp = s.sysSp := rfl
@[simp] theorem State.print_sysFp (s : State) (bs : List Byte) : (s.print bs).sysFp = s.sysFp := rfl
@[simp] theorem State.print_usrSp (s : State) (bs : List Byte) : (s.print bs).usrSp = s.usrSp := rfl
@[simp] theorem State.print_usrFp (s : State) (bs : List Byte) : (s.print bs).usrFp = s.usrFp := rfl
@[simp] theorem State.print_flags (s : State) (bs : List Byte) : (s.print bs).flags = s.flags := rfl
@[simp] theorem State.print_mem (s : State) (bs : List Byte) : (s.print bs).mem = s.mem := rfl
@[simp] theorem State.print_kbuf (s : State) (bs : List Byte) : (s.print bs).kbuf = s.kbuf := rfl
@[simp] theorem State.print_screen (s : State) (bs : List Byte) : (s.print bs).screen = s.screen ++ bs := rfl
@[simp] theorem State.print_discs (s : State) (bs : List Byte) : (s.print bs).discs = s.discs := rfl
@[simp] theorem State.print_tapes (s : State) (bs : List Byte) : (s.print bs).tapes = s.tapes := rfl
@[simp] theorem State.print_nets (s : State) (bs : List Byte) : (s.print bs).nets = s.nets := rfl
@[simp] theorem State.print_netSent (s : State) (bs : List Byte) : (s.print bs).netSent = s.netSent := rfl
@[simp] theorem State.print_clock (s : State) (bs : List Byte) : (s.print bs).clock = s.clock := rfl
@[simp] theorem State.print_stopReason (s : State) (bs : List Byte) : (s.print bs).stopReason = s.stopReason := rfl
@[simp] theorem State.print_params (s : State) (bs : List Byte) : (s.print bs).params = s.params := rfl
@[simp] theorem State.print_host (s : State) (bs : List Byte) : (s.print bs).host = s.host := rfl
@[simp] theorem State.print_draws (s : State) (bs : List Byte) : (s.print bs).draws = s.draws := rfl
@[simp] theorem State.print_interrupted (s : State) (bs : List Byte) : (s.print bs).interrupted = s.interrupted := rfl
@[simp] theorem State.print_gateFrames (s : State) (bs : List Byte) : (s.print bs).gateFrames = s.gateFrames := rfl

/-! ### setSp -/

@[simp] theorem State.setSp_gpr (s : State) (v : Word) : (s.setSp v).gpr = s.gpr := by
  unfold State.setSp; split <;> rfl
@[simp] theorem State.setSp_pc (s : State) (v : Word) : (s.setSp v).pc = s.pc := by
  unfold State.setSp; split <;> rfl
@[simp] theorem State.setSp_pdbr (s : State) (v : Word) : (s.setSp v).pdbr = s.pdbr := by
  unfold State.setSp; split <;> rfl
@[simp] theorem State.setSp_intvec (s : State) (v : Word) : (s.setSp v).intvec = s.intvec := by
  unfold State.setSp; split <;> rfl
@[simp] theorem State.setSp_cgbr (s : State) (v : Word) : (s.setSp v).cgbr = s.cgbr := by
  unfold State.setSp; split <;> rfl
@[simp] theorem State.setSp_cglen (s : State) (v : Word) : (s.setSp v).cglen = s.cglen := by
  unfold State.setSp; split <;> rfl
@[simp] theorem State.setSp_debug (s : State) (v : Word) : (s.setSp v).debug = s.debug := by
  unfold State.setSp; split <;> rfl
@[simp] theorem State.setSp_timer (s : State) (v : Word) : (s.setSp v).timer = s.timer := by
  unfold State.setSp; split <;> rfl
@[simp] theorem State.setSp_sysSp (s : State) (v : Word) : (s.setSp v).sysSp = if s.flags.sys then v else s.sysSp := by
  unfold State.setSp; split <;> rfl
@[simp] theorem State.setSp_sysFp (s : State) (v : Word) : (s.setSp v).sysFp = s.sysFp := by
  unfold State.setSp; split <;> rfl
@[simp] theorem State.setSp_usrSp (s : State) (v : Word) : (s.setSp v).usrSp = if s.flags.sys then s.usrSp else v := by
  unfold State.setSp; split <;> rfl
@[simp] theorem State.setSp_usrFp (s : State) (v : Word) : (s.setSp v).usrFp = s.usrFp := by
  unfold State.setSp; split <;> rfl
@[simp] theorem State.setSp_flags (s : State) (v : Word) : (s.setSp v).flags = s.flags := by
  unfold State.setSp; split <;> rfl
@[simp] theorem State.setSp_mem (s : State) (v : Word) : (s.setSp v).mem = s.mem := by
  unfold State.setSp; split <;> rfl
@[simp] theorem State.setSp_kbuf (s : State) (v : Word) : (s.setSp v).kbuf = s.kbuf := by
  unfold State.setSp; split <;> rfl
@[simp] theorem State.setSp_screen (s : State) (v : Word) : (s.setSp v).screen = s.screen := by
  unfold State.setSp; split <;> rfl
@[simp] theorem State.setSp_discs (s : State) (v : Word) : (s.setSp v).discs = s.discs := by
  unfold State.setSp; split <;> rfl
@[simp] theorem State.setSp_tapes (s : State) (v : Word) : (s.setSp v).tapes = s.tapes := by
  unfold State.setSp; split <;> rfl
@[simp] theorem State.setSp_nets (s : State) (v : Word) : (s.setSp v).nets = s.nets := by
  unfold State.setSp; split <;> rfl
@[simp] theorem State.setSp_netSent (s : State) (v : Word) : (s.setSp v).netSent = s.netSent := by
  unfold State.setSp; split <;> rfl
@[simp] theorem State.setSp_clock (s : State) (v : Word) : (s.setSp v).clock = s.clock := by
  unfold State.setSp; split <;> rfl
@[simp] theorem State.setSp_stopReason (s : State) (v : Word) : (s.setSp v).stopReason = s.stopReason := by
  unfold State.setSp; split <;> rfl
@[simp] theorem State.setSp_params (s : State) (v : Word) : (s.setSp v).params = s.params := by
  unfold State.setSp; split <;> rfl
@[simp] theorem State.setSp_host (s : State) (v : Word) : (s.setSp v).host = s.host := by
  unfold State.setSp; split <;> rfl
@[simp] theorem State.setSp_draws (s : State) (v : Word) : (s.setSp v).draws = s.draws := by
  unfold State.setSp; split <;> rfl
@[simp] theorem State.setSp_interrupted (s : State) (v : Word) : (s.setSp v).interrupted = s.interrupted := by
  unfold State.setSp; split <;> rfl
@[simp] theorem State.setSp_gateFrames (s : State) (v : Word) : (s.setSp v).gateFrames = s.gateFrames := by
  unfold State.setSp; split <;> rfl

/-! ### setFp -/

@[simp] theorem State.setFp_gpr (s : State) (v : Word) : (s.setFp v).gpr = s.gpr := by
  unfold State.setFp; split <;> rfl
@[simp] theorem State.setFp_pc (s : State) (v : Word) : (s.setFp v).pc = s.pc := by
  unfold State.setFp; split <;> rfl
@[simp] theorem State.setFp_pdbr (s : State) (v : Word) : (s.setFp v).pdbr = s.pdbr := by
  unfold State.setFp; split <;> rfl
@[simp] theorem State.setFp_intvec (s : State) (v : Word) : (s.setFp v).intvec = s.intvec := by
  unfold State.setFp; split <;> rfl
@[simp] theorem State.setFp_cgbr (s : State) (v : Word) : (s.setFp v).cgbr = s.cgbr := by
  unfold State.setFp; split <;> rfl
@[simp] theorem State.setFp_cglen (s : State) (v : Word) : (s.setFp v).cglen = s.cglen := by
  unfold State.setFp; split <;> rfl
@[simp] theorem State.setFp_debug (s : State) (v : Word) : (s.setFp v).debug = s.debug := by
  unfold State.setFp; split <;> rfl
@[simp] theorem State.setFp_timer (s : State) (v : Word) : (s.setFp v).timer = s.timer := by
  unfold State.setFp; split <;> rfl
@[simp] theorem State.setFp_sysSp (s : State) (v : Word) : (s.setFp v).sysSp = s.sysSp := by
  unfold State.setFp; split <;> rfl
@[simp] theorem State.setFp_sysFp (s : State) (v : Word) : (s.setFp v).sysFp = if s.flags.sys then v else s.sysFp := by
  unfold State.setFp; split <;> rfl
@[simp] theorem State.setFp_usrSp (s : State) (v : Word) : (s.setFp v).usrSp = s.usrSp := by
  unfold State.setFp; split <;> rfl
@[simp] theorem State.setFp_usrFp (s : State) (v : Word) : (s.setFp v).usrFp = if s.flags.sys then s.usrFp else v := by
  unfold State.setFp; split <;> rfl
@[simp] theorem State.setFp_flags (s : State) (v : Word) : (s.setFp v).flags = s.flags := by
  unfold State.setFp; split <;> rfl
@[simp] theorem State.setFp_mem (s : State) (v : Word) : (s.setFp v).mem = s.mem := by
  unfold State.setFp; split <;> rfl
@[simp] theorem State.setFp_kbuf (s : State) (v : Word) : (s.setFp v).kbuf = s.kbuf := by
  unfold State.setFp; split <;> rfl
@[simp] theorem State.setFp_screen (s : State) (v : Word) : (s.setFp v).screen = s.screen := by
  unfold State.setFp; split <;> rfl
@[simp] theorem State.setFp_discs (s : State) (v : Word) : (s.setFp v).discs = s.discs := by
  unfold State.setFp; split <;> rfl
@[simp] theorem State.setFp_tapes (s : State) (v : Word) : (s.setFp v).tapes = s.tapes := by
  unfold State.setFp; split <;> rfl
@[simp] theorem State.setFp_nets (s : State) (v : Word) : (s.setFp v).nets = s.nets := by
  unfold State.setFp; split <;> rfl
@[simp] theorem State.setFp_netSent (s : State) (v : Word) : (s.setFp v).netSent = s.netSent := by
  unfold State.setFp; split <;> rfl
@[simp] theorem State.setFp_clock (s : State) (v : Word) : (s.setFp v).clock = s.clock := by
  unfold State.setFp; split <;> rfl
@[simp] theorem State.setFp_stopReason (s : State) (v : Word) : (s.setFp v).stopReason = s.stopReason := by
  unfold State.setFp; split <;> rfl
@[simp] theorem State.setFp_params (s : State) (v : Word) : (s.setFp v).params = s.params := by
  unfold State.setFp; split <;> rfl
@[simp] theorem State.setFp_host (s : State) (v : Word) : (s.setFp v).host = s.host := by
  unfold State.setFp; split <;> rfl
@[simp] theorem State.setFp_draws (s : State) (v : Word) : (s.setFp v).draws = s.draws := by
  unfold State.setFp; split <;> rfl
@[simp] theorem State.setFp_interrupted (s : State) (v : Word) : (s.setFp v).interrupted = s.interrupted := by
  unfold State.setFp; split <;> rfl
@[simp] theorem State.setFp_gateFrames (s : State) (v : Word) : (s.setFp v).gateFrames = s.gateFrames := by
  unfold State.setFp; split <;> rfl

/-! ### Registers -/

@[simp] theorem State.setSp_sp (s : State) (v : Word) : (s.setSp v).sp = v := by
  unfold State.sp; cases h : s.flags.sys <;> simp [h]

@[simp] theorem State.setFp_fp (s : State) (v : Word) : (s.setFp v).fp = v := by
  unfold State.fp; cases h : s.flags.sys <;> simp [h]

@[simp] theorem State.setSp_fp (s : State) (v : Word) : (s.setSp v).fp = s.fp := by
  unfold State.fp; simp

@[simp] theorem State.setFp_sp (s : State) (v : Word) : (s.setFp v).sp = s.sp := by
  unfold State.sp; simp

/-- A register that was written reads as the value written. -/
@[simp] theorem State.setReg_reg_same (s : State) (m : Reg) (v : Word) : (s.setReg m v).reg m = v := by
  cases m <;> simp [State.setReg, State.reg]

/-- Every other register reads as before. -/
theorem State.setReg_reg_other (s : State) {m m' : Reg} (v : Word) (h : m' ≠ m) :
    (s.setReg m v).reg m' = s.reg m' := by
  cases m <;> cases m' <;> first
    | exact absurd rfl h
    | rfl
    | (simp [State.setReg, State.reg, State.sp, State.fp]; done)
    | (rename_i a b
       have hab : (b : Nat) ≠ a := fun e => h (by rw [Fin.ext e])
       simp [State.setReg, State.reg, hab.symm])

@[simp] theorem State.setReg_pdbr (s : State) (m : Reg) (v : Word) : (s.setReg m v).pdbr = s.pdbr := by
  cases m <;> simp [State.setReg]
@[simp] theorem State.setReg_intvec (s : State) (m : Reg) (v : Word) : (s.setReg m v).intvec = s.intvec := by
  cases m <;> simp [State.setReg]
@[simp] theorem State.setReg_cgbr (s : State) (m : Reg) (v : Word) : (s.setReg m v).cgbr = s.cgbr := by
  cases m <;> simp [State.setReg]
@[simp] theorem State.setReg_cglen (s : State) (m : Reg) (v : Word) : (s.setReg m v).cglen = s.cglen := by
  cases m <;> simp [State.setReg]
@[simp] theorem State.setReg_debug (s : State) (m : Reg) (v : Word) : (s.setReg m v).debug = s.debug := by
  cases m <;> simp [State.setReg]
@[simp] theorem State.setReg_timer (s : State) (m : Reg) (v : Word) : (s.setReg m v).timer = s.timer := by
  cases m <;> simp [State.setReg]
@[simp] theorem State.setReg_flags (s : State) (m : Reg) (v : Word) : (s.setReg m v).flags = s.flags := by
  cases m <;> simp [State.setReg]
@[simp] theorem State.setReg_mem (s : State) (m : Reg) (v : Word) : (s.setReg m v).mem = s.mem := by
  cases m <;> simp [State.setReg]
@[simp] theorem State.setReg_kbuf (s : State) (m : Reg) (v : Word) : (s.setReg m v).kbuf = s.kbuf := by
  cases m <;> simp [State.setReg]
@[simp] theorem State.setReg_screen (s : State) (m : Reg) (v : Word) : (s.setReg m v).screen = s.screen := by
  cases m <;> simp [State.setReg]
@[simp] theorem State.setReg_discs (s : State) (m : Reg) (v : Word) : (s.setReg m v).discs = s.discs := by
  cases m <;> simp [State.setReg]
@[simp] theorem State.setReg_tapes (s : State) (m : Reg) (v : Word) : (s.setReg m v).tapes = s.tapes := by
  cases m <;> simp [State.setReg]
@[simp] theorem State.setReg_nets (s : State) (m : Reg) (v : Word) : (s.setReg m v).nets = s.nets := by
  cases m <;> simp [State.setReg]
@[simp] theorem State.setReg_netSent (s : State) (m : Reg) (v : Word) : (s.setReg m v).netSent = s.netSent := by
  cases m <;> simp [State.setReg]
@[simp] theorem State.setReg_clock (s : State) (m : Reg) (v : Word) : (s.setReg m v).clock = s.clock := by
  cases m <;> simp [State.setReg]
@[simp] theorem State.setReg_stopReason (s : State) (m : Reg) (v : Word) : (s.setReg m v).stopReason = s.stopReason := by
  cases m <;> simp [State.setReg]
@[simp] theorem State.setReg_params (s : State) (m : Reg) (v : Word) : (s.setReg m v).params = s.params := by
  cases m <;> simp [State.setReg]
@[simp] theorem State.setReg_host (s : State) (m : Reg) (v : Word) : (s.setReg m v).host = s.host := by
  cases m <;> simp [State.setReg]
@[simp] theorem State.setReg_draws (s : State) (m : Reg) (v : Word) : (s.setReg m v).draws = s.draws := by
  cases m <;> simp [State.setReg]
@[simp] theorem State.setReg_interrupted (s : State) (m : Reg) (v : Word) : (s.setReg m v).interrupted = s.interrupted := by
  cases m <;> simp [State.setReg]
@[simp] theorem State.setReg_gateFrames (s : State) (m : Reg) (v : Word) : (s.setReg m v).gateFrames = s.gateFrames := by
  cases m <;> simp [State.setReg]

/-- Only the PC is changed by naming the PC. -/
theorem State.setReg_pc (s : State) {m : Reg} (v : Word) (h : m ≠ .pc) : (s.setReg m v).pc = s.pc := by
  cases m <;> simp_all [State.setReg]

/-- The stack registers of the other mode are untouched (10_state.md R12, R13). -/
theorem State.setReg_user_stack (s : State) (m : Reg) (v : Word) (h : s.flags.sys = true) :
    (s.setReg m v).usrSp = s.usrSp ∧ (s.setReg m v).usrFp = s.usrFp := by
  cases m <;> simp [State.setReg, h]

theorem State.setReg_system_stack (s : State) (m : Reg) (v : Word) (h : s.flags.sys = false) :
    (s.setReg m v).sysSp = s.sysSp ∧ (s.setReg m v).sysFp = s.sysFp := by
  cases m <;> simp [State.setReg, h]

end Sys2Proof.Machine
end

