-- ==== Sys2Proof/Laws/Ops.lean ====
section
/-! SUPPORT. What each shared operation can do, said once: memory accesses, registers, the pushes of an entry, the delivery
of an interrupt, the outcome of an instruction. Later proofs cite these and unfold nothing. -/

namespace Sys2Proof.Machine

/-! ### Physical memory -/

theorem State.physRead_ok {s : State} {pa : Word} (h : pa.toNat < s.params.physWords) :
    s.physRead pa = .ok (s.memWord pa.toNat) := by simp [State.physRead, h]

theorem State.physRead_fails {s : State} {pa : Word} (h : s.params.physWords ≤ pa.toNat) :
    s.physRead pa = .error (.trap ⟨.memory, pa, none⟩) := by simp [State.physRead, Nat.not_lt.mpr h]

theorem State.physRead_cases {s : State} {pa w : Word} (h : s.physRead pa = .ok w) :
    pa.toNat < s.params.physWords ∧ w = s.memWord pa.toNat := by
  unfold State.physRead at h
  split at h
  · exact ⟨‹_›, by simpa using h.symm⟩
  · cases h

theorem State.physRead_error {s : State} {pa : Word} {e : Stop} (h : s.physRead pa = .error e) :
    s.params.physWords ≤ pa.toNat ∧ e = .trap ⟨.memory, pa, none⟩ := by
  unfold State.physRead at h
  split at h
  · cases h
  · exact ⟨by omega, by simpa using h.symm⟩

/-- A physical read depends on the memory and the parameters alone. -/
theorem State.physRead_congr {s t : State} (hm : t.mem = s.mem) (hp : t.params = s.params) (pa : Word) :
    t.physRead pa = s.physRead pa := by simp [State.physRead, State.memWord, hm, hp]

theorem State.memWord_congr {s t : State} (hm : t.mem = s.mem) (a : Nat) : t.memWord a = s.memWord a := by
  simp [State.memWord, hm]

theorem State.physWrite_ok {s : State} {pa : Word} (v : Word) (h : pa.toNat < s.params.physWords) :
    s.physWrite pa v = .ok (s.putWord pa.toNat v) := by simp [State.physWrite, h]

theorem State.physWrite_fails {s : State} {pa : Word} (v : Word) (h : s.params.physWords ≤ pa.toNat) :
    s.physWrite pa v = .error (.trap ⟨.memory, pa, none⟩) := by simp [State.physWrite, Nat.not_lt.mpr h]

theorem State.physWrite_cases {s t : State} {pa v : Word} (h : s.physWrite pa v = .ok t) :
    pa.toNat < s.params.physWords ∧ t = s.putWord pa.toNat v := by
  unfold State.physWrite at h
  split at h
  · exact ⟨‹_›, by simpa using h.symm⟩
  · cases h

theorem State.physWrite_error {s : State} {pa v : Word} {e : Stop} (h : s.physWrite pa v = .error e) :
    s.params.physWords ≤ pa.toNat ∧ e = .trap ⟨.memory, pa, none⟩ := by
  unfold State.physWrite at h
  split at h
  · cases h
  · exact ⟨by omega, by simpa using h.symm⟩

/-! ### Translation and operand accesses -/

theorem State.translate_vm_off {s : State} (h : s.flags.vm = false) (a : Word) : s.translate a = .ok a := by
  simp [State.translate, h]

/-- Translation depends on VM, SYS, PDBR, memory and the parameters alone. -/
theorem State.translate_congr {s t : State} (hv : t.flags.vm = s.flags.vm) (hs : t.flags.sys = s.flags.sys)
    (hd : t.pdbr = s.pdbr) (hm : t.mem = s.mem) (hp : t.params = s.params) (a : Word) :
    t.translate a = s.translate a := by
  simp [State.translate, hv, hs, hd, State.physRead_congr hm hp]

/-- The three interrupts a translation can end in. -/
theorem State.translate_error {s : State} {a : Word} {e : Stop} (h : s.translate a = .error e) :
    ∃ t : Trap, e = .trap t ∧ t.info = none ∧
      (t.code = .memory ∨ (t.code = .pagefault ∧ t.address = a) ∨ (t.code = .pagepriv ∧ t.address = a)) := by
  unfold State.translate at h
  split at h
  · cases h1 : s.physRead ((s.pdbr &&& 0xFFFFFC00) + dirField a) with
    | error e1 =>
      simp only [h1, bind, Except.bind] at h
      cases h
      exact ⟨_, (State.physRead_error h1).2, rfl, .inl rfl⟩
    | ok pde =>
      simp only [h1, bind, Except.bind] at h
      split at h
      · cases h; exact ⟨_, rfl, rfl, .inr (.inl ⟨rfl, rfl⟩)⟩
      · cases h2 : s.physRead ((pde &&& 0xFFFFF800) + pageField a) with
        | error e1 =>
          simp only [h2] at h
          cases h
          exact ⟨_, (State.physRead_error h2).2, rfl, .inl rfl⟩
        | ok pte =>
          simp only [h2] at h
          split at h
          · cases h; exact ⟨_, rfl, rfl, .inr (.inl ⟨rfl, rfl⟩)⟩
          · split at h
            · cases h; exact ⟨_, rfl, rfl, .inr (.inr ⟨rfl, rfl⟩)⟩
            · cases h
  · cases h

theorem State.readMem_of_translate {s : State} {a pa : Word} (h : s.translate a = .ok pa) :
    s.readMem a = s.physRead pa := by simp [State.readMem, h, bind, Except.bind]

theorem State.writeMem_of_translate {s : State} {a pa : Word} (v : Word) (h : s.translate a = .ok pa) :
    s.writeMem a v = s.physWrite pa v := by simp [State.writeMem, h, bind, Except.bind]

theorem State.readMem_congr {s t : State} (hv : t.flags.vm = s.flags.vm) (hs : t.flags.sys = s.flags.sys)
    (hd : t.pdbr = s.pdbr) (hm : t.mem = s.mem) (hp : t.params = s.params) (a : Word) :
    t.readMem a = s.readMem a := by
  have h := State.translate_congr hv hs hd hm hp a
  cases h1 : s.translate a with
  | error e => simp [State.readMem, h, h1, bind, Except.bind]
  | ok pa =>
    rw [State.readMem_of_translate (h.trans h1), State.readMem_of_translate h1, State.physRead_congr hm hp]

theorem State.readMem_error {s : State} {a : Word} {e : Stop} (h : s.readMem a = .error e) :
    ∃ t : Trap, e = .trap t ∧ t.info = none ∧
      (t.code = .memory ∨ (t.code = .pagefault ∧ t.address = a) ∨ (t.code = .pagepriv ∧ t.address = a)) := by
  cases h1 : s.translate a with
  | error e1 =>
    simp only [State.readMem, h1, bind, Except.bind] at h
    cases h
    exact State.translate_error h1
  | ok pa =>
    rw [State.readMem_of_translate h1] at h
    exact ⟨_, (State.physRead_error h).2, rfl, .inl rfl⟩

theorem State.readMem_cases {s : State} {a w : Word} (h : s.readMem a = .ok w) :
    ∃ pa, s.translate a = .ok pa ∧ pa.toNat < s.params.physWords ∧ w = s.memWord pa.toNat := by
  cases h1 : s.translate a with
  | error e1 => simp [State.readMem, h1, bind, Except.bind] at h
  | ok pa =>
    rw [State.readMem_of_translate h1] at h
    exact ⟨pa, rfl, State.physRead_cases h⟩

theorem State.writeMem_ok {s : State} {a pa : Word} (v : Word) (h : s.translate a = .ok pa)
    (hp : pa.toNat < s.params.physWords) : s.writeMem a v = .ok (s.putWord pa.toNat v) := by
  rw [State.writeMem_of_translate v h, State.physWrite_ok v hp]

theorem State.writeMem_cases {s t : State} {a v : Word} (h : s.writeMem a v = .ok t) :
    ∃ pa, s.translate a = .ok pa ∧ pa.toNat < s.params.physWords ∧ t = s.putWord pa.toNat v := by
  cases h1 : s.translate a with
  | error e1 => simp [State.writeMem, h1, bind, Except.bind] at h
  | ok pa =>
    rw [State.writeMem_of_translate v h1] at h
    exact ⟨pa, rfl, State.physWrite_cases h⟩

theorem State.writeMem_error {s : State} {a v : Word} {e : Stop} (h : s.writeMem a v = .error e) :
    ∃ t : Trap, e = .trap t := by
  cases h1 : s.translate a with
  | error e1 =>
    simp only [State.writeMem, h1, bind, Except.bind] at h
    cases h
    obtain ⟨t, ht, -⟩ := State.translate_error h1
    exact ⟨t, ht⟩
  | ok pa =>
    rw [State.writeMem_of_translate v h1] at h
    exact ⟨_, (State.physWrite_error h).2⟩

/-! ### The plain range -/

theorem State.PlainRange.read {s : State} {a : Word} {n : Nat} (h : PlainRange s a n) {j : Nat} (hj : j < n) :
    s.readMem (a + BitVec.ofNat 32 j) = .ok (s.memWord (a.toNat + j)) := by
  obtain ⟨h1, h2, h3⟩ := h
  have e : (a + BitVec.ofNat 32 j).toNat = a.toNat + j := by
    simp only [BitVec.toNat_add, BitVec.toNat_ofNat]; omega
  rw [State.readMem_of_translate (State.translate_vm_off h1 _), State.physRead_ok (by omega), e]

/-! ### Registers and the stack pointer -/

/-- `setSp` as a state. -/
theorem State.setSp_system {s : State} (h : s.flags.sys = true) (v : Word) : s.setSp v = { s with sysSp := v } := by
  simp [State.setSp, h]

theorem State.setSp_user {s : State} (h : s.flags.sys = false) (v : Word) : s.setSp v = { s with usrSp := v } := by
  simp [State.setSp, h]

@[simp] theorem State.setSp_setSp (s : State) (v w : Word) : (s.setSp v).setSp w = s.setSp w := by
  by_cases h : s.flags.sys = true <;> simp [State.setSp, h]

theorem State.setReg_otherStack (s : State) (m : Reg) (v : Word) : (s.setReg m v).otherStack = s.otherStack := by
  by_cases h : s.flags.sys = true <;> cases m <;>
    simp [State.setReg, State.otherStack, State.setSp, State.setFp, h]

/-- An instruction that writes a register and goes on. -/
theorem State.setReg_advance_wrote (s : State) {rd : Reg} (v : Word) (h : rd ≠ .pc) :
    WroteRegister s (s.setReg rd v).advance rd v := by
  have hreg : ∀ m : Reg, m ≠ .pc → (s.setReg rd v).advance.reg m = (s.setReg rd v).reg m := by
    intro m hm; cases m <;> first | rfl | exact absurd rfl hm
  have hpc : (s.setReg rd v).pc = s.pc := by
    cases rd with
    | pc => exact absurd rfl h
    | _ => simp [State.setReg]
  refine ⟨by rw [hreg rd h, State.setReg_reg_same], by simp [hpc], fun m h1 h2 => ?_, ?_, ?_, ?_, ?_, ?_⟩
  · rw [hreg m h2, State.setReg_reg_other s v h1]
  · exact State.setReg_otherStack s rd v
  all_goals cases rd <;>
    simp [State.setReg, SameFlags, SameControl, SameMemory, SameDevices, State.memWord]

theorem operandReg_ok {m : Reg} (h : m ≠ .pc) : operandReg m = .ok () := by
  cases m <;> first | rfl | exact absurd rfl h

theorem State.readReg_ok (s : State) {m : Reg} (h : m ≠ .pc) : s.readReg m = .ok (s.reg m) := by
  simp [State.readReg, operandReg_ok h, bind, Except.bind]

theorem State.writeReg_ok (s : State) {m : Reg} (h : m ≠ .pc) (v : Word) : s.writeReg m v = .ok (s.setReg m v) := by
  simp [State.writeReg, operandReg_ok h, bind, Except.bind]

theorem State.needSystem_ok {s : State} (h : s.flags.sys = true) : s.needSystem = .ok () := by
  simp [State.needSystem, h]

theorem State.needSystem_fails {s : State} (h : s.flags.sys = false) :
    s.needSystem = .error (.trap ⟨.privop, s.pc, none⟩) := by simp [State.needSystem, h]

/-- A stored word and the fields a store leaves alone. -/
theorem State.putWord_stored (s : State) (pa v : Word) : StoredAt s (s.putWord pa.toNat v) pa v :=
  ⟨State.putWord_memWord_same s _ v, fun _ h => State.putWord_memWord_other s v h⟩

/-! ### The push -/

theorem State.push_ok {s : State} {pa : Word} (v : Word) (h : s.translate (s.sp - 1) = .ok pa)
    (hp : pa.toNat < s.params.physWords) : s.push v = .ok ((s.putWord pa.toNat v).setSp (s.sp - 1)) := by
  simp only [State.push, State.writeMem_ok v h hp, bind, Except.bind]

theorem State.push_cases {s t : State} {v : Word} (h : s.push v = .ok t) :
    ∃ pa, s.translate (s.sp - 1) = .ok pa ∧ pa.toNat < s.params.physWords ∧
      t = (s.putWord pa.toNat v).setSp (s.sp - 1) := by
  cases h1 : s.writeMem (s.sp - 1) v with
  | error e => simp only [State.push, h1, bind, Except.bind] at h; cases h
  | ok u =>
    obtain ⟨pa, h2, h3, h4⟩ := State.writeMem_cases h1
    refine ⟨pa, h2, h3, ?_⟩
    simp only [State.push, h1, bind, Except.bind] at h
    cases h
    rw [h4]

theorem State.push_error {s : State} {v : Word} {e : Stop} (h : s.push v = .error e) : ∃ t : Trap, e = .trap t := by
  cases h1 : s.writeMem (s.sp - 1) v with
  | error e1 =>
    simp only [State.push, h1, bind, Except.bind] at h
    cases h
    exact State.writeMem_error h1
  | ok u => simp only [State.push, h1, bind, Except.bind] at h; cases h

theorem State.setSp_putWord_movedSp (s : State) (a : Nat) (v sp : Word) :
    MovedSp s ((s.putWord a v).setSp sp) sp := by
  by_cases h : s.flags.sys = true <;>
    simp [MovedSp, State.setSp, State.putWord, State.sp, State.fp, State.otherStack, h]

end Sys2Proof.Machine
end

