-- ==== Sys2Proof/Laws/Entry.lean ====
section
/-! SUPPORT. What the entry of an interrupt, its delivery and the outcome of an instruction can do. -/

namespace Sys2Proof.Machine

/-! ### Memories below a bound -/

theorem Memory.write_wfBelow {m : Memory} {b a : Nat} (h : Memory.wfBelow m b) (ha : a < b) (v : Word) :
    Memory.wfBelow (Memory.write m a v) b := by
  refine ⟨Memory.write_wf h.1 a v, fun e he => ?_⟩
  rcases Memory.mem_write he with he | he
  · omega
  · exact h.2 e he

theorem Memory.writeRun_wfBelow {m : Memory} {b a : Nat} (h : Memory.wfBelow m b) (ws : List Word)
    (ha : a + ws.length ≤ b) : Memory.wfBelow (Memory.writeRun m a ws) b := by
  refine ⟨Memory.writeRun_wf ws h.1 a, fun e he => ?_⟩
  rcases Memory.mem_writeRun ws he with he | he
  · omega
  · exact h.2 e he

/-! ### The pushes of an entry -/

/-- A run of pushes in system mode changes the system stack pointer and the memory it touches, nothing else. -/
theorem pushAll_shape (vs : List Word) (s : State) (h : s.flags.sys = true) :
    ∃ (sp : Word) (m : Memory) (g : List Nat),
      (pushAll vs s).state = { s with sysSp := sp, mem := m, gateFrames := g } ∧
      (∀ a, a ∉ (pushAll vs s).touched → Memory.read m a = Memory.read s.mem a) ∧
      (∀ a ∈ (pushAll vs s).touched, a < s.params.physWords) ∧
      (Memory.wfBelow s.mem s.params.physWords → Memory.wfBelow m s.params.physWords) ∧
      (∀ a ∈ g, a ∈ s.gateFrames ∧ a ∉ (pushAll vs s).touched) ∧
      ((pushAll vs s).complete = true → sp = s.sysSp - BitVec.ofNat 32 vs.length) := by
  induction vs generalizing s with
  | nil => exact ⟨s.sysSp, s.mem, s.gateFrames, rfl, fun _ _ => rfl, by simp [pushAll], id, by simp [pushAll], by simp⟩
  | cons v vs ih =>
    have hsp : s.sp = s.sysSp := by simp [State.sp, h]
    cases ht : s.translate (s.sp - 1) with
    | error e =>
      have hrun : pushAll (v :: vs) s = ⟨s, [], false⟩ := by simp only [pushAll, ht]
      rw [hrun]
      exact ⟨s.sysSp, s.mem, s.gateFrames, rfl, fun _ _ => rfl, by simp, id, by simp, by simp⟩
    | ok pa =>
      by_cases hp : pa.toNat < s.params.physWords
      · have hw := State.physWrite_ok v hp
        have hset : (s.putWord pa.toNat v).setSp (s.sp - 1) =
            { s.putWord pa.toNat v with sysSp := s.sysSp - 1 } := by
          rw [State.setSp_system (by simpa using h), hsp]
        obtain ⟨sp, m, g, h1, h2, h3, h4, h6, h5⟩ :=
          ih ((s.putWord pa.toNat v).setSp (s.sp - 1)) (by simpa [hset] using h)
        have hrun : pushAll (v :: vs) s =
            ⟨(pushAll vs ((s.putWord pa.toNat v).setSp (s.sp - 1))).state,
             pa.toNat :: (pushAll vs ((s.putWord pa.toNat v).setSp (s.sp - 1))).touched,
             (pushAll vs ((s.putWord pa.toNat v).setSp (s.sp - 1))).complete⟩ := by
          simp only [pushAll, ht, hw]
        rw [hrun]
        refine ⟨sp, m, g, ?_, ?_, ?_, ?_, ?_, ?_⟩
        · rw [h1, hset]; rfl
        · intro a ha
          simp only [List.mem_cons, not_or] at ha
          rw [h2 a ha.2, hset]
          exact Memory.read_write_other s.mem v ha.1
        · intro a ha
          rcases List.mem_cons.mp ha with ha | ha
          · omega
          · simpa [hset] using h3 a ha
        · intro hwf
          have := h4 (by rw [hset]; exact Memory.write_wfBelow hwf hp v)
          simpa [hset] using this
        · intro a ha
          have ha' := h6 a ha
          rw [hset] at ha'
          simp only [State.putWord_gateFrames, List.mem_filter, decide_eq_true_eq] at ha'
          exact ⟨ha'.1.1, by simp only [List.mem_cons, not_or]; exact ⟨ha'.1.2, by rw [hset]; exact ha'.2⟩⟩
        · intro hc
          rw [h5 hc, hset]
          simp only [List.length_cons]
          bv_omega
      · have hw := State.physWrite_fails v (Nat.not_lt.mp hp)
        have hrun : pushAll (v :: vs) s = ⟨s, [], false⟩ := by simp only [pushAll, ht, hw]
        rw [hrun]
        exact ⟨s.sysSp, s.mem, s.gateFrames, rfl, fun _ _ => rfl, by simp, id, by simp, by simp⟩

/-! ### A push that fails fails again (70_reset_and_hazards.md R249) -/

/-- The word below SP cannot be written. -/
def State.CannotPush (s : State) : Prop :=
  ∀ pa : Word, s.translate (s.sp - 1) = .ok pa → s.params.physWords ≤ pa.toNat

theorem pushAll_cannot {s : State} (h : s.CannotPush) (v : Word) (vs : List Word) :
    pushAll (v :: vs) s = ⟨s, [], false⟩ := by
  cases ht : s.translate (s.sp - 1) with
  | error e => simp only [pushAll, ht]
  | ok pa => simp only [pushAll, ht, State.physWrite_fails v (h pa ht)]

/-- Where a run of pushes stopped, no push can be done. -/
theorem pushAll_incomplete (vs : List Word) (s : State) (h : (pushAll vs s).complete = false) :
    (pushAll vs s).state.CannotPush := by
  induction vs generalizing s with
  | nil => cases h
  | cons v vs ih =>
    cases ht : s.translate (s.sp - 1) with
    | error e =>
      simp only [pushAll, ht]
      intro pa hpa
      rw [ht] at hpa
      cases hpa
    | ok pa =>
      cases hw : s.physWrite pa v with
      | error e =>
        simp only [pushAll, ht, hw]
        intro pa' hpa
        rw [ht] at hpa
        cases hpa
        exact (State.physWrite_error hw).1
      | ok t =>
        simp only [pushAll, ht, hw] at h ⊢
        exact ih _ h

/-- Whether a push can be done depends on SP, translation and memory alone. -/
theorem State.CannotPush.congr {s t : State} (h : s.CannotPush) (hv : t.flags.vm = s.flags.vm)
    (hs : t.flags.sys = s.flags.sys) (hd : t.pdbr = s.pdbr) (hm : t.mem = s.mem) (hp : t.params = s.params)
    (hsp : t.sp = s.sp) : t.CannotPush := by
  intro pa hpa
  rw [State.translate_congr hv hs hd hm hp, hsp] at hpa
  rw [hp]
  exact h pa hpa

/-- With VM off and room below the system stack pointer a run of pushes is complete, and its words lie there. -/
theorem pushAll_plain (vs : List Word) (s : State) (h : s.flags.sys = true) (hv : s.flags.vm = false)
    (hlow : vs.length ≤ s.sysSp.toNat) (hhigh : s.sysSp.toNat ≤ s.params.physWords) :
    (pushAll vs s).complete = true ∧
      (pushAll vs s).touched = (List.range vs.length).map (fun j => s.sysSp.toNat - 1 - j) ∧
      FrameBelow s (pushAll vs s).state s.sysSp vs := by
  induction vs generalizing s with
  | nil => exact ⟨rfl, rfl, by simp [FrameBelow, pushAll]⟩
  | cons v vs ih =>
    have hsp : s.sp = s.sysSp := by simp [State.sp, h]
    simp only [List.length_cons] at hlow
    have e1 : (s.sysSp - 1).toNat = s.sysSp.toNat - 1 := by bv_omega
    have ht := State.translate_vm_off hv (s.sp - 1)
    have hp : (s.sp - 1).toNat < s.params.physWords := by rw [hsp, e1]; omega
    have hset : (s.putWord (s.sp - 1).toNat v).setSp (s.sp - 1) =
        { s.putWord (s.sp - 1).toNat v with sysSp := s.sysSp - 1 } := by
      rw [State.setSp_system (by simpa using h), hsp]
    have hrun : pushAll (v :: vs) s =
        ⟨(pushAll vs ((s.putWord (s.sp - 1).toNat v).setSp (s.sp - 1))).state,
         (s.sp - 1).toNat :: (pushAll vs ((s.putWord (s.sp - 1).toNat v).setSp (s.sp - 1))).touched,
         (pushAll vs ((s.putWord (s.sp - 1).toNat v).setSp (s.sp - 1))).complete⟩ := by
      simp only [pushAll, ht, State.physWrite_ok v hp]
    obtain ⟨i1, i2, i3, i4⟩ := ih ((s.putWord (s.sp - 1).toNat v).setSp (s.sp - 1))
      (by simpa [hset] using h) (by simpa [hset] using hv)
      (by rw [hset]; simp only [e1]; omega) (by rw [hset]; simp only [e1, State.putWord_params]; omega)
    have e2 : (((s.putWord (s.sp - 1).toNat v).setSp (s.sp - 1)).sysSp).toNat = s.sysSp.toNat - 1 := by
      rw [hset]; exact e1
    rw [e2] at i2 i3 i4
    have hmem : ∀ a, ((s.putWord (s.sp - 1).toNat v).setSp (s.sp - 1)).memWord a =
        if a = s.sysSp.toNat - 1 then v else s.memWord a := by
      intro a
      rw [hset]
      split
      · rename_i ha
        subst ha
        rw [← e1, ← hsp]
        exact State.putWord_memWord_same s _ v
      · rename_i ha
        exact State.putWord_memWord_other s v (by rw [hsp, e1]; exact ha)
    rw [hrun]
    refine ⟨i1, ?_, ?_, ?_⟩
    · simp only [i2, List.length_cons]
      rw [List.range_succ_eq_map, List.map_cons, List.map_map, hsp, e1]
      simp only [Nat.sub_zero, List.cons.injEq, true_and]
      apply List.map_congr_left
      intro j _
      simp only [Function.comp]
      omega
    · intro j hj
      simp only [List.length_cons] at hj
      cases j with
      | zero =>
        show State.memWord _ _ = v
        rw [i4 _ (by right; omega), hmem]
        simp
      | succ j =>
        have := i3 j (by omega)
        have e3 : s.sysSp.toNat - 1 - (j + 1) = s.sysSp.toNat - 1 - 1 - j := by omega
        show State.memWord _ _ = vs.getD j 0
        rw [e3]; exact this
    · intro a ha
      simp only [List.length_cons] at ha
      show State.memWord _ _ = _
      rw [i4 a (by omega), hmem]
      rw [if_neg (by omega)]

/-! ### What an entry may change -/

/-- `t` is `s` but for PC, SYSSP, R, SYS, IP, memory, the reason for a halt and the model's own fields; memory stays
below its bound, and a CPU that is halted anew has a reason. -/
def EntryChange (s t : State) : Prop :=
  ∃ (pc sp : Word) (f : Flags) (m : Memory) (g : List Nat) (d : Nat) (r : Option StopReason) (b : Bool),
    t = { s with pc := pc, sysSp := sp, flags := f, mem := m, gateFrames := g, draws := d, stopReason := r,
                 interrupted := b } ∧
    { f with r := s.flags.r, sys := s.flags.sys, ip := s.flags.ip } = s.flags ∧
    ((f.r = s.flags.r ∧ r = s.stopReason) ∨ (f.r = false ∧ r ≠ none)) ∧
    (Memory.wfBelow s.mem s.params.physWords → Memory.wfBelow m s.params.physWords)

theorem EntryChange.refl (s : State) : EntryChange s s :=
  ⟨_, _, _, _, _, _, _, _, rfl, rfl, .inl ⟨rfl, rfl⟩, id⟩

theorem EntryChange.trans {s t u : State} (h1 : EntryChange s t) (h2 : EntryChange t u) : EntryChange s u := by
  obtain ⟨pc, sp, f, m, g, d, r, b, rfl, hf, hr, hm⟩ := h1
  obtain ⟨pc', sp', f', m', g', d', r', b', rfl, hf', hr', hm'⟩ := h2
  refine ⟨pc', sp', f', m', g', d', r', b', rfl, ?_, ?_, fun h => hm' (hm h)⟩
  · cases hs : s.flags; cases f; cases f'; simp_all
  · rcases hr' with ⟨h1, h2⟩ | h
    · rcases hr with ⟨h3, h4⟩ | ⟨h3, h4⟩
      · exact .inl ⟨h1.trans h3, h2.trans h4⟩
      · exact .inr ⟨h1.trans h3, fun e => h4 (h2.symm.trans e)⟩
    · exact .inr h

theorem EntryChange.skip (s : State) (n : Nat) : EntryChange s (s.skip n) :=
  ⟨_, _, _, _, _, _, _, _, rfl, rfl, .inl ⟨rfl, rfl⟩, id⟩

theorem EntryChange.mark (s : State) (b : Bool) : EntryChange s { s with interrupted := b } :=
  ⟨_, _, _, _, _, _, _, _, rfl, rfl, .inl ⟨rfl, rfl⟩, id⟩

theorem EntryChange.stop (s : State) (c : IntCode) : EntryChange s (s.stop c) :=
  ⟨_, _, _, _, _, _, _, _, rfl, rfl, .inr ⟨rfl, by simp⟩, id⟩

theorem EntryChange.putWord (s : State) {a : Nat} (v : Word) (h : a < s.params.physWords) :
    EntryChange s (s.putWord a v) :=
  ⟨_, _, _, _, _, _, _, _, rfl, rfl, .inl ⟨rfl, rfl⟩, fun hm => Memory.write_wfBelow hm h v⟩

/-- An entry, complete or not: a completed one also sets PC. -/
theorem State.enterFrame_shape (s : State) (frame : List Word) (entry : Word) :
    ∃ (sp : Word) (m : Memory) (g : List Nat),
      (s.enterFrame frame entry).state =
        { s with pc := if (s.enterFrame frame entry).complete then entry else s.pc, sysSp := sp, mem := m,
                 gateFrames := g, flags := { s.flags with sys := true, ip := true } } ∧
      (∀ a, a ∉ (s.enterFrame frame entry).touched → Memory.read m a = Memory.read s.mem a) ∧
      (∀ a ∈ (s.enterFrame frame entry).touched, a < s.params.physWords) ∧
      (Memory.wfBelow s.mem s.params.physWords → Memory.wfBelow m s.params.physWords) ∧
      (∀ a ∈ g, a ∈ s.gateFrames ∧ a ∉ (s.enterFrame frame entry).touched) ∧
      ((s.enterFrame frame entry).complete = true → sp = s.sysSp - BitVec.ofNat 32 frame.length) := by
  obtain ⟨sp, m, g, h1, h2, h3, h4, h6, h5⟩ :=
    pushAll_shape frame { s with flags := { s.flags with sys := true, ip := true } } rfl
  have he : s.enterFrame frame entry =
      if (pushAll frame { s with flags := { s.flags with sys := true, ip := true } }).complete then
        ⟨(pushAll frame { s with flags := { s.flags with sys := true, ip := true } }).state.jump entry,
         (pushAll frame { s with flags := { s.flags with sys := true, ip := true } }).touched, true⟩
      else pushAll frame { s with flags := { s.flags with sys := true, ip := true } } := rfl
  by_cases hc : (pushAll frame { s with flags := { s.flags with sys := true, ip := true } }).complete = true
  · rw [if_pos hc] at he
    rw [he]
    exact ⟨sp, m, g, by rw [h1]; rfl, h2, h3, h4, h6, fun _ => h5 hc⟩
  · rw [if_neg hc] at he
    rw [he, if_neg hc]
    exact ⟨sp, m, g, h1, h2, h3, h4, h6, h5⟩

/-- With VM off and no memory below SYSSP an entry fails at its first push. -/
theorem State.enterFrame_fails {s : State} {frame : List Word} (entry : Word) (hv : s.flags.vm = false)
    (hf : frame ≠ []) (hb : s.params.physWords ≤ (s.sysSp - 1).toNat) :
    s.enterFrame frame entry = ⟨{ s with flags := { s.flags with sys := true, ip := true } }, [], false⟩ := by
  obtain ⟨v, vs, rfl⟩ := List.exists_cons_of_ne_nil hf
  have hc : ({ s with flags := { s.flags with sys := true, ip := true } } : State).CannotPush := by
    intro pa hpa
    rw [State.translate_vm_off (by exact hv)] at hpa
    cases hpa
    exact hb
  simp only [State.enterFrame]
  rw [pushAll_cannot hc]
  rfl

/-- Where an entry failed, the next one fails at its first push. -/
theorem State.enterFrame_again {s : State} {frame frame' : List Word} {entry entry' : Word} (n : Nat)
    (h : (s.enterFrame frame entry).complete = false) (hf : frame' ≠ []) :
    (((s.enterFrame frame entry).state.skip n).enterFrame frame' entry').complete = false := by
  obtain ⟨v, vs, rfl⟩ := List.exists_cons_of_ne_nil hf
  have hc : (pushAll frame { s with flags := { s.flags with sys := true, ip := true } }).complete = false := by
    by_contra hc
    simp only [State.enterFrame, Bool.not_eq_false] at h hc
    rw [if_pos hc] at h
    cases h
  have hs : (s.enterFrame frame entry).state =
      (pushAll frame { s with flags := { s.flags with sys := true, ip := true } }).state := by
    simp only [State.enterFrame, hc]
    rfl
  have hsys : (s.enterFrame frame entry).state.flags.sys = true := by
    obtain ⟨sp, m, g, h1, -⟩ := State.enterFrame_shape s frame entry
    rw [h1]
  have hp : (s.enterFrame frame entry).state.CannotPush := by rw [hs]; exact pushAll_incomplete _ _ hc
  have hq : ({ (s.enterFrame frame entry).state.skip n with
      flags := { ((s.enterFrame frame entry).state.skip n).flags with sys := true, ip := true } } : State).CannotPush :=
    hp.congr rfl hsys.symm rfl rfl rfl (by simp [State.sp, hsys])
  simp only [State.enterFrame] at hq ⊢
  rw [pushAll_cannot hq]
  rfl

/-- With VM off and room below SYSSP an entry is complete: PC at the entry point, SYS and IP on, the frame below the old
SYSSP, everything else as before. -/
theorem State.enterFrame_plain {s : State} {frame : List Word} (entry : Word) (hv : s.flags.vm = false)
    (hlow : frame.length ≤ s.sysSp.toNat) (hhigh : s.sysSp.toNat ≤ s.params.physWords) :
    (s.enterFrame frame entry).complete = true ∧
      (s.enterFrame frame entry).touched = (List.range frame.length).map (fun j => s.sysSp.toNat - 1 - j) ∧
      FrameBelow s (s.enterFrame frame entry).state s.sysSp frame ∧
      ∃ (m : Memory) (g : List Nat), (s.enterFrame frame entry).state =
        { s with pc := entry, sysSp := s.sysSp - BitVec.ofNat 32 frame.length, mem := m, gateFrames := g,
                 flags := { s.flags with sys := true, ip := true } } ∧
        ∀ a ∈ g, a ∉ (s.enterFrame frame entry).touched := by
  obtain ⟨h1, h2, h3⟩ :=
    pushAll_plain frame { s with flags := { s.flags with sys := true, ip := true } } rfl hv hlow hhigh
  have he : s.enterFrame frame entry =
      ⟨(pushAll frame { s with flags := { s.flags with sys := true, ip := true } }).state.jump entry,
        (pushAll frame { s with flags := { s.flags with sys := true, ip := true } }).touched, true⟩ := by
    simp only [State.enterFrame]; rw [if_pos h1]
  obtain ⟨sp, m, g, h4, -, -, -, h6, h5⟩ := State.enterFrame_shape s frame entry
  have hc : (s.enterFrame frame entry).complete = true := by rw [he]
  refine ⟨hc, by rw [he]; exact h2, by rw [he]; exact h3, m, g, ?_, fun a ha => (h6 a ha).2⟩
  rw [h4, hc, h5 hc]
  rfl

theorem State.enterFrame_change (s : State) (frame : List Word) (entry : Word) :
    EntryChange s (s.enterFrame frame entry).state ∧
      ∀ a ∈ (s.enterFrame frame entry).touched, a < s.params.physWords := by
  obtain ⟨sp, m, g, h1, -, h3, h4, -⟩ := State.enterFrame_shape s frame entry
  exact ⟨⟨_, sp, _, m, g, _, _, _, h1, rfl, .inl ⟨rfl, rfl⟩, h4⟩, h3⟩

theorem State.scramble_change (as : List Nat) (s : State) (h : ∀ a ∈ as, a < s.params.physWords) :
    EntryChange s (s.scramble as) := by
  induction as generalizing s with
  | nil => exact EntryChange.refl s
  | cons a as ih =>
    exact ((EntryChange.putWord s s.free (h a (by simp))).trans (EntryChange.skip _ 1)).trans
      (ih _ (fun b hb => h b (by simp [hb])))

theorem State.stopInDelivery_change (s : State) (begun : Bool) (touched : List Nat)
    (h : ∀ a ∈ touched, a < s.params.physWords) : EntryChange s (s.stopInDelivery begun touched) := by
  unfold State.stopInDelivery
  split
  · refine (State.scramble_change touched s h).trans (EntryChange.trans ?_ (EntryChange.stop _ _))
    exact ⟨_, _, _, _, _, _, _, _, rfl, rfl, .inl ⟨rfl, rfl⟩, id⟩
  · exact EntryChange.stop s _

/-- The state a delivery ends in, if it is not ignored, is an entry's change. -/
def Delivered.From (s : State) : Delivered → Prop
  | .entered t => EntryChange s t
  | .stopped t => EntryChange s t ∧ t.flags.r = false ∧ t.stopReason ≠ none
  | .ignored => True

theorem State.stopInDelivery_stops (s : State) (begun : Bool) (touched : List Nat) :
    (s.stopInDelivery begun touched).flags.r = false ∧
      (s.stopInDelivery begun touched).stopReason = some (.fatalInterrupt .intrfault) := by
  unfold State.stopInDelivery; split <;> exact ⟨rfl, rfl⟩

theorem EntryChange.params {s t : State} (h : EntryChange s t) : t.params = s.params := by
  obtain ⟨pc, sp, f, m, g, d, r, b, rfl, -⟩ := h; rfl

theorem State.intrFault_from (s : State) (begun : Bool) (touched : List Nat) (address info savedPc : Word)
    (h : ∀ a ∈ touched, a < s.params.physWords) :
    (s.intrFault begun touched address info savedPc).From s := by
  have hstop : EntryChange s (s.stopInDelivery begun touched) ∧
      (s.stopInDelivery begun touched).flags.r = false ∧ (s.stopInDelivery begun touched).stopReason ≠ none :=
    ⟨State.stopInDelivery_change s begun touched h, (State.stopInDelivery_stops s begun touched).1,
      by simp [(State.stopInDelivery_stops s begun touched).2]⟩
  unfold State.intrFault
  split
  · exact hstop
  · split
    · exact hstop
    · rename_i hd _ _
      dsimp only
      have hc := State.enterFrame_change (s.skip 2)
        ((s.skip 2).interruptFrame ⟨.intrfault, address, info, savedPc⟩ (s.free &&& 0x7F) (s.skip 1).free) hd
      split
      · exact (EntryChange.skip s 2).trans hc.1
      · refine ⟨((EntryChange.skip s 2).trans hc.1).trans (State.stopInDelivery_change _ _ _ ?_), ?_, ?_⟩
        · intro a ha
          rw [EntryChange.params hc.1]
          rcases List.mem_append.mp ha with ha | ha
          · exact h a ha
          · exact hc.2 a ha
        · exact (State.stopInDelivery_stops _ _ _).1
        · simp [(State.stopInDelivery_stops _ _ _).2]

theorem State.unhandled_from (s : State) (c : IntCode) : (s.unhandled c).From s := by
  unfold State.unhandled
  split
  · exact ⟨EntryChange.stop s c, rfl, by simp⟩
  · trivial

theorem Delivered.From.mono {s t : State} (h : EntryChange s t) {d : Delivered} (hd : d.From t) : d.From s := by
  cases d with
  | entered u => exact h.trans hd
  | stopped u => exact ⟨h.trans hd.1, hd.2⟩
  | ignored => trivial

theorem State.deliver_from (s : State) (q : Request) : (s.deliver q).From s := by
  unfold State.deliver
  split
  · exact State.unhandled_from s _
  · split
    · exact State.intrFault_from s _ _ _ _ _ (by simp)
    · split
      · exact State.unhandled_from s _
      · rename_i h _ _
        dsimp only
        have hc := State.enterFrame_change s (s.interruptFrame q (flagsWord s.flags) (s.sysSp - 13)) h
        split
        · exact hc.1
        · refine (State.intrFault_from _ _ _ _ _ _ ?_).mono hc.1
          intro a ha
          rw [EntryChange.params hc.1]
          exact hc.2 a ha

theorem Delivered.raised_change {s : State} {d : Delivered} (h : d.From s) : EntryChange s (d.raised s) := by
  cases d with
  | entered t => exact EntryChange.trans h (EntryChange.mark _ _)
  | stopped t => exact h.1.trans (EntryChange.mark _ _)
  | ignored => exact EntryChange.mark _ _

theorem Delivered.raised_interrupted (s : State) (d : Delivered) : (d.raised s).interrupted = true := by
  cases d <;> rfl

/-- An interrupt raised by an instruction, however its delivery ends. -/
theorem State.raise_change (s : State) (t : Trap) : EntryChange s (s.raise t) :=
  (EntryChange.skip s 1).trans (Delivered.raised_change (State.deliver_from _ _))

theorem State.raise_interrupted (s : State) (t : Trap) : (s.raise t).interrupted = true :=
  Delivered.raised_interrupted _ _

theorem State.gateFault_change (s : State) (begun : Bool) (touched : List Nat) (returnPc : Word)
    (h : ∀ a ∈ touched, a < s.params.physWords) : EntryChange s (s.gateFault begun touched returnPc) :=
  (EntryChange.skip s 2).trans (Delivered.raised_change (State.intrFault_from _ _ _ _ _ _ h))

theorem State.enterGate_change (s : State) (entry : Word) : EntryChange s (s.enterGate entry) := by
  have hc := State.enterFrame_change s s.gateFrame entry
  unfold State.enterGate
  dsimp only
  split
  · refine hc.1.trans ?_
    exact ⟨_, _, _, _, _, _, _, _, rfl, rfl, .inl ⟨rfl, rfl⟩, id⟩
  · refine hc.1.trans (State.gateFault_change _ _ _ _ ?_)
    intro a ha
    rw [EntryChange.params hc.1]
    exact hc.2 a ha

theorem State.callGate_change {s t : State} {i : Word} (h : s.callGate i = .ok t) : EntryChange s t := by
  unfold State.callGate at h
  split at h
  · cases h
  · split at h
    · cases h; exact State.gateFault_change _ _ _ _ (by simp)
    · split at h
      · cases h
      · cases h; exact State.enterGate_change _ _

/-! ### Where a delivery leads -/

/-- INTRFAULT enters the handler of vector entry 13, or stops the CPU. -/
theorem State.intrFault_outcome (s : State) (begun : Bool) (touched : List Nat) (address info savedPc : Word) :
    (∃ t, s.intrFault begun touched address info savedPc = .entered t ∧
        s.physRead (s.intvec + intNumber .intrfault) = .ok t.pc) ∨
      ∃ t, s.intrFault begun touched address info savedPc = .stopped t ∧ t.flags.r = false := by
  unfold State.intrFault
  cases hh : s.physRead (s.intvec + intNumber .intrfault) with
  | error e => exact .inr ⟨_, rfl, (State.stopInDelivery_stops _ _ _).1⟩
  | ok h =>
    dsimp only
    split
    · exact .inr ⟨_, rfl, (State.stopInDelivery_stops _ _ _).1⟩
    · split
      · rename_i hc
        refine .inl ⟨_, rfl, ?_⟩
        obtain ⟨sp, m, g, h1, -⟩ := State.enterFrame_shape (s.skip 2)
          ((s.skip 2).interruptFrame ⟨.intrfault, address, info, savedPc⟩ (s.free &&& 0x7F) (s.skip 1).free) h
        rw [h1, hc]
        rfl
      · exact .inr ⟨_, rfl, (State.stopInDelivery_stops _ _ _).1⟩

/-- After a failed entry INTRFAULT stops the CPU (70_reset_and_hazards.md R249). -/
theorem State.intrFault_after_entry {s : State} {frame : List Word} {entry : Word} (n : Nat)
    (h : (s.enterFrame frame entry).complete = false) (begun : Bool) (touched : List Nat)
    (address info savedPc : Word) :
    ∃ t, ((s.enterFrame frame entry).state.skip n).intrFault begun touched address info savedPc = .stopped t ∧
      t.flags.r = false ∧ t.stopReason = some (.fatalInterrupt .intrfault) := by
  unfold State.intrFault
  split
  · exact ⟨_, rfl, State.stopInDelivery_stops _ _ _⟩
  · split
    · exact ⟨_, rfl, State.stopInDelivery_stops _ _ _⟩
    · rename_i e _ _
      dsimp only
      rw [if_neg]
      · exact ⟨_, rfl, State.stopInDelivery_stops _ _ _⟩
      · have := State.enterFrame_again (entry' := e) (n + 2) h
          (frame' := (((s.enterFrame frame entry).state.skip n).skip 2).interruptFrame
            ⟨.intrfault, address, info, savedPc⟩ (((s.enterFrame frame entry).state.skip n).free &&& 0x7F)
            (((s.enterFrame frame entry).state.skip n).skip 1).free) (by simp [State.interruptFrame])
        rw [Bool.not_eq_true]
        exact this

/-- A delivery enters a handler of the vector, or stops the CPU, or ignores the interrupt. -/
theorem State.deliver_outcome (s : State) (q : Request) :
    (∃ t, s.deliver q = .entered t ∧ ∃ c, s.physRead (s.intvec + intNumber c) = .ok t.pc) ∨
      (∃ t, s.deliver q = .stopped t ∧ t.flags.r = false) ∨ s.deliver q = .ignored := by
  have hun : (∃ t, s.unhandled q.code = .stopped t ∧ t.flags.r = false) ∨ s.unhandled q.code = .ignored := by
    unfold State.unhandled
    split
    · exact .inl ⟨_, rfl, rfl⟩
    · exact .inr rfl
  unfold State.deliver
  split
  · exact .inr hun
  · cases hh : s.physRead (s.intvec + intNumber q.code) with
    | error e =>
      rcases State.intrFault_outcome s false [] q.address (intNumber q.code) q.savedPc with ⟨t, h1, h2⟩ | h
      · exact .inl ⟨t, h1, _, h2⟩
      · exact .inr (.inl h)
    | ok h =>
      dsimp only
      split
      · exact .inr hun
      · obtain ⟨sp, m, g, hsh, -⟩ :=
          State.enterFrame_shape s (s.interruptFrame q (flagsWord s.flags) (s.sysSp - 13)) h
        split
        · rename_i hc
          refine .inl ⟨_, rfl, q.code, ?_⟩
          rw [hsh, hc]
          exact hh
        · rename_i hc
          obtain ⟨t, h1, h2, -⟩ := State.intrFault_after_entry 0 (by simpa using hc) true
            (s.enterFrame (s.interruptFrame q (flagsWord s.flags) (s.sysSp - 13)) h).touched q.address
            (intNumber q.code) q.savedPc
          exact .inr (.inl ⟨t, h1, h2⟩)

/-! ### The plain delivery -/

@[simp] theorem State.registerFrame_length (s : State) (a b : Word) : (s.registerFrame a b).length = 16 := by
  simp [State.registerFrame]

@[simp] theorem State.interruptFrame_length (s : State) (q : Request) (a b : Word) :
    (s.interruptFrame q a b).length = 21 := by simp [State.interruptFrame]

@[simp] theorem State.gateFrame_length (s : State) : s.gateFrame.length = 18 := by simp [State.gateFrame]

/-- An interrupt accepted with a handler in the vector, VM off and room for its frame. -/
theorem State.deliver_plain {s : State} {q : Request} {h : Word} (hip : s.flags.ip = false)
    (hv : s.flags.vm = false) (hh : s.physRead (s.intvec + intNumber q.code) = .ok h) (h0 : h ≠ 0)
    (hlow : 21 ≤ s.sysSp.toNat) (hhigh : s.sysSp.toNat ≤ s.params.physWords) :
    s.deliver q =
      .entered (s.enterFrame (s.interruptFrame q (flagsWord s.flags) (s.sysSp - 13)) h).state := by
  have hc := (State.enterFrame_plain (s := s) (frame := s.interruptFrame q (flagsWord s.flags) (s.sysSp - 13)) h hv
    (by simpa using hlow) hhigh).1
  simp only [State.deliver, hip, hh, h0, hc]
  simp

/-! ### Reading a plain range -/

theorem State.readAll_plain (s : State) (hv : s.flags.vm = false) (as : List Word)
    (h : ∀ a ∈ as, a.toNat < s.params.physWords) : s.readAll as = .ok (as.map (fun a => s.memWord a.toNat)) := by
  induction as with
  | nil => rfl
  | cons a as ih =>
    have h1 : s.readMem a = .ok (s.memWord a.toNat) := by
      rw [State.readMem_of_translate (State.translate_vm_off hv a), State.physRead_ok (h a (by simp))]
    have h2 := ih (fun b hb => h b (by simp [hb]))
    simp only [State.readAll, h1, h2]
    rfl

/-! ### The outcome of an instruction -/

/-- An instruction's next state is the one it computed, or the one its interrupt leads to. -/
theorem State.settle_next {s t : State} {r : Except Stop State} (h : s.settle r = .next t) :
    r = .ok t ∨ ∃ q, r = .error (.trap q) ∧ t = s.raise q := by
  match r, h with
  | .ok u, h => simp only [State.settle, Host.Outcome.next.injEq] at h; exact .inl (by rw [h])
  | .error (.trap q), h =>
    simp only [State.settle, Host.Outcome.next.injEq] at h; exact .inr ⟨q, rfl, h.symm⟩

@[simp] theorem State.settle_ok (s t : State) : s.settle (.ok t) = .next t := rfl
@[simp] theorem State.settle_trap (s : State) (q : Trap) : s.settle (.error (.trap q)) = .next (s.raise q) := rfl
@[simp] theorem State.settle_refuse (s : State) (r : Refusal) : s.settle (.error (.refuse r)) = .refused r := rfl

end Sys2Proof.Machine
end

