-- ==== Sys2Proof/Laws/Exec.lean ====
section
/-! SUPPORT. Which meaning each instruction has, and the sequencing of the work of an instruction. -/

namespace Sys2Proof.Machine

@[simp] theorem Except.ok_bind {α β : Type} (a : α) (f : α → Except Stop β) : (Except.ok a >>= f) = f a := rfl
@[simp] theorem Except.error_bind {α β : Type} (e : Stop) (f : α → Except Stop β) :
    ((Except.error e : Except Stop α) >>= f) = .error e := rfl

/-- A sequence that ends well went well step by step. -/
theorem Except.bind_ok {α β : Type} {x : Except Stop α} {f : α → Except Stop β} {b : β} (h : (x >>= f) = .ok b) :
    ∃ a, x = .ok a ∧ f a = .ok b := by
  cases x with
  | error e => cases h
  | ok a => exact ⟨a, rfl, h⟩

@[simp] theorem exec_getsr (rd : Reg) (k : Word) (s : State) : exec (.getsr rd k) s = execGetsr rd k s := rfl
@[simp] theorem exec_setsr (rs : Reg) (k : Word) (s : State) : exec (.setsr rs k) s = execSetsr rs k s := rfl
@[simp] theorem exec_getfl (rd : Reg) (f : Word) (s : State) : exec (.getfl rd f) s = execGetfl rd f s := rfl
@[simp] theorem exec_setfl (rs : Reg) (f : Word) (s : State) : exec (.setfl rs f) s = execSetfl rs f s := rfl
@[simp] theorem exec_flagsj (rs : Reg) (t : Operand) (s : State) : exec (.flagsj rs t) s = execFlagsj rs t s := rfl
@[simp] theorem exec_comp (rn : Reg) (op : Operand) (s : State) : exec (.comp rn op) s = execComp rn op s := rfl
@[simp] theorem exec_compz (op : Operand) (s : State) : exec (.compz op) s = execCompz op s := rfl
@[simp] theorem exec_jcond (c : Cond) (t : Operand) (s : State) : exec (.jcond c t) s = execJcond c t s := rfl
@[simp] theorem exec_exbr (b : BitVec 27) (s : State) : exec (.exbr b) s = execExbr b s := rfl
@[simp] theorem exec_dpbr (b : BitVec 27) (s : State) : exec (.dpbr b) s = execDpbr b s := rfl
@[simp] theorem exec_exbrv (b : BitVec 27) (s : State) : exec (.exbrv b) s = execExbrv b s := rfl
@[simp] theorem exec_dpbrv (b : BitVec 27) (s : State) : exec (.dpbrv b) s = execDpbrv b s := rfl
@[simp] theorem exec_sbit (rd : Reg) (b : Operand) (s : State) : exec (.sbit rd b) s = execSbit rd b s := rfl
@[simp] theorem exec_cbit (rd : Reg) (b : Operand) (s : State) : exec (.cbit rd b) s = execCbit rd b s := rfl
@[simp] theorem exec_peri (rd : Reg) (c : Operand) (s : State) : exec (.peri rd c) s = execPeri rd c s := rfl
@[simp] theorem exec_halt (s : State) : exec .halt s = execHalt s := rfl
@[simp] theorem exec_syscall (i : Operand) (s : State) : exec (.syscall i) s = execSyscall i s := rfl
@[simp] theorem exec_iret (s : State) : exec .iret s = execIret s := rfl
@[simp] theorem exec_phload (b : BitVec 27) (s : State) : exec (.phload b) s = execPhload b s := rfl
@[simp] theorem exec_phstore (b : BitVec 27) (s : State) : exec (.phstore b) s = execPhstore b s := rfl
@[simp] theorem exec_clrpp (b : BitVec 27) (s : State) : exec (.clrpp b) s = execClrpp b s := rfl
@[simp] theorem exec_load (rd : Reg) (op : Operand) (s : State) : exec (.load rd op) s = execLoad rd op s := rfl
@[simp] theorem exec_store (rs : Reg) (op : Operand) (s : State) : exec (.store rs op) s = execStore rs op s := rfl
@[simp] theorem exec_push (op : Operand) (s : State) : exec (.push op) s = execPush op s := rfl
@[simp] theorem exec_call (t : Operand) (s : State) : exec (.call t) s = execCall t s := rfl
@[simp] theorem exec_ret (s : State) : exec .ret s = execRet s := rfl
@[simp] theorem exec_inc (op : Operand) (s : State) : exec (.inc op) s = execInc op s := rfl

end Sys2Proof.Machine
end

