-- ==== Sys2Proof/Laws/Words.lean ====
section
/-! SUPPORT. Facts about words: cleared low bits, characters packed in words, bit ranges. -/

namespace Sys2Proof.Machine

/-! ### Cleared low bits (20_memory.md R44, R47) -/

/-- Clearing the ten least significant bits. -/
theorem clear_low_10 (x : Word) : x &&& 0xFFFFFC00 = BitVec.ofNat 32 (x.toNat / 1024 * 1024) := by
  have h : x &&& (0xFFFFFC00 : Word) = (x >>> 10) <<< 10 := by
    apply BitVec.eq_of_getLsbD_eq
    intro i hi
    simp only [BitVec.getLsbD_and, BitVec.getLsbD_shiftLeft, BitVec.getLsbD_ushiftRight]
    have hm : ∀ j : Fin 32, (0xFFFFFC00 : Word).getLsbD j = decide (10 ≤ j.val) := by decide
    have h0 := hm ⟨i, hi⟩
    simp only at h0
    rw [h0]
    by_cases h1 : i < 10
    · simp [h1, Nat.not_le.mpr h1]
    · rw [Nat.add_sub_cancel' (by omega)]; simp [h1, hi, Nat.not_lt.mp h1]
  rw [h]
  apply BitVec.eq_of_toNat_eq
  simp only [BitVec.toNat_shiftLeft, BitVec.toNat_ushiftRight, Nat.shiftRight_eq_div_pow, Nat.shiftLeft_eq,
    BitVec.toNat_ofNat]

/-- Clearing the eleven least significant bits. -/
theorem clear_low_11 (x : Word) : x &&& 0xFFFFF800 = BitVec.ofNat 32 (x.toNat / 2048 * 2048) := by
  have h : x &&& (0xFFFFF800 : Word) = (x >>> 11) <<< 11 := by
    apply BitVec.eq_of_getLsbD_eq
    intro i hi
    simp only [BitVec.getLsbD_and, BitVec.getLsbD_shiftLeft, BitVec.getLsbD_ushiftRight]
    have hm : ∀ j : Fin 32, (0xFFFFF800 : Word).getLsbD j = decide (11 ≤ j.val) := by decide
    have h0 := hm ⟨i, hi⟩
    simp only at h0
    rw [h0]
    by_cases h1 : i < 11
    · simp [h1, Nat.not_le.mpr h1]
    · rw [Nat.add_sub_cancel' (by omega)]; simp [h1, hi, Nat.not_lt.mp h1]
  rw [h]
  apply BitVec.eq_of_toNat_eq
  simp only [BitVec.toNat_shiftLeft, BitVec.toNat_ushiftRight, Nat.shiftRight_eq_div_pow, Nat.shiftLeft_eq,
    BitVec.toNat_ofNat]

/-- Testing bit 0 and bit 1 of a page table entry. -/
theorem and_one_eq_zero (x : Word) : x &&& 1 = 0 ↔ x.getLsbD 0 = false := by
  constructor
  · intro h
    have := congrArg (fun y : Word => y.getLsbD 0) h
    simpa using this
  · intro h
    apply BitVec.eq_of_getLsbD_eq
    intro i hi
    rcases Nat.eq_zero_or_pos i with rfl | hp
    · rw [BitVec.getLsbD_and, h]; simp
    · have hm : ∀ j : Fin 32, 0 < j.val → (1 : Word).getLsbD j = false := by decide
      have := hm ⟨i, hi⟩ hp
      simp only at this
      rw [BitVec.getLsbD_and, this]; simp

theorem and_two_eq_zero (x : Word) : x &&& 2 = 0 ↔ x.getLsbD 1 = false := by
  constructor
  · intro h
    have := congrArg (fun y : Word => y.getLsbD 1) h
    simpa using this
  · intro h
    apply BitVec.eq_of_getLsbD_eq
    intro i hi
    by_cases h1 : i = 1
    · subst h1; rw [BitVec.getLsbD_and, h]; simp
    · have hm : ∀ j : Fin 32, j.val ≠ 1 → (2 : Word).getLsbD j = false := by decide
      have := hm ⟨i, hi⟩ h1
      simp only at this
      rw [BitVec.getLsbD_and, this]; simp

/-! ### Characters in words (20_memory.md R52, 43 R155) -/

theorem unpackWord_packWord (b0 b1 b2 b3 : Byte) : unpackWord (packWord b0 b1 b2 b3) = [b0, b1, b2, b3] := by
  simp only [unpackWord, packWord, List.cons.injEq, and_true]
  refine ⟨?_, ?_, ?_, ?_⟩ <;>
    · apply BitVec.eq_of_getLsbD_eq
      intro i hi
      simp only [BitVec.getLsbD_extractLsb', BitVec.getLsbD_append, hi, decide_true, Bool.true_and]
      repeat' first | rw [if_pos (by omega)] | rw [if_neg (by omega)]
      congr 1; try omega

/-- Byte `j` of a word is its bits from `8 * j` on. -/
theorem unpackWord_getD (w : Word) {j : Nat} (h : j < 4) : (unpackWord w).getD j 0 = w.extractLsb' (8 * j) 8 := by
  match j, h with
  | 0, _ => rfl
  | 1, _ => rfl
  | 2, _ => rfl
  | 3, _ => rfl

@[simp] theorem unpackWord_length (w : Word) : (unpackWord w).length = 4 := rfl

theorem packBytes_length (bs : List Byte) : (packBytes bs).length = (bs.length + 3) / 4 := by
  induction bs using packBytes.induct with
  | case1 => rfl
  | case2 => simp [packBytes]
  | case3 => simp [packBytes]
  | case4 => simp [packBytes]
  | case5 b0 b1 b2 b3 rest ih => simp only [packBytes, List.length_cons, ih]; omega

/-- Byte `j` of packed characters. -/
theorem packBytes_byte (bs : List Byte) {j : Nat} (h : j < 4 * ((bs.length + 3) / 4)) :
    ((packBytes bs).getD (j / 4) 0).extractLsb' (8 * (j % 4)) 8 = bs.getD j 0 := by
  have key : ∀ (b0 b1 b2 b3 : Byte) (j : Nat), j < 4 →
      (packWord b0 b1 b2 b3).extractLsb' (8 * j) 8 = [b0, b1, b2, b3].getD j 0 := by
    intro b0 b1 b2 b3 j hj
    rw [← unpackWord_getD _ hj, unpackWord_packWord]
  induction bs using packBytes.induct generalizing j with
  | case1 => simp at h
  | case2 b0 =>
    have hj : j < 4 := by simp at h; omega
    have h0 : j / 4 = 0 := by omega
    have h1 : j % 4 = j := by omega
    rw [h0, h1]
    show (packWord b0 0 0 0).extractLsb' (8 * j) 8 = _
    rw [key _ _ _ _ j hj]
    match j, hj with
    | 0, _ => rfl
    | 1, _ => rfl
    | 2, _ => rfl
    | 3, _ => rfl
  | case3 b0 b1 =>
    have hj : j < 4 := by simp at h; omega
    have h0 : j / 4 = 0 := by omega
    have h1 : j % 4 = j := by omega
    rw [h0, h1]
    show (packWord b0 b1 0 0).extractLsb' (8 * j) 8 = _
    rw [key _ _ _ _ j hj]
    match j, hj with
    | 0, _ => rfl
    | 1, _ => rfl
    | 2, _ => rfl
    | 3, _ => rfl
  | case4 b0 b1 b2 =>
    have hj : j < 4 := by simp at h; omega
    have h0 : j / 4 = 0 := by omega
    have h1 : j % 4 = j := by omega
    rw [h0, h1]
    show (packWord b0 b1 b2 0).extractLsb' (8 * j) 8 = _
    rw [key _ _ _ _ j hj]
    match j, hj with
    | 0, _ => rfl
    | 1, _ => rfl
    | 2, _ => rfl
    | 3, _ => rfl
  | case5 b0 b1 b2 b3 rest ih =>
    by_cases hj : j < 4
    · have h0 : j / 4 = 0 := by omega
      have h1 : j % 4 = j := by omega
      rw [h0, h1]
      show (packWord b0 b1 b2 b3).extractLsb' (8 * j) 8 = _
      rw [key _ _ _ _ j hj]
      match j, hj with
      | 0, _ => rfl
      | 1, _ => rfl
      | 2, _ => rfl
      | 3, _ => rfl
    · obtain ⟨k, rfl⟩ : ∃ k, j = k + 4 := ⟨j - 4, by omega⟩
      have h0 : (k + 4) / 4 = k / 4 + 1 := by omega
      have h1 : (k + 4) % 4 = k % 4 := by omega
      rw [h0, h1]
      simp only [packBytes, List.getD_cons_succ]
      rw [ih (by simp only [List.length_cons] at h; omega)]

theorem unpackBytes_length (ws : List Word) : (unpackBytes ws).length = 4 * ws.length := by
  induction ws with
  | nil => rfl
  | cons w ws ih =>
    simp only [unpackBytes, List.flatMap_cons, List.length_append, List.length_cons, unpackWord_length] at *
    omega

/-- Byte `j` of unpacked words. -/
theorem unpackBytes_byte (ws : List Word) (j : Nat) :
    (unpackBytes ws).getD j 0 = (ws.getD (j / 4) 0).extractLsb' (8 * (j % 4)) 8 := by
  induction ws generalizing j with
  | nil => simp [unpackBytes]
  | cons w ws ih =>
    have hc : unpackBytes (w :: ws) = unpackWord w ++ unpackBytes ws := rfl
    rw [hc]
    by_cases hj : j < 4
    · have h0 : j / 4 = 0 := by omega
      have h1 : j % 4 = j := by omega
      rw [List.getD_append _ _ _ _ (by simpa using hj), h0, h1]
      exact unpackWord_getD w hj
    · obtain ⟨k, rfl⟩ : ∃ k, j = k + 4 := ⟨j - 4, by omega⟩
      have h0 : (k + 4) / 4 = k / 4 + 1 := by omega
      have h1 : (k + 4) % 4 = k % 4 := by omega
      rw [List.getD_append_right _ _ _ _ (by simp), h0, h1]
      simpa using ih k

end Sys2Proof.Machine
end

