-- ==== Sys2Proof/Laws/Devices.lean ====
section
/-! SUPPORT. What the shared operations of PERI can do: its reads and stores, the control structure, the end of a call, and
the parts of the state an operation can change. -/

namespace Sys2Proof.Machine

/-! ### Reads and stores -/

theorem State.periRead_ok {s : State} {a w : Word} (h : s.readMem a = .ok w) : s.periRead a = some w := by
  simp [State.periRead, h, Except.toOption]

theorem PlainRange.periRead {s : State} {a : Word} {n : Nat} (h : PlainRange s a n) {j : Nat} (hj : j < n) :
    s.periRead (a + BitVec.ofNat 32 j) = some (s.memWord (a.toNat + j)) :=
  State.periRead_ok (State.PlainRange.read h hj)

theorem PlainRange.tail {s : State} {a : Word} {n : Nat} (h : PlainRange s a (n + 2)) :
    PlainRange s (a + 1) (n + 1) ∧ (a + 1).toNat = a.toNat + 1 := by
  obtain ⟨h1, h2, h3⟩ := h
  have e : (a + 1).toNat = a.toNat + 1 := by
    rw [BitVec.toNat_add]
    show (a.toNat + 1) % 2 ^ 32 = _
    omega
  exact ⟨⟨h1, by omega, by omega⟩, e⟩

/-- A plain range is read whole. -/
theorem State.readRun_plain {s : State} {a : Word} {n : Nat} (h : PlainRange s a n) :
    s.readRun a n = ((List.range n).map (fun j => s.memWord (a.toNat + j)), true) := by
  induction n generalizing a with
  | zero => rfl
  | succ n ih =>
    have h0 : s.periRead a = some (s.memWord a.toNat) := by simpa using PlainRange.periRead h (j := 0) (by omega)
    simp only [State.readRun, h0]
    cases n with
    | zero => simp [State.readRun]
    | succ n =>
      obtain ⟨h1, h2⟩ := PlainRange.tail h
      rw [ih h1, List.range_succ_eq_map (n := n + 1)]
      simp only [List.map_cons, List.map_map, Prod.mk.injEq, List.cons.injEq, Nat.add_zero, true_and, and_true]
      apply List.map_congr_left
      intro j _
      simp only [Function.comp, h2]
      congr 1; omega

theorem State.readRun_length (s : State) (a : Word) (n : Nat) : (s.readRun a n).1.length ≤ n := by
  induction n generalizing a with
  | zero => simp [State.readRun]
  | succ n ih =>
    simp only [State.readRun]
    split
    · simp
    · simpa using ih (a + 1)

/-- A run of stores changes memory alone, keeps it below its bound, and stores no more words than it has. -/
theorem State.storeRun_shape (ws : List Word) (s : State) (a : Word) :
    ∃ (m : Memory) (g : List Nat), (s.storeRun a ws).state = { s with mem := m, gateFrames := g } ∧
      (Memory.wfBelow s.mem s.params.physWords → Memory.wfBelow m s.params.physWords) ∧
      (s.storeRun a ws).stored ≤ ws.length := by
  induction ws generalizing s a with
  | nil => exact ⟨s.mem, s.gateFrames, rfl, id, Nat.le_refl 0⟩
  | cons w ws ih =>
    cases hw : s.writeMem a w with
    | error e =>
      have hp : s.periWrite a w = none := by simp [State.periWrite, hw, Except.toOption]
      refine ⟨s.mem, s.gateFrames, ?_, id, ?_⟩ <;> simp [State.storeRun, hp]
    | ok t =>
      have hp : s.periWrite a w = some t := by simp [State.periWrite, hw, Except.toOption]
      obtain ⟨pa, -, h2, rfl⟩ := State.writeMem_cases hw
      obtain ⟨m, g, i1, i2, i3⟩ := ih (s.putWord pa.toNat w) (a + 1)
      have hrun : s.storeRun a (w :: ws) = ⟨((s.putWord pa.toNat w).storeRun (a + 1) ws).state,
          ((s.putWord pa.toNat w).storeRun (a + 1) ws).stored + 1,
          ((s.putWord pa.toNat w).storeRun (a + 1) ws).complete⟩ := by
        simp only [State.storeRun, hp]
      rw [hrun]
      refine ⟨m, g, by rw [i1]; rfl, fun h => ?_, by simpa using i3⟩
      have := i2 (Memory.write_wfBelow h h2 w)
      simpa using this

/-- A run of stores into a plain range, as a run of writes. -/
theorem State.storeRun_writeRun (ws : List Word) {s : State} {a : Word} (h : PlainRange s a ws.length) :
    ∃ g, s.storeRun a ws =
      ⟨{ s with mem := Memory.writeRun s.mem a.toNat ws, gateFrames := g }, ws.length, true⟩ := by
  induction ws generalizing s a with
  | nil => exact ⟨s.gateFrames, rfl⟩
  | cons w ws ih =>
    obtain ⟨h1, h2, h3⟩ := h
    simp only [List.length_cons] at h2 h3
    have hw := State.writeMem_ok w (State.translate_vm_off h1 a) (by omega)
    have hp : s.periWrite a w = some (s.putWord a.toNat w) := by simp [State.periWrite, hw, Except.toOption]
    have hrun : s.storeRun a (w :: ws) = ⟨((s.putWord a.toNat w).storeRun (a + 1) ws).state,
        ((s.putWord a.toNat w).storeRun (a + 1) ws).stored + 1,
        ((s.putWord a.toNat w).storeRun (a + 1) ws).complete⟩ := by
      simp only [State.storeRun, hp]
    cases ws with
    | nil => rw [hrun]; exact ⟨_, rfl⟩
    | cons w2 ws =>
      have e : (a + 1).toNat = a.toNat + 1 := by
        rw [BitVec.toNat_add]
        show (a.toNat + 1) % 2 ^ 32 = _
        simp only [List.length_cons] at h3
        omega
      obtain ⟨g, hg⟩ := ih (s := s.putWord a.toNat w) (a := a + 1)
        ⟨h1, by rw [e]; simp only [List.length_cons, State.putWord_params] at *; omega,
          by rw [e]; simp only [List.length_cons] at *; omega⟩
      refine ⟨g, ?_⟩
      rw [hrun, hg, e]
      rfl

/-- The words of memory after a run of writes. -/
theorem State.memWord_writeRun (s : State) (a : Nat) (ws : List Word) (g : List Nat) :
    (∀ j, j < ws.length →
      ({ s with mem := Memory.writeRun s.mem a ws, gateFrames := g } : State).memWord (a + j) = ws.getD j 0) ∧
    ∀ b, (b < a ∨ a + ws.length ≤ b) →
      ({ s with mem := Memory.writeRun s.mem a ws, gateFrames := g } : State).memWord b = s.memWord b := by
  constructor
  · intro j hj
    simp only [State.memWord, Memory.read_writeRun_inside ws s.mem hj, Option.getD_some]
    rw [List.getD_eq_getElem _ _ hj]
  · intro b hb
    simp only [State.memWord, Memory.read_writeRun_other ws s.mem hb]

/-- A run of stores into a plain range is complete, memory holds the words there, and nothing else changes. -/
theorem State.storeRun_plain (ws : List Word) {s : State} {a : Word} (h : PlainRange s a ws.length) :
    ∃ (m : Memory) (g : List Nat),
      s.storeRun a ws = ⟨{ s with mem := m, gateFrames := g }, ws.length, true⟩ ∧
      (∀ j, j < ws.length → (Memory.read m (a.toNat + j)) = some (ws.getD j 0)) ∧
      ∀ b, (b < a.toNat ∨ a.toNat + ws.length ≤ b) → Memory.read m b = Memory.read s.mem b := by
  obtain ⟨g, hg⟩ := State.storeRun_writeRun ws h
  refine ⟨_, g, hg, fun j hj => ?_, fun b hb => Memory.read_writeRun_other ws s.mem hb⟩
  rw [Memory.read_writeRun_inside ws s.mem hj, List.getD_eq_getElem _ _ hj]

/-! ### Scans for a zero -/

/-- Word 1 of a control structure. -/
theorem State.control_first {s : State} {c w : Word} {ws : List Word} {n : Nat}
    (h : s.control c (n + 1) = some (w :: ws)) : s.periRead (c + 1) = some w := by
  unfold State.control at h
  simp only [State.readRun] at h
  cases hp : s.periRead (c + 1) with
  | none => rw [hp] at h; cases h
  | some x =>
    simp only [hp] at h
    split at h
    · rename_i ws' heq
      simp only [Prod.mk.injEq] at heq
      rw [← heq.1] at h
      simp only [Option.some.injEq, List.cons.injEq] at h
      rw [h.1]
    · cases h

/-- A run of reads over a word that cannot be read is not complete. -/
theorem State.readRun_unreadable {s : State} {n j : Nat} {a : Word} (hj : j < n)
    (h : s.periRead (a + BitVec.ofNat 32 j) = none) : (s.readRun a n).2 = false := by
  induction n generalizing a j with
  | zero => omega
  | succ n ih =>
    simp only [State.readRun]
    split
    · rfl
    · rename_i w hw
      cases j with
      | zero => rw [show a + BitVec.ofNat 32 0 = a by simp, hw] at h; cases h
      | succ j =>
        refine ih (a := a + 1) (j := j) (by omega) ?_
        rw [← h]
        congr 1
        rw [BitVec.add_assoc]
        congr 1
        apply BitVec.eq_of_toNat_eq
        simp [BitVec.toNat_add, Nat.add_comm]

/-- A control structure one of whose words cannot be read. -/
theorem State.control_unreadable {s : State} {n j : Nat} {c : Word} (hj : j < n)
    (h : s.periRead (c + 1 + BitVec.ofNat 32 j) = none) : s.control c n = none := by
  have hr := State.readRun_unreadable hj h
  unfold State.control
  split
  · rename_i ws heq
    rw [heq] at hr
    cases hr
  · rfl

/-- A scan for a zero character that does not end has read four characters in every word. -/
theorem State.scanString_endless {s : State} {n : Nat} {a : Word} (h : (s.scanString n a).2 = .endless) :
    ∀ j < n, ∃ w, s.periRead (a + BitVec.ofNat 32 j) = some w ∧
      4 ≤ ((unpackWord w).takeWhile (fun b => b ≠ 0)).length := by
  induction n generalizing a with
  | zero => intro j hj; omega
  | succ n ih =>
    intro j hj
    simp only [State.scanString] at h
    split at h
    · cases h
    · rename_i w hw
      split at h
      · cases h
      · rename_i hl
        cases j with
        | zero => exact ⟨w, by simpa using hw, by omega⟩
        | succ j =>
          obtain ⟨w', h1, h2⟩ := ih h j (by omega)
          refine ⟨w', ?_, h2⟩
          rw [← h1]
          congr 1
          rw [BitVec.add_assoc]
          congr 1
          apply BitVec.eq_of_toNat_eq
          simp [BitVec.toNat_add, Nat.add_comm]

theorem State.scanWords_endless {s : State} {n : Nat} {a : Word} (h : (s.scanWords n a).2 = .endless) :
    ∀ j < n, ∃ w, s.periRead (a + BitVec.ofNat 32 j) = some w ∧ w ≠ 0 := by
  induction n generalizing a with
  | zero => intro j hj; omega
  | succ n ih =>
    intro j hj
    simp only [State.scanWords] at h
    split at h
    · cases h
    · rename_i w hw
      split at h
      · cases h
      · rename_i hl
        cases j with
        | zero => exact ⟨w, by simpa using hw, hl⟩
        | succ j =>
          obtain ⟨w', h1, h2⟩ := ih h j (by omega)
          refine ⟨w', ?_, h2⟩
          rw [← h1]
          congr 1
          rw [BitVec.add_assoc]
          congr 1
          apply BitVec.eq_of_toNat_eq
          simp [BitVec.toNat_add, Nat.add_comm]

theorem reach (a b : Word) : ∃ j < addressSpace, a + BitVec.ofNat 32 j = b :=
  ⟨(b - a).toNat, (b - a).isLt, by rw [BitVec.ofNat_toNat, BitVec.setWidth_eq]; bv_omega⟩

/-- The name scan of $TAPELOAD ends where the unit number is in range: that number's own word holds a zero character. -/
theorem tapeLoad_scan_ends {s : State} {c u name mode a : Word} (h : s.control c 3 = some [u, name, mode])
    (hu : (unitIndex 8 u).isSome) : (s.scanString addressSpace a).2 ≠ .endless := by
  intro he
  obtain ⟨j, hj, e⟩ := reach a (c + 1)
  obtain ⟨w, h1, h2⟩ := State.scanString_endless he j hj
  rw [e, State.control_first h] at h1
  cases h1
  simp only [unitIndex] at hu
  split at hu
  · rename_i hr
    have hx : u.extractLsb' 24 8 = 0 := by
      apply BitVec.eq_of_toNat_eq
      simp only [BitVec.extractLsb'_toNat, Nat.shiftRight_eq_div_pow]
      show u.toNat / 2 ^ 24 % 2 ^ 8 = 0
      omega
    have := List.takeWhile_prefix (fun b : Byte => decide (b ≠ 0)) (l := unpackWord u)
    have hl : ((unpackWord u).takeWhile (fun b => b ≠ 0)) = unpackWord u :=
      this.eq_of_length_le (by simpa [unpackWord] using h2)
    have hm : (0 : Byte) ∈ (unpackWord u).takeWhile (fun b => b ≠ 0) := by rw [hl]; simp [unpackWord, hx]
    simpa using List.mem_takeWhile_imp hm
  · cases hu

/-- The scans of $TERMOUTC and $TERMOUTW end: the count 0 is itself a zero word of the address space. -/
theorem termOut_scan_ends {s : State} {c m a : Word} (h : s.control c 2 = some [0, m]) :
    (s.scanString addressSpace a).2 ≠ .endless ∧ (s.scanWords addressSpace a).2 ≠ .endless := by
  obtain ⟨j, hj, e⟩ := reach a (c + 1)
  constructor
  · intro he
    obtain ⟨w, h1, h2⟩ := State.scanString_endless he j hj
    rw [e, State.control_first h] at h1
    cases h1
    exact absurd h2 (by decide)
  · intro he
    obtain ⟨w, h1, h2⟩ := State.scanWords_endless he j hj
    rw [e, State.control_first h] at h1
    cases h1
    exact h2 rfl

/-- What a scan gives on a string that lies in memory. -/
theorem State.scanString_stringAt {s : State} {n : Nat} {a : Word} {bs : List Byte} (h : StringAt s a bs)
    (hn : bs.length / 4 + 1 ≤ n) : s.scanString n a = (bs, .zero) := by
  induction n generalizing a bs with
  | zero => omega
  | succ n ih =>
    obtain ⟨hp, hb, hz⟩ := h
    have h0 : s.periRead a = some (s.memWord a.toNat) := by simpa using PlainRange.periRead hp (j := 0) (by omega)
    have e : ∀ j, j < 4 → s.byteAt a j = (s.memWord a.toNat).extractLsb' (8 * j) 8 := by
      intro j hj
      have h1 : j / 4 = 0 := by omega
      have h2 : j % 4 = j := by omega
      simp only [State.byteAt, h1, h2, Nat.add_zero]
    have hu : unpackWord (s.memWord a.toNat) = [s.byteAt a 0, s.byteAt a 1, s.byteAt a 2, s.byteAt a 3] := by
      rw [e 0 (by omega), e 1 (by omega), e 2 (by omega), e 3 (by omega)]; rfl
    simp only [State.scanString, h0, hu]
    match bs, hb, hz, hn, hp with
    | [], hb, hz, hn, hp => simp [show s.byteAt a 0 = 0 from hz]
    | [b0], hb, hz, hn, hp =>
      have h0 := hb 0 (by simp)
      have h1 : s.byteAt a 1 = 0 := hz
      simp at h0
      simp [h0.1, h0.2, h1]
    | [b0, b1], hb, hz, hn, hp =>
      have h0 := hb 0 (by simp)
      have h1 := hb 1 (by simp)
      have h2 : s.byteAt a 2 = 0 := hz
      simp at h0 h1
      simp [h0.1, h0.2, h1.1, h1.2, h2]
    | [b0, b1, b2], hb, hz, hn, hp =>
      have h0 := hb 0 (by simp)
      have h1 := hb 1 (by simp)
      have h2 := hb 2 (by simp)
      have h3 : s.byteAt a 3 = 0 := hz
      simp at h0 h1 h2
      simp [h0.1, h0.2, h1.1, h1.2, h2.1, h2.2, h3]
    | b0 :: b1 :: b2 :: b3 :: rest, hb, hz, hn, hp =>
      have h0 := hb 0 (by simp)
      have h1 := hb 1 (by simp)
      have h2 := hb 2 (by simp)
      have h3 := hb 3 (by simp)
      simp at h0 h1 h2 h3
      have hl : (b0 :: b1 :: b2 :: b3 :: rest).length / 4 = rest.length / 4 + 1 := by
        simp only [List.length_cons]; omega
      rw [hl] at hn hp
      obtain ⟨t1, t2⟩ := PlainRange.tail hp
      have eb : ∀ j, s.byteAt (a + 1) j = s.byteAt a (j + 4) := by
        intro j
        have e1 : (j + 4) / 4 = j / 4 + 1 := by omega
        have e2 : (j + 4) % 4 = j % 4 := by omega
        simp only [State.byteAt, t2, e1, e2]
        congr 2; omega
      have hr := ih (a := a + 1) (bs := rest) ⟨t1, fun j hj => by
          have := hb (j + 4) (by simp only [List.length_cons]; omega)
          rw [eb]; simpa using this, by rw [eb]; simpa using hz⟩ (by omega)
      rw [hr]
      simp [h0.1, h0.2, h1.1, h1.2, h2.1, h2.2, h3.1, h3.2]

theorem State.scanWords_charactersAt {s : State} {n : Nat} {a : Word} {bs : List Byte} (h : CharactersAt s a bs)
    (hn : bs.length + 1 ≤ n) : s.scanWords n a = (bs.map (fun b => b.setWidth 32), .zero) := by
  induction n generalizing a bs with
  | zero => omega
  | succ n ih =>
    obtain ⟨hp, hb, hz⟩ := h
    have h0 : s.periRead a = some (s.memWord a.toNat) := by simpa using PlainRange.periRead hp (j := 0) (by omega)
    simp only [State.scanWords, h0]
    cases bs with
    | nil => simp [show s.memWord a.toNat = 0 from hz]
    | cons b bs =>
      have hb0 := hb 0 (by simp)
      simp only [Nat.add_zero, List.getD_cons_zero] at hb0
      obtain ⟨t1, t2⟩ := PlainRange.tail (by simpa using hp)
      have hne : ¬ (b.setWidth 32 : Word) = 0 := by
        intro h
        apply hb0.2
        apply BitVec.eq_of_toNat_eq
        have := congrArg BitVec.toNat h
        simp at this
        have hl := b.isLt
        show b.toNat = 0
        omega
      have hr := ih (a := a + 1) (bs := bs) ⟨t1, fun j hj => by
          have := hb (j + 1) (by simp only [List.length_cons]; omega)
          rw [t2, Nat.add_assoc, Nat.add_comm 1 j]; simpa using this,
          by rw [t2, Nat.add_assoc, Nat.add_comm 1]; simpa using hz⟩ (by simp only [List.length_cons] at hn; omega)
      rw [hb0.1, if_neg hne, hr]
      rfl

/-! ### The call -/

/-- A call of operation `o` ends as the operation does. -/
theorem PeriCall.exec {s : State} {rd : Reg} {op : Operand} {c : Word} {o : PeriOp} (h : PeriCall s rd op c o) :
    Sys2Proof.Machine.exec (.peri rd op) s =
      match runPeriOp o s c with
      | .done result t => .next (t.periResult rd result).advance
      | .refuse r => .refused r := by
  obtain ⟨h1, h2, h3, w, h4, h5⟩ := h
  have hp : s.periAt c = runPeriOp o s c := by
    simp only [State.periAt, State.periRead_ok h4, h5]
  rw [exec_peri, execPeri, State.needSystem_ok h1, Except.ok_bind, operandReg_ok h2, Except.ok_bind, h3,
    Except.ok_bind, hp]
  cases runPeriOp o s c <;> rfl

theorem PeriCall.ends {s u : State} {rd : Reg} {op : Operand} {c result : Word} {o : PeriOp}
    (h : PeriCall s rd op c o) (hr : runPeriOp o s c = .done result u) : PeriEnds s rd op result u := by
  rw [PeriEnds, h.exec, hr]

end Sys2Proof.Machine
end

