-- ==== Sys2Proof/Laws/PerInstr.lean ====
section
/-! SUPPORT. What is said of every instruction, one lemma for each: the operation code of its word is the number of its row
in spec/opcode_table.json, whatever its operands are (the numbering is the model's, Log 1). -/

namespace Sys2Proof

/-- The number of an instruction's row in spec/opcode_table.json, counted from 1. -/
def Laws.rowNumber : Instr → BitVec 5
  | .getsr _ _ => 1
  | .setsr _ _ => 2
  | .getfl _ _ => 3
  | .setfl _ _ => 4
  | .flagsj _ _ => 5
  | .comp _ _ => 6
  | .compz _ => 7
  | .jcond _ _ => 8
  | .exbr _ => 9
  | .dpbr _ => 10
  | .exbrv _ => 11
  | .dpbrv _ => 12
  | .sbit _ _ => 13
  | .cbit _ _ => 14
  | .peri _ _ => 15
  | .halt => 16
  | .syscall _ => 17
  | .iret => 18
  | .phload _ => 19
  | .phstore _ => 20
  | .clrpp _ => 21
  | .load _ _ => 22
  | .store _ _ => 23
  | .push _ => 24
  | .call _ => 25
  | .ret => 26
  | .inc _ => 27

/-- The operation code of the instruction's word is the number of its row. -/
def Laws.OperationCode.Statement (i : Instr) : Prop := opField (encode i) = Laws.rowNumber i

theorem Laws.OperationCode.getsr (rd : Reg) (k : Word) : Laws.OperationCode.Statement (.getsr rd k) := opField_packFields ..
theorem Laws.OperationCode.setsr (rs : Reg) (k : Word) : Laws.OperationCode.Statement (.setsr rs k) := opField_packFields ..
theorem Laws.OperationCode.getfl (rd : Reg) (f : Word) : Laws.OperationCode.Statement (.getfl rd f) := opField_packFields ..
theorem Laws.OperationCode.setfl (rs : Reg) (f : Word) : Laws.OperationCode.Statement (.setfl rs f) := opField_packFields ..
theorem Laws.OperationCode.flagsj (rs : Reg) (t : Operand) : Laws.OperationCode.Statement (.flagsj rs t) := opField_packFields ..
theorem Laws.OperationCode.comp (rn : Reg) (op : Operand) : Laws.OperationCode.Statement (.comp rn op) := opField_packFields ..
theorem Laws.OperationCode.compz (op : Operand) : Laws.OperationCode.Statement (.compz op) := opField_packFields ..
theorem Laws.OperationCode.jcond (c : Cond) (t : Operand) : Laws.OperationCode.Statement (.jcond c t) := opField_packFields ..
theorem Laws.OperationCode.exbr (b : BitVec 27) : Laws.OperationCode.Statement (.exbr b) := opField_packBits ..
theorem Laws.OperationCode.dpbr (b : BitVec 27) : Laws.OperationCode.Statement (.dpbr b) := opField_packBits ..
theorem Laws.OperationCode.exbrv (b : BitVec 27) : Laws.OperationCode.Statement (.exbrv b) := opField_packBits ..
theorem Laws.OperationCode.dpbrv (b : BitVec 27) : Laws.OperationCode.Statement (.dpbrv b) := opField_packBits ..
theorem Laws.OperationCode.sbit (rd : Reg) (b : Operand) : Laws.OperationCode.Statement (.sbit rd b) := opField_packFields ..
theorem Laws.OperationCode.cbit (rd : Reg) (b : Operand) : Laws.OperationCode.Statement (.cbit rd b) := opField_packFields ..
theorem Laws.OperationCode.peri (rd : Reg) (c : Operand) : Laws.OperationCode.Statement (.peri rd c) := opField_packFields ..
theorem Laws.OperationCode.halt : Laws.OperationCode.Statement .halt := opField_packBits ..
theorem Laws.OperationCode.syscall (i : Operand) : Laws.OperationCode.Statement (.syscall i) := opField_packFields ..
theorem Laws.OperationCode.iret : Laws.OperationCode.Statement .iret := opField_packBits ..
theorem Laws.OperationCode.phload (b : BitVec 27) : Laws.OperationCode.Statement (.phload b) := opField_packBits ..
theorem Laws.OperationCode.phstore (b : BitVec 27) : Laws.OperationCode.Statement (.phstore b) := opField_packBits ..
theorem Laws.OperationCode.clrpp (b : BitVec 27) : Laws.OperationCode.Statement (.clrpp b) := opField_packBits ..
theorem Laws.OperationCode.load (rd : Reg) (op : Operand) : Laws.OperationCode.Statement (.load rd op) := opField_packFields ..
theorem Laws.OperationCode.store (rs : Reg) (op : Operand) : Laws.OperationCode.Statement (.store rs op) := opField_packFields ..
theorem Laws.OperationCode.push (op : Operand) : Laws.OperationCode.Statement (.push op) := opField_packFields ..
theorem Laws.OperationCode.call (t : Operand) : Laws.OperationCode.Statement (.call t) := opField_packFields ..
theorem Laws.OperationCode.ret : Laws.OperationCode.Statement .ret := opField_packBits ..
theorem Laws.OperationCode.inc (op : Operand) : Laws.OperationCode.Statement (.inc op) := opField_packFields ..

end Sys2Proof
end

