-- ==== Sys2Proof/Laws/Peri.lean ====
section
/-! SUPPORT. What a PERI operation can change: memory, the devices and the host's coming answers, never a register, a flag, a
parameter or the size of a drive; and it keeps good states good. -/

namespace Sys2Proof.Machine

/-- `u` is `s` but for memory, the devices and the model's own fields; a good state stays good and the drives keep their
sizes. -/
def PeriChange (s u : State) : Prop :=
  (∃ (m : Memory) (g : List Nat) (d : Nat) (kb sc : List Byte) (di : Vector (Option Disc) 8)
      (ta : Vector (Option Tape) 8) (ne : Vector (Option NetUnit) 2) (se : List (Fin 2 × Packet)) (ho : HostOracle),
    u = { s with mem := m, gateFrames := g, draws := d, kbuf := kb, screen := sc, discs := di, tapes := ta,
                 nets := ne, netSent := se, host := ho }) ∧
    (s.Good → u.Good) ∧ u.driveSizes = s.driveSizes

theorem PeriChange.refl (s : State) : PeriChange s s := ⟨⟨_, _, _, _, _, _, _, _, _, _, rfl⟩, id, rfl⟩

theorem PeriChange.trans {s t u : State} (h1 : PeriChange s t) (h2 : PeriChange t u) : PeriChange s u := by
  obtain ⟨⟨m, g, d, kb, sc, di, ta, ne, se, ho, rfl⟩, a, b⟩ := h1
  obtain ⟨⟨m', g', d', kb', sc', di', ta', ne', se', ho', rfl⟩, a', b'⟩ := h2
  exact ⟨⟨_, _, _, _, _, _, _, _, _, _, rfl⟩, fun h => a' (a h), b'.trans b⟩

/-- An update that leaves memory, discs, tapes and parameters alone. -/
theorem PeriChange.plain {s u : State}
    (h : ∃ (g : List Nat) (d : Nat) (kb sc : List Byte) (ne : Vector (Option NetUnit) 2)
      (se : List (Fin 2 × Packet)) (ho : HostOracle),
      u = { s with gateFrames := g, draws := d, kbuf := kb, screen := sc, nets := ne, netSent := se, host := ho }) :
    PeriChange s u := by
  obtain ⟨g, d, kb, sc, ne, se, ho, rfl⟩ := h
  exact ⟨⟨_, _, _, _, _, _, _, _, _, _, rfl⟩, id, rfl⟩

theorem PeriChange.skip (s : State) (n : Nat) : PeriChange s (s.skip n) :=
  PeriChange.plain ⟨_, _, _, _, _, _, _, rfl⟩

theorem PeriChange.print (s : State) (bs : List Byte) : PeriChange s (s.print bs) :=
  PeriChange.plain ⟨_, _, _, _, _, _, _, rfl⟩

theorem PeriChange.setNet (s : State) (i : Fin 2) (n : Option NetUnit) : PeriChange s (s.setNet i n) :=
  PeriChange.plain ⟨_, _, _, _, _, _, _, rfl⟩

theorem PeriChange.kbuf (s : State) (kb : List Byte) : PeriChange s { s with kbuf := kb } :=
  PeriChange.plain ⟨_, _, _, _, _, _, _, rfl⟩

theorem PeriChange.sent (s : State) (l : List (Fin 2 × Packet)) : PeriChange s { s with netSent := l } :=
  PeriChange.plain ⟨_, _, _, _, _, _, _, rfl⟩

theorem PeriChange.host (s : State) (ho : HostOracle) : PeriChange s { s with host := ho } :=
  PeriChange.plain ⟨_, _, _, _, _, _, _, rfl⟩

theorem PeriChange.storeRun (s : State) (a : Word) (ws : List Word) : PeriChange s (s.storeRun a ws).state := by
  obtain ⟨m, g, h1, h2, -⟩ := State.storeRun_shape ws s a
  rw [h1]
  exact ⟨⟨_, _, _, _, _, _, _, _, _, _, rfl⟩, fun h => ⟨h2 h.1, h.2⟩, rfl⟩

theorem PeriChange.spoil (s : State) (a : Word) (n : Nat) : PeriChange s (s.spoil a n) :=
  (PeriChange.skip s n).trans (PeriChange.storeRun _ _ _)

theorem State.storeRun_tapes (s : State) (a : Word) (ws : List Word) : (s.storeRun a ws).state.tapes = s.tapes := by
  obtain ⟨m, g, h1, -⟩ := State.storeRun_shape ws s a
  rw [h1]

/-- A drive's content replaced by one of the same size and inside its blocks. -/
theorem PeriChange.setDisc (s : State) {i : Fin 8} {old disc : Disc} (ho : s.discs[i] = some old)
    (hs : disc.size = old.size)
    (hw : Memory.wfBelow old.content (128 * old.size) → Memory.wfBelow disc.content (128 * old.size)) :
    PeriChange s (s.setDisc i disc) := by
  refine ⟨⟨_, _, _, _, _, _, _, _, _, _, rfl⟩, fun h => ⟨h.1, fun j d hj => ?_, h.2.2⟩, ?_⟩
  · simp only [State.setDisc, Fin.getElem_fin, Vector.getElem_set] at hj
    split at hj
    · rename_i hij
      cases hj
      rw [hs]
      exact hw (h.2.1 i old ho)
    · exact h.2.1 j d hj
  · simp only [State.driveSizes, State.setDisc]
    apply List.ext_getElem
    · simp
    · intro n h1 h2
      simp only [List.getElem_map, Vector.getElem_toList, Vector.getElem_set]
      split
      · rename_i hn
        subst hn
        have ho' : s.discs[i.val] = some old := ho
        simp [ho', hs]
      · rfl

/-- A tape unit changed to one whose position is inside its data. -/
theorem PeriChange.setTape (s : State) (i : Fin 8) (t : Option Tape)
    (h : s.Good → ∀ x, t = some x → x.pos ≤ x.data.length) : PeriChange s (s.setTape i t) := by
  refine ⟨⟨_, _, _, _, _, _, _, _, _, _, rfl⟩, fun hg => ⟨hg.1, hg.2.1, fun j x hj => ?_⟩, rfl⟩
  simp only [State.setTape, Fin.getElem_fin, Vector.getElem_set] at hj
  split at hj
  · exact h hg x hj
  · exact hg.2.2 j x hj

/-! ### The host's answers -/

theorem PeriChange.askTapeOpen (s : State) : PeriChange s s.askTapeOpen.2 := by
  unfold State.askTapeOpen; split
  · exact PeriChange.skip s 1
  · exact PeriChange.host s _

theorem PeriChange.askDiscWrite (s : State) : PeriChange s s.askDiscWrite.2 := by
  unfold State.askDiscWrite; split
  · exact PeriChange.skip s 1
  · exact PeriChange.host s _

theorem PeriChange.askTapeWrite (s : State) : PeriChange s s.askTapeWrite.2 := by
  unfold State.askTapeWrite; split
  · exact PeriChange.skip s 1
  · exact PeriChange.host s _

theorem PeriChange.askPort (s : State) (asked : Word) : PeriChange s (s.askPort asked).2 := by
  unfold State.askPort; split
  · exact PeriChange.skip s 1
  · exact PeriChange.host s _

theorem PeriChange.askSend (s : State) : PeriChange s s.askSend.2 := by
  unfold State.askSend; split
  · exact PeriChange.skip s 1
  · exact PeriChange.host s _

theorem PeriChange.askRecv (s : State) : PeriChange s s.askRecv.2 := by
  unfold State.askRecv; split
  · exact PeriChange.skip s 1
  · exact PeriChange.host s _

/-- A question that is asked only where there is something to ask for changes no more than the question. -/
theorem PeriChange.askWhen {s : State} {answer : Bool × State} (there : Bool) (h : PeriChange s answer.2) :
    PeriChange s (s.askWhen there answer).2 := by
  cases there
  · exact PeriChange.refl s
  · exact h

theorem State.askDiscWrite_discs (s : State) : s.askDiscWrite.2.discs = s.discs := by
  unfold State.askDiscWrite; split <;> rfl

theorem State.askTapeWrite_tapes (s : State) : s.askTapeWrite.2.tapes = s.tapes := by
  unfold State.askTapeWrite; split <;> rfl

/-! ### Units -/

/-- A drive found exists under its index. -/
theorem State.driveOf_some {s : State} {d : Word} {x : Fin 8 × Disc} (h : s.driveOf d = some x) :
    s.discs[x.1] = some x.2 := by
  unfold State.driveOf at h
  split at h
  · cases h
  · rename_i i hi
    cases hd : s.discs[i] with
    | none => simp [hd] at h
    | some disc =>
      simp only [hd, Option.map_some, Option.some.injEq] at h
      subst h
      exact hd

theorem State.tapeOf_some {s : State} {u : Word} {x : Fin 8 × Tape} (h : s.tapeOf u = some x) :
    s.tapes[x.1] = some x.2 := by
  unfold State.tapeOf at h
  split at h
  · cases h
  · rename_i i hi
    cases hd : s.tapes[i] with
    | none => simp [hd] at h
    | some t =>
      simp only [hd, Option.map_some, Option.some.injEq] at h
      subst h
      exact hd

/-- Blocks that are not bad lie on the drive. -/
theorem badBlocks_false {x : Fin 8 × Disc} {b k : Word} (h : badBlocks (some x) b k = false) :
    0 ≤ b.toInt ∧ b.toNat + k.toNat ≤ x.2.size := by
  simp only [badBlocks, Bool.or_eq_false_iff, decide_eq_false_iff_not] at h
  omega

theorem badBlocks_low {x : Option (Fin 8 × Disc)} {b k : Word} (h : badBlocks x b k = false) : 0 ≤ b.toInt := by
  simp only [badBlocks, Bool.or_eq_false_iff, decide_eq_false_iff_not] at h
  omega

theorem codeIf_isEmpty (b : Bool) (c : Word) : (codeIf b c).isEmpty = !b := by cases b <;> rfl

/-! ### The operations -/

theorem discCheck_change {s u : State} {c r : Word} (h : discCheck s c = .done r u) : PeriChange s u := by
  unfold discCheck at h
  repeat' split at h
  all_goals cases h; exact PeriChange.refl s

theorem discRead_change {s u : State} {c r : Word} (h : discRead s c = .done r u) : PeriChange s u := by
  unfold discRead at h
  split at h
  · split at h
    · cases h
    · extract_lets n drive content run codes s1 code at h
      split at h
      · cases h
        exact (PeriChange.skip s _).trans (PeriChange.storeRun _ _ _)
      · simp only [PeriEnd.done.injEq] at h
        rw [← h.2]
        split
        · exact ((PeriChange.skip s _).trans (PeriChange.skip _ 1)).trans (PeriChange.spoil _ _ _)
        · exact (PeriChange.skip s _).trans (PeriChange.skip _ 1)
  · cases h; exact PeriChange.refl s

/-- Blocks of a drive that became free values. -/
theorem State.spoilBlocks_change {s t : State} {d b k : Word} (hd : t.discs = s.discs)
    (hb : badBlocks (s.driveOf d) b k = false) :
    PeriChange t (t.spoilBlocks (s.driveOf d) b.toNat (128 * k.toNat)) := by
  unfold State.spoilBlocks
  split
  · exact PeriChange.refl t
  · rename_i x hx
    rw [hx] at hb
    obtain ⟨h1, h2⟩ := badBlocks_false hb
    refine (PeriChange.skip t _).trans
      (PeriChange.setDisc _ (old := x.2) (by simpa [hd] using State.driveOf_some hx) rfl fun hw => ?_)
    refine Memory.writeRun_wfBelow hw _ ?_
    simp only [State.freeWords, List.length_map, List.length_range]
    omega

theorem discWrite_change {s u : State} {c r : Word} (h : discWrite s c = .done r u) : PeriChange s u := by
  unfold discWrite at h
  split at h
  · rename_i d b k m _
    split at h
    · cases h
    · dsimp only at h
      have ha := PeriChange.askWhen ((s.driveOf d).isSome && !badBlocks (s.driveOf d) b k) (PeriChange.askDiscWrite s)
      have had : (s.askWhen ((s.driveOf d).isSome && !badBlocks (s.driveOf d) b k) s.askDiscWrite).2.discs = s.discs := by
        unfold State.askWhen; split
        · exact State.askDiscWrite_discs s
        · rfl
      split at h
      · rename_i x hx hcodes
        have hb : badBlocks (s.driveOf d) b k = false := by
          cases hbb : badBlocks (s.driveOf d) b k with
          | false => rfl
          | true => rw [hbb] at hcodes; simp [codeIf] at hcodes
        cases h
        rw [hx] at hb
        obtain ⟨h1, h2⟩ := badBlocks_false hb
        refine ha.trans
          (PeriChange.setDisc _ (old := x.2) (by rw [had]; exact State.driveOf_some hx) rfl fun hw => ?_)
        refine Memory.writeRun_wfBelow hw _ ?_
        refine Nat.le_trans (Nat.add_le_add_left (State.readRun_length s _ _) _) ?_
        omega
      · cases h
        split
        · rename_i hc
          exact (ha.trans (PeriChange.skip _ 1)).trans (State.spoilBlocks_change had hc.2)
        · exact ha.trans (PeriChange.skip _ 1)
  · cases h; exact PeriChange.refl s

theorem tapeCheck_change {s u : State} {c r : Word} (h : tapeCheck s c = .done r u) : PeriChange s u := by
  unfold tapeCheck at h
  repeat' split at h
  all_goals cases h; exact PeriChange.refl s

theorem tapeRewind_change {s u : State} {c r : Word} (h : tapeRewind s c = .done r u) : PeriChange s u := by
  unfold tapeRewind at h
  split at h
  · split at h
    · cases h; exact PeriChange.refl s
    · cases h
      exact PeriChange.setTape s _ _ (fun _ y hy => by cases hy; exact Nat.zero_le _)
  · cases h; exact PeriChange.refl s

theorem tapeUnload_change {s u : State} {c r : Word} (h : tapeUnload s c = .done r u) : PeriChange s u := by
  unfold tapeUnload at h
  repeat' split at h
  all_goals
    cases h
    first
      | exact PeriChange.refl s
      | exact PeriChange.setTape s _ _ (fun _ y hy => by cases hy)

theorem tapeLoad_change {s u : State} {c r : Word} (h : tapeLoad s c = .done r u) : PeriChange s u := by
  unfold tapeLoad at h
  split at h
  · split at h
    · cases h
    · dsimp only at h
      split at h
      · cases h
        exact (PeriChange.askTapeOpen s).trans
          (PeriChange.setTape _ _ _ (fun _ y hy => by cases hy; exact Nat.zero_le _))
      · cases h
        exact (PeriChange.askTapeOpen s).trans (PeriChange.skip _ 1)
  · cases h; exact PeriChange.refl s

theorem State.freeUpTo_le (s : State) (n : Nat) : s.freeUpTo n ≤ n :=
  Nat.le_of_lt_succ (Nat.mod_lt _ (Nat.succ_pos n))

theorem tapeRead_change {s u : State} {c r : Word} (h : tapeRead s c = .done r u) : PeriChange s u := by
  unfold tapeRead at h
  split at h
  · split at h
    · cases h; exact PeriChange.refl s
    · rename_i x hx
      have ht := State.tapeOf_some hx
      dsimp only at h
      have hl : ∀ t : State, t.Good → t.tapes = s.tapes →
          x.2.pos + ((x.2.data.drop x.2.pos).take 512).length ≤ x.2.data.length := by
        intro t hg h0
        have := hg.2.2 x.1 x.2 (by rw [h0]; exact ht)
        simp only [List.length_take, List.length_drop]
        omega
      split at h
      · split at h
        · cases h; exact PeriChange.refl s
        · cases h
          refine ((PeriChange.skip s 1).trans (PeriChange.storeRun _ _ _)).trans
            (PeriChange.setTape _ _ _ (fun hg y hy => ?_))
          cases hy
          exact hl _ hg (State.storeRun_tapes _ _ _)
      · cases h
        split
        · refine ((PeriChange.skip s 1).trans ((PeriChange.skip _ 1).trans (PeriChange.spoil _ _ _))).trans
            (PeriChange.setTape _ _ _ (fun hg y hy => ?_))
          cases hy
          exact Nat.le_trans (Nat.add_le_add_left (State.freeUpTo_le (s.skip 1) _) _)
            (hl _ hg (State.storeRun_tapes _ _ _))
        · exact PeriChange.skip s 1
  · cases h; exact PeriChange.refl s

theorem putBytes_good (t : Tape) (bs : List Byte) (h : t.pos ≤ t.data.length) :
    (putBytes t bs).pos ≤ (putBytes t bs).data.length := by
  simp only [putBytes, List.length_append, List.length_take, List.length_drop]
  omega

theorem PeriChange.spoilTape (t : State) (x : Fin 8 × Tape) (n : Nat) : PeriChange t (t.spoilTape x n) := by
  unfold State.spoilTape
  refine (PeriChange.skip t _).trans (PeriChange.setTape _ _ _ (fun _ y hy => ?_))
  cases hy
  exact Nat.min_le_right _ _

theorem tapeWrite_change {s u : State} {c r : Word} (h : tapeWrite s c = .done r u) : PeriChange s u := by
  unfold tapeWrite at h
  split at h
  · split at h
    · cases h
    · dsimp only at h
      split at h
      · cases h; exact PeriChange.skip s 1
      · rename_i x hx
        have hx' := (Option.filter_eq_some_iff.mp hx).1
        have ht := State.tapeOf_some hx'
        split at h
        · cases h
          refine (PeriChange.askTapeWrite s).trans (PeriChange.setTape _ _ _ (fun hg y hy => ?_))
          cases hy
          exact putBytes_good _ _ (hg.2.2 x.1 x.2 (by rw [State.askTapeWrite_tapes]; exact ht))
        · cases h
          exact ((PeriChange.askTapeWrite s).trans (PeriChange.skip _ 1)).trans
            (PeriChange.spoilTape _ _ _)
  · cases h; exact PeriChange.refl s

theorem State.takeKeys_change {s u : State} {max m r : Word} {form : List Byte → List Word}
    (h : s.takeKeys max m form = .done r u) : PeriChange s u := by
  unfold State.takeKeys at h
  split at h
  · cases h
  · dsimp only at h
    split at h
    · cases h; exact (PeriChange.kbuf s _).trans (PeriChange.storeRun _ _ _)
    · cases h; exact ((PeriChange.kbuf s _).trans (PeriChange.skip _ 1)).trans (PeriChange.spoil _ _ _)

theorem termInC_change {s u : State} {c r : Word} (h : termInC s c = .done r u) : PeriChange s u := by
  unfold termInC at h
  split at h
  · exact State.takeKeys_change h
  · cases h; exact PeriChange.refl s

theorem termInW_change {s u : State} {c r : Word} (h : termInW s c = .done r u) : PeriChange s u := by
  unfold termInW at h
  split at h
  · exact State.takeKeys_change h
  · cases h; exact PeriChange.refl s

theorem State.printScan_change {s u : State} {bs : List Byte} {e : ScanEnd} {r : Word}
    (h : s.printScan bs e = .done r u) : PeriChange s u := by
  cases e <;> cases h <;> exact PeriChange.print s bs

theorem State.printCount_change {s u : State} {k : Word} {bs : List Byte} {ok : Bool} {r : Word}
    (h : s.printCount k bs ok = .done r u) : PeriChange s u := by
  unfold State.printCount at h
  split at h
  · cases h; exact PeriChange.print s bs
  · cases h; exact (PeriChange.print s _).trans (PeriChange.skip _ 1)

theorem termOutC_change {s u : State} {c r : Word} (h : termOutC s c = .done r u) : PeriChange s u := by
  unfold termOutC at h
  split at h
  · split at h
    · cases h
    · split at h
      · exact State.printScan_change h
      · exact State.printCount_change h
  · cases h; exact PeriChange.refl s

theorem termOutW_change {s u : State} {c r : Word} (h : termOutW s c = .done r u) : PeriChange s u := by
  unfold termOutW at h
  split at h
  · split at h
    · cases h
    · split at h
      · exact (PeriChange.skip s _).trans (State.printScan_change h)
      · exact (PeriChange.skip s _).trans (State.printCount_change h)
  · cases h; exact PeriChange.refl s

theorem State.netStart_change {s u : State} {n p r : Word} (h : s.netStart n p = .done r u) : PeriChange s u := by
  unfold State.netStart at h
  dsimp only at h
  split at h
  · split at h
    · cases h
    · split at h
      · split at h
        · cases h
          exact (((PeriChange.askPort s _).trans (PeriChange.storeRun _ _ _)).trans (PeriChange.setNet _ _ _)).trans
            (PeriChange.skip _ 1)
        · cases h
          exact (((PeriChange.askPort s _).trans (PeriChange.setNet _ _ _)).trans (PeriChange.skip _ 1)).trans
            (PeriChange.spoil _ _ _)
      · cases h
        exact (PeriChange.askPort s _).trans (PeriChange.skip _ 1)
  · cases h; exact PeriChange.skip s 1

theorem State.netStop_change {s u : State} {n p r : Word} (h : s.netStop n p = .done r u) : PeriChange s u := by
  unfold State.netStop at h
  split at h
  · cases h; exact PeriChange.refl s
  · cases h
    exact (((PeriChange.setNet s _ _).trans (PeriChange.skip _ 1)).trans (PeriChange.spoil _ _ _)).trans
      (PeriChange.spoil _ _ _)

theorem netSS_change {s u : State} {c r : Word} (h : netSS s c = .done r u) : PeriChange s u := by
  unfold netSS at h
  split at h
  · split at h
    · exact State.netStart_change h
    · split at h
      · exact State.netStop_change h
      · cases h
  · cases h; exact PeriChange.refl s

theorem netSend_change {s u : State} {c r : Word} (h : netSend s c = .done r u) : PeriChange s u := by
  unfold netSend at h
  split at h
  · rename_i u _ _ _ _
    extract_lets bad pair data answer codes at h
    have ha : PeriChange s answer.2 := PeriChange.askWhen _ (PeriChange.askSend s)
    split at h
    · cases h
      exact (ha.trans (PeriChange.sent _ _)).trans (PeriChange.skip _ 1)
    · cases h
      exact ha.trans (PeriChange.skip _ 1)
  · cases h; exact PeriChange.refl s

theorem State.storePacket_change (s : State) (p m : Word) (k : Packet) :
    PeriChange s (s.storePacket p m k).2.state := by
  have h1 : PeriChange s ((s.skip 1).storeRun p [k.endpoint.1, k.endpoint.2]).state :=
    (PeriChange.skip s 1).trans (PeriChange.storeRun _ _ _)
  unfold State.storePacket
  dsimp only
  split
  · exact h1.trans (PeriChange.storeRun _ _ _)
  · exact h1

theorem netRecv_change {s u : State} {c r : Word} (h : netRecv s c = .done r u) : PeriChange s u := by
  unfold netRecv at h
  split at h
  · split at h
    · cases h; exact PeriChange.skip s 1
    · dsimp only at h
      split at h
      · cases h; exact (PeriChange.askRecv s).trans (PeriChange.skip _ 1)
      · split at h
        · cases h
          exact (((PeriChange.askRecv s).trans (State.storePacket_change _ _ _ _)).trans
            (PeriChange.setNet _ _ _)).trans (PeriChange.skip _ 1)
        · cases h
          split
          · exact (((((PeriChange.askRecv s).trans (PeriChange.skip _ 1)).trans (PeriChange.setNet _ _ _)).trans
              (PeriChange.skip _ 1)).trans (PeriChange.spoil _ _ _)).trans (PeriChange.spoil _ _ _)
          · exact (PeriChange.askRecv s).trans (PeriChange.skip _ 1)
  · cases h; exact PeriChange.refl s

theorem State.answerWords_change {s u : State} {a r : Word} {ws : List Word} (h : s.answerWords a ws = .done r u) :
    PeriChange s u := by
  unfold State.answerWords at h
  dsimp only at h
  split at h
  · cases h; exact (PeriChange.storeRun s _ _).trans (PeriChange.skip _ 1)
  · cases h; exact PeriChange.spoil s _ _

theorem dateTime_change {s u : State} {c r : Word} (h : dateTime s c = .done r u) : PeriChange s u := by
  unfold dateTime at h
  split at h
  · split at h
    · cases h
    · exact State.answerWords_change h
  · cases h; exact PeriChange.refl s

/-- Every operation of PERI that ends changes memory and the devices alone. -/
theorem runPeriOp_change {o : PeriOp} {s u : State} {c r : Word} (h : runPeriOp o s c = .done r u) :
    PeriChange s u := by
  cases o with
  | discCheck => exact discCheck_change h
  | discRead => exact discRead_change h
  | discWrite => exact discWrite_change h
  | tapeCheck => exact tapeCheck_change h
  | tapeRewind => exact tapeRewind_change h
  | tapeLoad => exact tapeLoad_change h
  | tapeUnload => exact tapeUnload_change h
  | tapeRead => exact tapeRead_change h
  | tapeWrite => exact tapeWrite_change h
  | termInC => exact termInC_change h
  | termOutC => exact termOutC_change h
  | termInW => exact termInW_change h
  | termOutW => exact termOutW_change h
  | netSS => exact netSS_change h
  | netSend => exact netSend_change h
  | netRecv => exact netRecv_change h
  | seconds => cases h; exact PeriChange.refl s
  | uSeconds => exact State.answerWords_change h
  | dateTime => exact dateTime_change h

theorem State.periAt_change {s u : State} {c r : Word} (h : s.periAt c = .done r u) : PeriChange s u := by
  unfold State.periAt at h
  split at h
  · cases h; exact PeriChange.refl s
  · split at h
    · cases h; exact PeriChange.refl s
    · exact runPeriOp_change h

end Sys2Proof.Machine
end

