-- ==== Sys2Proof/Tests/Slice0.lean ====
section
/-! SUPPORT. The model's own tests: the well-formedness smoke, one written-out word for each instruction, vectors of
spec/95_test_vectors.md, one-step tests, and for each obligation with hypotheses a witness that meets them. -/

namespace Sys2Proof.Tests

open Sys2Proof.Machine

/-! ### Helpers -/

/-- The next state of an outcome. -/
def nextOf : Host.Outcome State Fault Refusal → Option State
  | .next t => some t
  | _ => none

/-- The refusal of an outcome. -/
def refusalOf : Host.Outcome State Fault Refusal → Option Refusal
  | .refused r => some r
  | _ => none

theorem isNext {o : Host.Outcome State Fault Refusal} (h : (nextOf o).isSome = true) : ∃ t, o = .next t := by
  cases o with
  | next t => exact ⟨t, rfl⟩
  | fault f => cases h
  | refused r => cases h

theorem isRefused {o : Host.Outcome State Fault Refusal} (h : (refusalOf o).isSome = true) :
    ∃ r, o = .refused r := by
  cases o with
  | next t => cases h
  | fault f => cases h
  | refused r => exact ⟨r, rfl⟩

/-- R0 to R12 by number. -/
def r (n : Fin 13) : Reg := .r n

/-- Registers Rk = 0x100 + k, as in vector V4.1. -/
def regs : Vector Word 13 := Vector.ofFn (fun i : Fin 13 => BitVec.ofNat 32 (0x100 + i.val))

/-- A state with the given FLAGS word, PC and memory; the stacks and vectors lie as in vectors V4.1 and V5. -/
def at_ (fl pc : Word) (m : Memory) : State :=
  { State.reset with
    gpr := regs, pc := pc, mem := m, flags := flagsOfWord fl, intvec := 0x400, cgbr := 0x300, cglen := 4,
    sysSp := 0x2000, sysFp := 0x2100, usrSp := 0x9000, usrFp := 0x9100 }

/-- System mode with interrupts ignored. -/
def sys (m : Memory) : State := at_ 0x31 0x100 m

/-- User mode with interrupts accepted. -/
def usr (m : Memory) : State := at_ 0x01 0x8010 m

/-- The same machine, its words read by the model's layout (Log 1). -/
def laidOut (s : State) : State := { s with params := { s.params with byLayout := true } }

/-- What a field of the next state is. -/
def after {α : Type} (i : Instr) (s : State) (f : State → α) : Option α := (nextOf (exec i s)).map f

/-! ### Terms that have no word in the layout (WellFormed.lean) -/

theorem test_wf_number : (Instr.push (.num 0x100000)).wf = false := by decide
theorem test_wf_number_top : (Instr.push (.num 0xFFFFF)).wf = true := by decide
theorem test_wf_offset : (Instr.load .sp (.indOff .fp 0x10000)).wf = false := by decide
theorem test_wf_offset_top : (Instr.load .sp (.indOff .fp 0xFFFF)).wf = true := by decide
theorem test_wf_address : (Instr.store .sp (.abs 0x100000)).wf = false := by decide
theorem test_wf_special_number : (Instr.getsr .sp 0x100000).wf = false ∧ (Instr.setsr .sp 0x100000).wf = false := by
  decide
theorem test_wf_flag_number : (Instr.getfl .sp 0x100000).wf = false ∧ (Instr.setfl .sp 0x100000).wf = false := by
  decide
theorem test_wf_condition : (Instr.jcond (.unlisted 0) (.num 0)).wf = false := by decide

/-! ### One word for each instruction, written out from the layout of Log 1 -/

-- bits 31..27 operation, 26..23 register, 22..20 form, 19..0 number; or 19..16 register, 15..0 added number
theorem test_decode_getsr : decode 0b00001_0001_000_00000000000000000000 = .ok (.getsr (r 1) 0) := by decide
theorem test_decode_setsr : decode 0b00010_0001_000_00000000000000000110 = .ok (.setsr (r 1) 6) := by decide
theorem test_decode_getfl : decode 0b00011_0010_000_00000000000000000101 = .ok (.getfl (r 2) 5) := by decide
theorem test_decode_setfl : decode 0b00100_0001_000_00000000000000000101 = .ok (.setfl (r 1) 5) := by decide
theorem test_decode_flagsj : decode 0b00101_0001_000_00000001000000000000 = .ok (.flagsj (r 1) (.num 0x1000)) := by
  decide
theorem test_decode_comp : decode 0b00110_0011_001_0100_0000000000000000 = .ok (.comp (r 3) (.reg (r 4))) := by decide
theorem test_decode_compz : decode 0b00111_0000_010_1101_0000000000000000 = .ok (.compz (.ind .sp)) := by decide
theorem test_decode_jcond : decode 0b01000_0000_000_00000000000101000000 = .ok (.jcond .err (.num 0x140)) := by decide
theorem test_decode_jcond_unlisted : decode 0b01000_0011_000_00000000000000000001 = .ok (.jcond (.unlisted 3) (.num 1)) := by
  decide
theorem test_decode_exbr : decode 0b01001_0000_0000_0000_0000_0000_0000_101 = .ok (.exbr 5) := by decide
theorem test_decode_dpbr : decode 0b01010_0000_0000_0000_0000_0000_0000_101 = .ok (.dpbr 5) := by decide
theorem test_decode_exbrv : decode 0b01011_0000_0000_0000_0000_0000_0000_101 = .ok (.exbrv 5) := by decide
theorem test_decode_dpbrv : decode 0b01100_0000_0000_0000_0000_0000_0000_101 = .ok (.dpbrv 5) := by decide
theorem test_decode_sbit : decode 0b01101_0001_000_00000000000000000110 = .ok (.sbit (r 1) (.num 6)) := by decide
theorem test_decode_cbit : decode 0b01110_0001_000_00000000000000000100 = .ok (.cbit (r 1) (.num 4)) := by decide
theorem test_decode_peri : decode 0b01111_0011_000_00000000000101010000 = .ok (.peri (r 3) (.num 0x150)) := by decide
theorem test_decode_halt : decode 0b10000_0000_000_00000000000000000000 = .ok .halt := by decide
theorem test_decode_syscall : decode 0b10001_0000_000_00000000000000000010 = .ok (.syscall (.num 2)) := by decide
theorem test_decode_iret : decode 0b10010_0000_000_00000000000000000000 = .ok .iret := by decide
theorem test_decode_phload : decode 0b10011_0000_0000_0000_0000_0000_0000_001 = .ok (.phload 1) := by decide
theorem test_decode_phstore : decode 0b10100_0000_0000_0000_0000_0000_0000_001 = .ok (.phstore 1) := by decide
theorem test_decode_clrpp : decode 0b10101_0000_0000_0000_0000_0000_0000_000 = .ok (.clrpp 0) := by decide
theorem test_decode_load : decode 0b10110_0001_011_0010_0000000000000001 = .ok (.load (r 1) (.indOff (r 2) 1)) := by
  decide
theorem test_decode_store : decode 0b10111_0001_100_00000000001000000111 = .ok (.store (r 1) (.abs 0x207)) := by decide
theorem test_decode_push : decode 0b11000_0000_001_1110_0000000000000000 = .ok (.push (.reg .fp)) := by decide
theorem test_decode_call : decode 0b11001_0000_000_00000000011100000000 = .ok (.call (.num 0x700)) := by decide
theorem test_decode_ret : decode 0b11010_0000_000_00000000000000000000 = .ok .ret := by decide
theorem test_decode_inc : decode 0b11011_0000_010_0001_0000000000000000 = .ok (.inc (.ind (r 1))) := by decide
theorem test_decode_pc : decode 0b10110_1111_001_1111_0000000000000000 = .ok (.load .pc (.reg .pc)) := by decide
theorem test_decode_rejects_operation : decode 0 = .error .unknownOperation ∧ decode 0xE0000000 = .error .unknownOperation := by
  decide
theorem test_decode_rejects_form : decode 0b10110_0001_101_00000000000000000000 = .error .unknownOperandForm := by decide
theorem test_decode_rejects_unused : decode 0b10000_0000_000_00000000000000000001 = .error .unusedFieldNotZero := by
  decide
theorem test_decode_rejects_register_number :
    decode 0b00001_0001_001_0010_0000000000000000 = .error .numberExpected := by decide
theorem test_table_word : decodeTableWord 32 0x80000000 = some .halt ∧ decodeTableWord 40 0x180000000 = none := by decide

/-! ### Vectors V2, V8 and S7: bit ranges, the calendar, packed strings -/

theorem test_extract : [(0x12345678, 0x108), (0x12345678, 0x384), (0xDEADBEEF, 0), (0x80000000, 0x3E1), (0x00C01234, 0x16B),
    (0xFFFFFFE5, 0xC05), (1, 0x3E2), (1, 0x20)].map (fun x : Word × Word => extractRange x.1 x.2) =
    [some 0x56, some 1, some 0xDEADBEEF, some 1, some 2, some 5, none, none] := by decide
theorem test_deposit : depositRange 0x12345678 0x108 0xAB = some 0x1234AB78 ∧
    depositRange 0x12345678 0x108 0x1FF = some 0x1234FF78 ∧ depositRange 0xFFFFFFFF 0x384 0 = some 0x0FFFFFFF ∧
    depositRange 0 0 0xCAFEBABE = some 0xCAFEBABE ∧ depositRange 0x1111 0xA10 0xBEEF = some 0xBEEF1111 := by decide
theorem test_extract_from_vector : (sys [(1003, 0xFFFFFFE5)]).extractFromVector 1000 0xC05 = .ok (some 5) := by decide
theorem test_deposit_into_vector : ((sys [(1002, 0x1111)]).depositIntoVector 1000 0xA10 0xBEEF).map
    (fun t => t.map (fun u => u.mem)) = .ok (some [(1002, 0xBEEF1111)]) := by decide
theorem test_calendar : [0, 86399, 86400, 5097600, 31622400].map dateTimeParts =
    [[2000, 1, 1, 6, 0, 0, 0], [2000, 1, 1, 6, 23, 59, 59], [2000, 1, 2, 0, 0, 0, 0], [2000, 2, 29, 2, 0, 0, 0],
     [2001, 1, 1, 1, 0, 0, 0]] := by decide
theorem test_calendar_late : dateTimeParts 847456496 = [2026, 11, 8, 0, 12, 34, 56] ∧
    dateTimeParts 2147483647 = [2068, 1, 19, 4, 3, 14, 7] := by decide
theorem test_packed_string : packBytes ("tests/file.txt".toList.map (fun c => BitVec.ofNat 8 c.toNat)) =
    [0x74736574, 0x69662F73, 0x742E656C, 0x00007478] := by decide

/-! ### One step of each instruction, from vectors V1, V3 to V7 and V9 -/

/-- The state with general register `n` holding `v`. -/
def withR (n : Fin 13) (v : Word) (s : State) : State := s.setReg (r n) v

/-- FLAGS after the instruction. -/
def flagsAfter (i : Instr) (s : State) : Option Word := after i s (fun t => flagsWord t.flags)

/-- A general register after the instruction. -/
def regAfter (n : Fin 13) (i : Instr) (s : State) : Option Word := after i s (fun t => t.reg (r n))

theorem test_getsr_flags : regAfter 1 (.getsr (r 1) 0) (sys []) = some 49 := by decide
theorem test_getsr_user : regAfter 1 (.getsr (r 1) 7) (usr []) = some 0x2000 := by decide
theorem test_setsr_flags : after (.setsr (r 1) 0) (withR 1 0xFFFFFF80 (sys [])) (fun t => (t.flags, t.stopReason)) =
    some (flagsOfWord 0, some .rWritten) := by decide
theorem test_getfl : regAfter 2 (.getfl (r 2) 4) (sys []) = some 1 ∧ regAfter 2 (.getfl (r 2) 6) (sys []) = some 0 := by
  decide
theorem test_setfl : flagsAfter (.setfl (r 1) 1) (withR 1 0x80000000 (sys [])) = some 0x33 ∧
    flagsAfter (.setfl (r 1) 5) (withR 1 0 (sys [])) = some 0x11 := by decide
theorem test_setfl_user : flagsAfter (.setfl (r 1) 3) (usr []) = some 0x09 ∧
    after (.setfl (r 1) 0) (usr [(0x408, 0x600)]) (fun t => t.pc) = some 0x600 := by decide
theorem test_flagsj : after (.flagsj (r 1) (.num 0x500)) (withR 1 0x13 (sys [])) (fun t => (flagsWord t.flags, t.pc)) =
    some (0x13, 0x500) := by decide
theorem test_comp : flagsAfter (.comp (r 1) (.num 0x101)) (sys []) = some 0x33 ∧
    flagsAfter (.comp (r 1) (.num 0x102)) (sys []) = some 0x35 := by decide
theorem test_comp_signed : flagsAfter (.comp (r 1) (.num 1)) (withR 1 0xFFFFFFFF (sys [])) = some 0x35 := by decide
theorem test_compz : flagsAfter (.compz (.num 0)) (sys []) = some 0x33 ∧
    flagsAfter (.compz (.num 0x80000000)) (sys []) = some 0x35 := by decide
theorem test_jcond : after (.jcond .err (.num 0x140)) (at_ 0x39 0x106 []) (fun t => t.pc) = some 0x140 ∧
    after (.jcond .err (.num 0x140)) (at_ 0x31 0x106 []) (fun t => t.pc) = some 0x107 := by decide
theorem test_bit_range_instructions_refused : refusalOf (exec (.exbr 0) (sys [])) = some .bitRangeOperandRoles ∧
    refusalOf (exec (.dpbrv 5) (usr [])) = some .bitRangeOperandRoles := by decide
theorem test_sbit : regAfter 1 (.sbit (r 1) (.num 6)) (withR 1 33 (sys [])) = some 97 ∧
    regAfter 1 (.sbit (r 1) (.num 6)) (withR 1 97 (sys [])) = some 97 := by decide
theorem test_cbit : regAfter 1 (.cbit (r 1) (.num 4)) (withR 1 49 (sys [])) = some 33 ∧
    regAfter 1 (.cbit (r 1) (.num 0)) (withR 1 0xFFFFFFFF (sys [])) = some 0xFFFFFFFE := by decide
theorem test_halt_system : after .halt (sys []) (fun t => (flagsWord t.flags, t.pc, t.stopReason)) =
    some (0x30, 0x101, some .haltInstruction) := by decide
theorem test_halt_user : after .halt (usr [(0x404, 0x700)]) (fun t => (t.pc, t.memWord 0x1FED)) = some (0x700, 4) := by
  decide
theorem test_syscall_frame : after (.syscall (.num 2)) (usr [(0x302, 0x5000)]) (fun t =>
      [flagsWord t.flags, t.pc, t.sysSp, t.usrSp] ++ [0x1FEE, 0x1FEF, 0x1FF0, 0x1FF1, 0x1FF2, 0x1FF3, 0x1FFF].map t.memWord) =
    some [0x31, 0x5000, 0x1FEE, 0x9000, 40, 0x01, 0x8011, 0x2100, 0x1FF3, 0x10C, 0x100] := by decide
theorem test_syscall_bad_index : after (.syscall (.num 4)) (usr [(0x40A, 0x700)])
      (fun t => (t.pc, t.memWord 0x1FED, t.memWord 0x1FEF)) = some (0x700, 10, 4) ∧
    refusalOf (exec (.syscall (.num 1)) (usr [(0x301, 0)])) = some .zeroCallGate := by decide
theorem test_phload : refusalOf (exec (.phload 0) (sys [])) = some .effectNotInSource ∧
    after (.phload 0) (usr [(0x408, 0x600)]) (fun t => t.pc) = some 0x600 := by decide
theorem test_phstore : after (.phstore 0) (usr [(0x408, 0x600)]) (fun t => t.pc) = some 0x600 := by decide
theorem test_clrpp : after (.clrpp 0) (usr [(0x408, 0x600)]) (fun t => t.pc) = some 0x600 := by decide
theorem test_load : regAfter 1 (.load (r 1) (.num 100)) (sys []) = some 100 ∧
    regAfter 1 (.load (r 1) (.indOff (r 2) 1)) (withR 2 0x500 (sys [(0x501, 7)])) = some 7 := by decide
theorem test_store : after (.store (r 1) (.ind (r 2))) (withR 2 0x500 (sys [])) (fun t => t.mem) = some [(0x500, 0x101)] := by
  decide
theorem test_store_constant : after (.store (r 1) (.num 72)) (usr [(0x406, 0x650)]) (fun t => (t.pc, t.memWord 0x1FEE)) =
    some (0x650, 0x8010) := by decide
theorem test_push : after (.push (.reg (r 5))) (sys []) (fun t => (t.sp, t.memWord 0x1FFF)) = some (0x1FFF, 0x105) ∧
    after (.push (.reg .sp)) (sys []) (fun t => (t.sp, t.memWord 0x1FFF)) = some (0x1FFF, 0x2000) := by decide
theorem test_push_fails : after (.push (.reg (r 1))) { sys [] with sysSp := 0 } (fun t => (t.sp, t.stopReason)) =
    some (0, some (.fatalInterrupt .memory)) := by decide
theorem test_call : after (.call (.num 0x700)) (at_ 0x31 0x120 []) (fun t => (t.pc, t.sp, t.memWord 0x1FFF)) =
    some (0x700, 0x1FFF, 0x121) := by decide
theorem test_ret : after .ret { sys [(0x1FFF, 0x121)] with sysSp := 0x1FFF } (fun t => (t.pc, t.sp)) = some (0x121, 0x2000) := by
  decide
theorem test_inc : regAfter 1 (.inc (.reg (r 1))) (withR 1 0xFFFFFFFF (sys [])) = some 0 ∧
    after (.inc (.abs 0x500)) (sys [(0x500, 7)]) (fun t => t.mem) = some [(0x500, 8)] := by decide
theorem test_inc_constant : after (.inc (.num 72)) (usr [(0x406, 0x650)]) (fun t => (t.pc, t.memWord 0x1FED)) =
    some (0x650, 6) := by decide

/-- V4.1: PRIVOP is delivered. -/
theorem test_interrupt_frame : after (.setsr (r 1) 6) (usr [(0x408, 0x600)]) (fun t =>
      [flagsWord t.flags, t.pc, t.sysSp, t.usrSp, t.timer] ++
        [0x1FEB, 0x1FEC, 0x1FED, 0x1FEE, 0x1FF0, 0x1FF1, 0x1FF2, 0x1FF3, 0x1FFE, 0x1FFF].map t.memWord) =
    some [0x31, 0x600, 0x1FEB, 0x9000, 0, 40, 0x01, 8, 0x8010, 0x8010, 0x2100, 0x1FF3, 0x10C, 0x101, 0x100] := by decide
/-- V4.2: and returned from. -/
theorem test_iret : (nextOf (exec (.setsr (r 1) 6) (usr [(0x408, 0x600)]))).bind (fun t =>
      after .iret t (fun u => (u.gpr, u.sysSp, u.sysFp, flagsWord u.flags, u.pc))) =
    some (regs, 0x2000, 0x2100, 0x01, 0x8010) := by decide
/-- V4.4: no handler. -/
theorem test_unhandled : after (.setsr (r 1) 6) (usr [(0x408, 0)]) (fun t => (t.flags.r, t.stopReason, t.pc, t.sysSp)) =
    some (false, some (.fatalInterrupt .privop), 0x8010, 0x2000) := by decide
/-- V4.5: the pushes fail part way. -/
theorem test_delivery_fails : after (.setsr (r 1) 6) { usr [(0x408, 0x600), (0x40D, 0)] with sysSp := 5 }
      (fun t => (t.flags.r, t.stopReason, t.pc)) = some (false, some (.fatalInterrupt .intrfault), 0x8010) := by decide

/-! ### Translation, V3 -/

/-- The tables of V3. -/
def paged : Memory :=
  [(0x4000, 0x9001), (0x4001, 0), (0x4003, 0x8003), (0x43FF, 0), (0x8002, 0x12801), (0x8003, 0x13003), (0x8004, 0x13800),
   (0x9000, 0x801)]

/-- VM = 1 over the tables of V3, in user or system mode. -/
def walk (fl : Word) : State := { at_ fl 0x68 paged with pdbr := 0x4123 }

theorem test_translate_user : [0x00C01234, 0x00C01805, 0x00C02000, 0x00400000, 0x68, 0xFFFFFFFF].map (walk 0x41).translate =
    [.ok 0x12A34, .error (.trap ⟨.pagepriv, 0x00C01805, none⟩), .error (.trap ⟨.pagefault, 0x00C02000, none⟩),
     .error (.trap ⟨.pagefault, 0x00400000, none⟩), .ok 0x868, .error (.trap ⟨.pagefault, 0xFFFFFFFF, none⟩)] := by decide
theorem test_translate_system : (walk 0x71).translate 0x00C01805 = .ok 0x13005 := by decide

/-! ### PERI, V7 -/

/-- System mode with the given control structure at 0x150. -/
def ctl (ws : List Word) : State := sys (Memory.writeRun [] 0x150 ws)

/-- The call `PERI R3, 0x150`. -/
def call3 : Instr := .peri (r 3) (.num 0x150)

/-- R3 and ERR after the call. -/
def result (s : State) : Option (Word × Bool) := after call3 s (fun t => (t.reg (r 3), t.flags.err))

theorem test_peri_disccheck : result (ctl [0x101, 1]) = some (6000, false) ∧ result (ctl [0x101, 2]) = some (0, false) ∧
    result (ctl [0x101, 9]) = some (-3, true) ∧ result (ctl [0x7FF]) = some (-1, true) := by decide
theorem test_peri_terminc : after call3 { ctl [0x10A, 10, 0x500] with kbuf := [104, 105, 33] }
    (fun t => (t.reg (r 3), t.memWord 0x500, t.kbuf)) = some (3, 0x00216968, []) := by decide

/-! ### The whole step -/

/-- A state whose next word is `w`, read by the model's layout. -/
def ready (w : Word) : State := laidOut (sys [(0x100, w)])

/-- A state whose next word is 7, which the codebook lists as `m`. -/
def listed (m : WordMeaning) : State :=
  { sys [(0x100, 7)] with params := { Params.reset with codebook := [(7, m)] } }

/-- V6: SETSR writes TIMER, and the step counts that SETSR. -/
theorem test_step_timer : (nextOf (step (withR 1 100 (ready 0x10800006)))).map (fun t => t.timer) =
    some 99 := by decide
/-- V6: TIMER reaches 0 and interrupts; the frame holds the address after the SETSR. -/
theorem test_step_timer_interrupt :
    (nextOf (step (laidOut (withR 1 1 (at_ 0x11 0x100 [(0x100, 0x10800006), (0x407, 0x700)]))))).map
      (fun t => (t.pc, t.timer, t.memWord 0x1FF0)) = some (0x700, 0, 0x101) := by decide
theorem test_step_fetch_word : (nextOf (step (State.reset.withFetchWord 32 0xB0800064))).map
    (fun t => (t.reg (r 1), t.pc)) = some (100, 0x101) := by decide
/-- 30_encoding.md R81: nothing says what a word stands for. -/
theorem test_step_unknown_word : refusalOf (step (sys [(0x100, 0xB0800064)])) = some .wordOfUnknownStatus := by decide
/-- R197: the codebook lists an instruction the source does not name; R204: a word that is not implemented. -/
theorem test_step_listed_words : refusalOf (step (listed .notInSource)) = some .instructionNotInSource ∧
    (nextOf (step (listed .unimplemented))).map (fun t => (t.stopReason, t.pc)) =
      some (some (.fatalInterrupt .unimpop), 0x100) ∧
    (nextOf (step (listed (.instr .halt)))).map (fun t => t.stopReason) = some (some .haltInstruction) := by decide
theorem test_step_halted : nextOf (step { sys [] with flags := flagsOfWord 0x30 }) = some { sys [] with flags := flagsOfWord 0x30 } := by
  decide

/-! ### Witnesses: for each obligation with hypotheses, a state and operands that meet them

Where a statement has several clauses there is one line for each, at an edge of its range. -/

theorem witness_DecodeAndEncodeAgree : (Instr.load .pc (.indOff .fp 0xFFFF)).wf = true ∧
    (Instr.push (.num 0xFFFFF)).wf = true ∧ decode 0xB7BEFFFF = .ok (.load .pc (.indOff .fp 0xFFFF)) := by decide

theorem witness_StepExecutes_next : (ready 0xB0800064).flags.r = true ∧ (ready 0xB0800064).beginStep.beforeFetch = none ∧
    (ready 0xB0800064).beginStep.readMem (ready 0xB0800064).beginStep.pc = .ok 0xB0800064 ∧
    decodeWord (ready 0xB0800064).beginStep.params 0xB0800064 = some (.instr (.load (r 1) (.num 100))) ∧
    (after (.load (r 1) (.num 100)) (ready 0xB0800064).beginStep (fun t => t.interrupted)) = some false := by decide
theorem witness_StepExecutes_interrupted : (after (.setsr (r 1) 6) (usr [(0x408, 0x600), (0x8010, 0x10800006)]).beginStep
    (fun t => t.interrupted)) = some true := by decide
theorem witness_StepExecutes_refused :
    refusalOf (exec (.jcond (.unlisted 3) (.num 1)) (ready 0x41800001).beginStep) = some .unlistedCondition ∧
    decodeWord (ready 0x41800001).beginStep.params 0x41800001 = some (.instr (.jcond (.unlisted 3) (.num 1))) := by decide
/-- A SYSCALL through a gate entry that cannot be read: the next state carries the mark. -/
theorem witness_StepExecutes_gate : ({ usr [(0x40D, 0)] with cgbr := 0x1FFFD } : State).value (.num 3) = .ok 3 ∧
    after (.syscall (.num 3)) ({ usr [(0x40D, 0)] with cgbr := 0x1FFFD } : State).beginStep
      (fun t => (t.interrupted, t.stopReason)) = some (true, some (.fatalInterrupt .intrfault)) := by decide
theorem witness_StepExecutes_fetch_memory : (at_ 0x31 0x20000 []).beginStep.beforeFetch = none ∧
    (at_ 0x31 0x20000 []).beginStep.readMem (at_ 0x31 0x20000 []).beginStep.pc = .error (.trap ⟨.memory, 0x20000, none⟩) := by
  decide
theorem witness_StepExecutes_fetch_page : ({ walk 0x41 with pc := 0x00C01805 } : State).beginStep.readMem 0x00C01805 =
      .error (.trap ⟨.pagepriv, 0x00C01805, none⟩) ∧
    ({ walk 0x41 with pc := 0x00C02000 } : State).beginStep.readMem 0x00C02000 =
      .error (.trap ⟨.pagefault, 0x00C02000, none⟩) := by decide

theorem witness_UnimplementedWordRaisesUnimpop : (ready 0).flags.r = true ∧ (ready 0).beginStep.beforeFetch = none ∧
    (ready 0).beginStep.readMem (ready 0).beginStep.pc = .ok 0 ∧
    decodeWord (ready 0).beginStep.params 0 = some .unimplemented ∧
    decodeWord (ready 0).beginStep.params 0xFFFFFFFF = some .unimplemented := by decide
theorem witness_UnimplementedWord_refusals : (listed .notInSource).flags.r = true ∧
    (listed .notInSource).beginStep.beforeFetch = none ∧ (listed .notInSource).beginStep.readMem 0x100 = .ok 7 ∧
    decodeWord (listed .notInSource).beginStep.params 7 = some .notInSource ∧
    decodeWord (listed .notInSource).beginStep.params 8 = none := by decide

theorem good_of_no_device {s : State} (hm : Memory.wfBelow s.mem s.params.physWords)
    (hd : s.discs = Vector.replicate 8 none) (ht : s.tapes = Vector.replicate 8 none) : s.Good := by
  refine ⟨hm, fun i d h => ?_, fun i t h => ?_⟩
  · rw [hd] at h; simp at h
  · rw [ht] at h; simp at h

/-- A state that has left reset, with a word stored at the last physical address. -/
def leftReset : State :=
  { laidOut (sys [(0x100, 0xB0800064), (0x1FFFF, 7)]) with discs := Vector.replicate 8 none, tapes := Vector.replicate 8 none }

theorem witness_StepKeepsGoodStates : leftReset.Good ∧ ∃ t, step leftReset = .next t :=
  ⟨good_of_no_device (by unfold Memory.wfBelow; decide) rfl rfl, isNext (by decide)⟩

/-- A halted CPU, and one about to halt. -/
def halted : State := { sys [] with flags := flagsOfWord 0x30, stopReason := some .haltInstruction }

theorem witness_StepKeepsHaltReasons : step halted = .next halted ∧ halted.flags.r = false ∧ halted.stopReason ≠ none ∧
    (nextOf (step (ready 0x80000000))).map (fun t => (t.flags.r, t.stopReason)) = some (false, some .haltInstruction) :=
  ⟨rfl, rfl, by decide, by decide⟩

theorem witness_UserMode_interrupt : (usr [(0x408, 0x600)]).flags.sys = false ∧
    after (.setsr (r 1) 6) (usr [(0x408, 0x600)]) (fun t => (t.flags.sys, t.flags.r, t.pc)) = some (true, true, 0x600) ∧
    (usr [(0x408, 0x600)]).physRead ((usr [(0x408, 0x600)]).intvec + intNumber .privop) = .ok 0x600 := by decide
theorem witness_UserMode_gate : after (.syscall (.num 3)) (usr [(0x303, 0x5000)]) (fun t => (t.flags.sys, t.flags.r, t.pc)) =
    some (true, true, 0x5000) := by decide
/-- 70_reset_and_hazards.md R249: the first push fails, and INTRFAULT's own entry then fails the same way, though a push
one word lower would succeed. -/
theorem test_failed_push_stops :
    after (.setsr (r 1) 6) { usr [(0x408, 0x600), (0x40D, 0x690)] with sysSp := 0x20001 }
      (fun t => (t.flags.r, t.stopReason, t.pc)) = some (false, some (.fatalInterrupt .intrfault), 0x8010) := by decide

theorem witness_SpNamesTheModesStackPointer : (sys []).flags.sys = true ∧ (usr []).flags.sys = false ∧
    (sys []).reg .sp = 0x2000 ∧ (usr []).reg .sp = 0x9000 := by decide
theorem witness_FlagsWordHoldsTheFlags : 0 < 7 ∧ flagOfNumber (BitVec.ofNat 32 0) = some .r ∧
    flagOfNumber (BitVec.ofNat 32 6) = some .vm ∧ 6 < (7 : Word).toNat ∧ flagOfNumber 7 = none := by decide
theorem witness_PhysicalAccess : (sys []).flags.vm = false ∧ (0x1FFFF : Word).toNat < (sys []).params.physWords ∧
    (sys []).params.physWords ≤ (0x20000 : Word).toNat := by decide
theorem witness_TranslationWalk : (walk 0x41).flags.vm = true ∧
    (walk 0x41).physRead (BitVec.ofNat 32 ((walk 0x41).pdbr.toNat / 1024 * 1024 + (0xFFFFFFFF : Word).toNat / 2 ^ 22)) =
      .ok 0 ∧
    (walk 0x41).physRead (BitVec.ofNat 32 ((walk 0x41).pdbr.toNat / 1024 * 1024 + (0x00C02000 : Word).toNat / 2 ^ 22)) =
      .ok 0x8003 ∧
    ([0x00C01234, 0x00C01805, 0x00C02000] : List Word).map (fun a => (walk 0x41).physRead
        (BitVec.ofNat 32 ((0x8003 : Word).toNat / 2048 * 2048 + a.toNat / 2 ^ 11 % 2 ^ 11))) =
      [.ok 0x12801, .ok 0x13003, .ok 0x13800] ∧
    ((0x12801 : Word).getLsbD 0 = true ∧ (0x12801 : Word).getLsbD 1 = false) ∧
    ((0x13003 : Word).getLsbD 0 = true ∧ (0x13003 : Word).getLsbD 1 = true) ∧ (0x13800 : Word).getLsbD 0 = false := by
  decide
/-- R62: a directory, and a page table, at the end of physical memory. -/
theorem witness_TranslationWalk_memory :
    let s : State := { walk 0x41 with pdbr := 0x20000 }
    s.flags.vm = true ∧ (0x20003 : Word) = BitVec.ofNat 32 (s.pdbr.toNat / 1024 * 1024 + (0x00C01234 : Word).toNat / 2 ^ 22) ∧
    s.params.physWords ≤ (0x20003 : Word).toNat ∧
    (let u : State := { walk 0x41 with mem := [(0x4003, 0x20000)] }
     u.physRead 0x4003 = .ok 0x20000 ∧ u.params.physWords ≤
      (BitVec.ofNat 32 ((0x20000 : Word).toNat / 2048 * 2048 + (0x00C01234 : Word).toNat / 2 ^ 11 % 2 ^ 11)).toNat) := by
  decide
theorem witness_OperandValues : (sys [(0x500, 7), (0x501, 8)]).value (.abs 0x501) = .ok 8 ∧
    (withR 2 0x500 (sys [(0x500, 7), (0x501, 8)])).value (.ind (r 2)) = .ok 7 ∧
    (withR 2 0x502 (sys [(0x500, 7), (0x501, 8)])).value (.indOff (r 2) 0xFFFFFFFF) = .ok 8 ∧ r 2 ≠ .pc := by decide
theorem witness_PcAsOperandIsRefused : refusalOf (exec (.load (r 1) (.indOff .pc 0)) (usr [])) = some .pcAsOperand ∧
    refusalOf (exec (.jcond .err (.ind .pc)) (at_ 0x39 0x100 [])) = some .pcAsOperand ∧
    refusalOf (exec (.sbit .pc (.num 31)) (usr [])) = some .pcAsOperand ∧
    refusalOf (exec (.setsr .pc 10) (sys [])) = some .pcAsOperand ∧ sregOfNumber (sys []).params 10 = some .usrFp ∧
    refusalOf (exec (.getfl .pc 6) (usr [])) = some .pcAsOperand := by decide
theorem witness_PcAsOperand_call : (∃ t, (usr []).push ((usr []).pc + 1) = .ok t) ∧
    refusalOf (exec (.call (.reg .pc)) (usr [])) = some .pcAsOperand := ⟨⟨_, rfl⟩, by decide⟩
theorem witness_FailedAccess_operand : (sys []).value (.abs 0x20000) = .error (.trap ⟨.memory, 0x20000, none⟩) ∧
    (sys []).flags.sys = true ∧ (at_ 0x39 0x100 []).flags.err = true ∧ r 1 ≠ .pc := by decide
/-- CALL: the push is done, the operand behind it fails. -/
theorem witness_FailedAccess_call : ∃ t, (sys []).push ((sys []).pc + 1) = .ok t ∧
    t.value (.abs 0x20000) = .error (.trap ⟨.memory, 0x20000, none⟩) := ⟨_, rfl, by decide⟩
/-- CALL: the operand could be read before the push, and fails after it. -/
theorem witness_FailedAccess_call_after :
    ({ sys [(0, 7)] with sysSp := 1 } : State).value (.indOff .sp 0xFFFFFFFF) = .ok 7 ∧
    ∃ t, ({ sys [(0, 7)] with sysSp := 1 } : State).push 0x101 = .ok t ∧
      t.value (.indOff .sp 0xFFFFFFFF) = .error (.trap ⟨.memory, 0xFFFFFFFF, none⟩) := ⟨by decide, _, rfl, by decide⟩
theorem witness_FailedAccess_store : (sys []).place (.abs 0x20000) = .ok (.mem 0x20000) ∧
    (sys []).writeMem 0x20000 ((sys []).reg (r 1)) = .error (.trap ⟨.memory, 0x20000, none⟩) := by decide
theorem witness_FailedAccess_stack : ({ sys [] with sysSp := 0 } : State).writeMem (({ sys [] with sysSp := 0 } : State).sp - 1) 7 =
      .error (.trap ⟨.memory, 0xFFFFFFFF, none⟩) ∧
    ({ sys [] with sysSp := 0x20000 } : State).readMem ({ sys [] with sysSp := 0x20000 } : State).sp =
      .error (.trap ⟨.memory, 0x20000, none⟩) := by decide
/-- IRET: SP itself, the eighth word from it, and the words at the saved SP, outside physical memory. -/
theorem witness_FailedAccess_iret : (walk 0x71).flags.sys = true ∧
    ({ walk 0x71 with sysSp := 0x00C02000 } : State).translate 0x00C02000 = .error (.trap ⟨.pagefault, 0x00C02000, none⟩) ∧
    (let s : State := { sys [] with sysSp := 0x1FFF9 }
     s.translate s.sp = .ok 0x1FFF9 ∧ (0x1FFF9 : Word).toNat ∉ s.gateFrames ∧
     (s.readMem (0x1FFF9 + 7)).toOption = none) ∧
    (let s : State := sys [(0x2000, 40), (0x2001, 1), (0x2002, 8), (0x2003, 0), (0x2004, 0), (0x2005, 0), (0x2006, 0), (0x2007, 0x20000)]
     s.readAll (wordRange s.sp 8) = .ok [40, 1, 8, 0, 0, 0, 0, 0x20000] ∧
     s.readAll (wordRange (([40, 1, 8, 0, 0, 0, 0, 0x20000] : List Word).getD 7 0) 13) =
       .error (.trap ⟨.memory, 0x20000, none⟩)) := by decide
theorem witness_LoadPutsTheOperandValueInTheRegister : r 12 ≠ .pc ∧ (usr [(0x1FFFF, 7)]).value (.abs 0x1FFFF) = .ok 7 ∧
    (usr []).value (.reg .sp) = .ok 0x9000 := by decide
theorem witness_StoreWritesTheAddressedWord : r 1 ≠ .pc ∧ (usr []).place (.abs 0x1FFFF) = .ok (.mem 0x1FFFF) ∧
    (usr []).translate 0x1FFFF = .ok 0x1FFFF ∧ (0x1FFFF : Word).toNat < (usr []).params.physWords ∧ Reg.sp ≠ .pc := by
  decide
theorem witness_UnwritableOperandRaisesUnwrop : Reg.fp ≠ .pc := by decide
theorem witness_PushStoresBelowSp : (sys []).value (.reg .sp) = .ok 0x2000 ∧
    (sys []).translate ((sys []).sp - 1) = .ok 0x1FFF ∧ (0x1FFF : Word).toNat < (sys []).params.physWords := by decide
/-- CALL through the word its own push has just stored. -/
theorem witness_Call : (sys []).translate ((sys []).sp - 1) = .ok 0x1FFF ∧
    (0x1FFF : Word).toNat < (sys []).params.physWords ∧
    (((sys []).putWord (0x1FFF : Word).toNat ((sys []).pc + 1)).setSp ((sys []).sp - 1)).value (.ind .sp) = .ok 0x101 := by
  decide
theorem witness_Ret : (usr [(0x9000, 0x121)]).readMem (usr [(0x9000, 0x121)]).sp = .ok 0x121 := by decide
theorem witness_IncAddsOneToItsOperand : Reg.fp ≠ .pc ∧ (usr [(0x1FFFF, 7)]).place (.abs 0x1FFFF) = .ok (.mem 0x1FFFF) ∧
    (usr [(0x1FFFF, 7)]).value (.abs 0x1FFFF) = .ok 7 ∧ (usr [(0x1FFFF, 7)]).translate 0x1FFFF = .ok 0x1FFFF ∧
    (0x1FFFF : Word).toNat < (usr [(0x1FFFF, 7)]).params.physWords := by decide
theorem witness_GetsrAndGetfl : r 1 ≠ .pc ∧ sregOfNumber (usr []).params 8 = some .sysFp ∧
    sregOfNumber (usr []).params 10 = some .usrFp ∧ flagOfNumber 6 = some .vm := by decide
theorem witness_SetsrWritesTheNamedRegister : (sys []).flags.sys = true ∧ r 1 ≠ .pc ∧
    sregOfNumber (sys []).params 0 = some .flags ∧ sregOfNumber (sys []).params 10 = some .usrFp := by decide
theorem witness_SetflWritesTheNamedFlag : Reg.sp ≠ .pc ∧ flagOfNumber 6 = some .vm ∧ (sys []).flags.sys = true ∧
    flagOfNumber 3 = some .err ∧ (usr []).flags.sys = false := by decide
theorem witness_FlagsjSetsFlagsAndPc : (sys []).flags.sys = true ∧ r 1 ≠ .pc ∧
    (sys []).value (.num 0xFFFFFFFF) = .ok 0xFFFFFFFF := by decide
theorem witness_CompAndCompz : r 1 ≠ .pc ∧ (withR 1 0x80000000 (usr [])).value (.num 0) = .ok 0 ∧
    (-2 ^ 31 : Int) ≤ (0x80000000 : Word).toInt - (0 : Word).toInt ∧
    (0x80000000 : Word).toInt - (0 : Word).toInt < 2 ^ 31 ∧
    ¬ (-2 ^ 31 : Int) ≤ (0x80000000 : Word).toInt - (1 : Word).toInt := by decide
theorem witness_JcondJumpsOnErr : (at_ 0x39 0 []).flags.err = true ∧ (at_ 0x39 0 []).value (.num 0x140) = .ok 0x140 ∧
    (at_ 0x31 0 []).flags.err = false := by decide
theorem witness_SbitAndCbitWriteOneBit : r 1 ≠ .pc ∧ (31 : Word).toNat < 32 := by decide
theorem witness_ExtractAndDeposit : (32 = if (0 : Word).toNat % 32 = 0 then 32 else (0 : Word).toNat % 32) ∧
    (0 = (0 : Word).toNat / 32 % 32) ∧ 0 + 32 ≤ 32 ∧
    (2 = if (0x3E2 : Word).toNat % 32 = 0 then 32 else (0x3E2 : Word).toNat % 32) ∧
    (31 = (0x3E2 : Word).toNat / 32 % 32) ∧ 32 < 31 + 2 := by decide
/-- Vectors: the word that holds the range cannot be read; and word 3 after the start, a range that leaves it and one that
does not. -/
theorem witness_ExtractAndDeposit_vector : (0x20000 : Word) = 0x1FFFD + BitVec.ofNat 32 ((0xC05 : Word).toNat / 1024) ∧
    (sys []).readMem 0x20000 = .error (.trap ⟨.memory, 0x20000, none⟩) ∧
    (1003 : Word) = 1000 + BitVec.ofNat 32 ((0xC05 : Word).toNat / 1024) ∧ (sys [(1003, 0xFFFFFFE5)]).translate 1003 = .ok 1003 ∧
    (sys [(1003, 0xFFFFFFE5)]).physRead 1003 = .ok 0xFFFFFFE5 ∧ depositRange 0xFFFFFFE5 0xC05 7 = some 0xFFFFFFE7 ∧
    32 < 31 + 2 ∧ (1003 : Word) = 1000 + BitVec.ofNat 32 ((0xFE2 : Word).toNat / 1024) ∧
    depositRange 0xFFFFFFE5 0xFE2 7 = none := by decide
theorem witness_FormsRefused : (sys []).flags.sys = true ∧ sregOfNumber (sys []).params 11 = none ∧ 6 < (7 : Word).toNat ∧
    31 < (32 : Word).toNat := by decide
theorem witness_PrivilegedOperationRaisesPrivop : (usr []).flags.sys = false ∧
    Instr.clrpp 5 ∈ [Instr.setsr (r 1) 6, .peri (r 1) (.num 0), .iret, .phload 5, .phstore 5, .flagsj (r 1) (.num 0), .clrpp 5] := by
  decide
theorem witness_HaltByMode : (usr []).flags.sys = false ∧ (sys []).flags.sys = true := by decide
theorem witness_BadIndexRaisesBadcall : (usr []).value (.num 4) = .ok 4 ∧ (usr []).cglen.toInt ≤ (4 : Word).toInt ∧
    (usr []).value (.num 0xFFFFFFFF) = .ok 0xFFFFFFFF ∧ (0xFFFFFFFF : Word).toInt < 0 := by decide

/-- SYSCALL 3 in user mode with exactly the room the frame needs. -/
def gate : State := { usr [(0x300, 0), (0x303, 0x5000)] with sysSp := 18 }

theorem witness_SyscallEntersTheGate : gate.value (.num 3) = .ok 3 ∧ 0 ≤ (3 : Word).toInt ∧
    (3 : Word).toInt < gate.cglen.toInt ∧ gate.physRead (gate.cgbr + 3) = .ok 0x5000 ∧ gate.flags.vm = false ∧
    18 ≤ gate.sysSp.toNat ∧ gate.sysSp.toNat ≤ gate.params.physWords ∧ gate.physRead (gate.cgbr + 0) = .ok 0 := by
  decide

/-- A frame as an IRET finds it, ending at the top of physical memory. -/
def framed : State :=
  { sys (Memory.writeRun [] 0x1FFEB
      [40, 0x01, 8, 0x8010, 0, 0x8010, 0x2100, 0x1FFF3, 12, 11, 10, 9, 8, 7, 6, 5, 4, 3, 2, 1, 0]) with
    sysSp := 0x1FFEB }

theorem witness_IretRestoresWhatTheFrameHolds : framed.flags.sys = true ∧ framed.translate framed.sp = .ok 0x1FFEB ∧
    (0x1FFEB : Word).toNat ∉ framed.gateFrames ∧
    framed.readAll (wordRange framed.sp 8) = .ok [40, 0x01, 8, 0x8010, 0, 0x8010, 0x2100, 0x1FFF3] ∧
    framed.readAll (wordRange (([40, 0x01, 8, 0x8010, 0, 0x8010, 0x2100, 0x1FFF3] : List Word).getD 7 0) 13) =
      .ok [12, 11, 10, 9, 8, 7, 6, 5, 4, 3, 2, 1, 0] := by decide

/-- A user program with a handler for PRIVOP and exactly the room the frame needs; and the highest stack. -/
def entered (top : Word) : State := { usr [(0x407, 0x700), (0x408, 0x600), (0x409, 0x710), (0x40C, 0x720)] with sysSp := top }

/-- These are also the hypotheses of InterruptEntryPushesTheFrame, whose highest stack is in the next line. -/
theorem witness_IretUndoesInterruptEntry : (entered 21).flags.ip = false ∧ (entered 21).flags.r = true ∧
    (entered 21).flags.vm = false ∧ (entered 21).physRead ((entered 21).intvec + intNumber .privop) = .ok 0x600 ∧
    (0x600 : Word) ≠ 0 ∧ 21 ≤ (entered 21).sysSp.toNat ∧ (entered 21).sysSp.toNat ≤ (entered 21).params.physWords := by
  decide
theorem witness_InterruptEntryPushesTheFrame : (entered 0x20000).flags.ip = false ∧ (entered 0x20000).flags.vm = false ∧
    (entered 0x20000).physRead ((entered 0x20000).intvec + intNumber .privop) = .ok 0x600 ∧ (0x600 : Word) ≠ 0 ∧
    21 ≤ (entered 0x20000).sysSp.toNat ∧ (entered 0x20000).sysSp.toNat ≤ (entered 0x20000).params.physWords := by decide

/-- Translation on: addresses 0x1800 to 0x1FFF are resident at 0x13000. -/
def pagedStack : State :=
  { at_ 0x41 0x68 [(0x408, 0x600), (0x4000, 0x8003), (0x8003, 0x13001)] with pdbr := 0x4000 }

theorem witness_CompletedEntryChangesOnlyTheSystemStack :
    (pagedStack.enterFrame [1, 2, 3] 0x600).complete = true ∧
    (pagedStack.enterFrame [1, 2, 3] 0x600).touched = [0x137FF, 0x137FE, 0x137FD] := by decide
theorem witness_UnhandledInterrupt : (sys []).flags.ip = true ∧
    (usr [(0x408, 0)]).physRead ((usr [(0x408, 0)]).intvec + intNumber .privop) = .ok 0 ∧
    isFatal (usr []).params .privop = true ∧ isFatal (usr []).params .keybd = false ∧ IntCode.intrfault ≠ .none ∧
    IntCode.intrfault ≠ .timer ∧ IntCode.intrfault ≠ .keybd ∧ IntCode.intrfault ≠ .debug := by decide

/-- The interrupt vector ends with the address space: entries 8 and above lie from address 0 up, the others above physical
memory. -/
def split (h top : Word) : State := { usr [(0, 0x600), (5, h)] with intvec := 0xFFFFFFF8, sysSp := top }

/-- The handler of INTRFAULT lies where it can be read. -/
theorem witness_FailedDelivery_vector : (split 0x690 21).flags.ip = false ∧ (split 0x690 21).flags.vm = false ∧
    (split 0x690 21).params.physWords ≤ ((split 0x690 21).intvec + intNumber .memory).toNat ∧
    (split 0x690 21).physRead ((split 0x690 21).intvec + 13) = .ok 0x690 ∧ (0x690 : Word) ≠ 0 ∧
    21 ≤ (split 0x690 21).sysSp.toNat ∧ (split 0x690 21).sysSp.toNat ≤ (split 0x690 21).params.physWords := by decide
/-- Entry 13 cannot be read, or is zero. -/
theorem witness_FailedDelivery_stop : ({ usr [] with intvec := 0x20000 } : State).flags.ip = false ∧
    ({ usr [] with intvec := 0x20000 } : State).params.physWords ≤
      (({ usr [] with intvec := 0x20000 } : State).intvec + intNumber .memory).toNat ∧
    ({ usr [] with intvec := 0x20000 } : State).params.physWords ≤
      (({ usr [] with intvec := 0x20000 } : State).intvec + 13).toNat ∧
    (split 0 21).physRead ((split 0 21).intvec + 13) = .ok 0 := by decide
/-- The sixth push fails, after five; and the first. -/
theorem witness_FailedDelivery_push :
    let q : Request := ⟨.privop, 0x8010, 0, 0x8010⟩
    let entry : State → PushRun := fun s => s.enterFrame (s.interruptFrame q (flagsWord s.flags) (s.sysSp - 13)) 0x600
    (split 0x690 5).flags.ip = false ∧ (split 0x690 5).physRead ((split 0x690 5).intvec + intNumber q.code) = .ok 0x600 ∧
    (0x600 : Word) ≠ 0 ∧ (entry (split 0x690 5)).complete = false ∧ (entry (split 0x690 5)).touched = [4, 3, 2, 1, 0] ∧
    (entry (split 0x690 0x20001)).complete = false ∧ (entry (split 0x690 0x20001)).touched = [] ∧
    (split 0x690 0x20001).flags.vm = false ∧
    (split 0x690 0x20001).params.physWords ≤ ((split 0x690 0x20001).sysSp - 1).toNat := by decide
theorem witness_TimerCountsAndSignalsOnce : (sys []).timer = 0 ∧
    (({ sys [] with timer := 0xFFFFFFFF } : State).timer ≠ 0 ∧ ({ sys [] with timer := 0xFFFFFFFF } : State).timer ≠ 1) ∧
    (({ sys [] with timer := 1 } : State).timer ≠ 0 ∧ ({ sys [] with timer := 1 } : State).flags.ip = true) ∧
    (({ entered 21 with timer := 1 } : State).timer = 1 ∧
      ({ entered 21 with timer := 1 } : State).physRead (({ entered 21 with timer := 1 } : State).intvec + 7) = .ok 0x700) := by
  decide
theorem witness_DebugAndKeyboard_debug :
    let s : State := { entered 21 with debug := 0x8010 }
    s.flags.r = true ∧ s.beginStep.flags.ip = false ∧ s.beginStep.flags.vm = false ∧ (0x720 : Word) ≠ 0 ∧
    21 ≤ s.beginStep.sysSp.toNat ∧ s.beginStep.sysSp.toNat ≤ s.beginStep.params.physWords ∧
    s.beginStep.pc = s.beginStep.debug ∧ s.beginStep.physRead (s.beginStep.intvec + 12) = .ok 0x720 := by decide
/-- The key arrives in this very step. -/
theorem witness_DebugAndKeyboard_keyboard :
    let s : State := { entered 0x20000 with host := { State.reset.host with arrivals := [⟨[97], [], 0⟩] } }
    s.flags.r = true ∧ s.beginStep.flags.ip = false ∧ s.beginStep.flags.vm = false ∧ (0x710 : Word) ≠ 0 ∧
    21 ≤ s.beginStep.sysSp.toNat ∧ s.beginStep.sysSp.toNat ≤ s.beginStep.params.physWords ∧
    s.beginStep.pc ≠ s.beginStep.debug ∧ s.beginStep.kbuf ≠ [] ∧
    s.beginStep.physRead (s.beginStep.intvec + 9) = .ok 0x710 := by decide

/-- A key for a buffer with exactly the room, a packet for unit 2, which is on, and one for unit 1, which is off. -/
def arriving : State :=
  { sys [] with
    kbuf := [1], params := { Params.reset with keybufCap := some 2 }, nets := #v[none, some ⟨5, []⟩],
    host := { State.reset.host with
      arrivals := [⟨[97], [(1, ⟨(0, 6), [1, 2]⟩), (0, ⟨(0, 7), [3]⟩)], 3⟩] } }

theorem witness_HostArrivalsAppendAndTheClockRuns : (sys []).host.arrivals = [] ∧
    arriving.host.arrivals = ⟨[97], [(1, ⟨(0, 6), [1, 2]⟩), (0, ⟨(0, 7), [3]⟩)], 3⟩ :: [] ∧
    arriving.params.keybufCap = some 2 ∧ arriving.kbuf.length + ([97] : List Byte).length ≤ 2 ∧
    (State.reset.params.keybufCap = none) ∧ ∃ t, step halted = .next t :=
  ⟨rfl, rfl, rfl, by decide, rfl, _, rfl⟩
theorem test_host_arrivals : arriving.beginStep.kbuf = [1, 97] ∧
    arriving.beginStep.nets = #v[none, some ⟨5, [⟨(0, 6), [1, 2]⟩]⟩] ∧ arriving.beginStep.clock = 3 := by
  decide

/-! ### Witnesses for PERI -/

theorem periCall_of {s : State} {o : PeriOp} {w : Word} (hs : s.flags.sys = true) (hw : s.readMem 0x150 = .ok w)
    (ho : periOpOf s.params.periOp w = some o) : PeriCall s (r 3) (.num 0x150) 0x150 o :=
  ⟨hs, by decide, rfl, w, hw, ho⟩

theorem witness_PeriReportsResultAndErr : (ctl [0x101, 9]).flags.sys = true ∧ r 3 ≠ .pc ∧
    (ctl [0x101, 9]).value (.num 0x150) = .ok 0x150 ∧ (ctl [0x101, 9]).periAt 0x150 = .done (-3) (ctl [0x101, 9]) := by
  decide
theorem witness_UnknownOperationReportsBadCode : (ctl [0x7FF]).flags.sys = true ∧ r 3 ≠ .pc ∧
    (ctl [0x7FF]).value (.num 0x150) = .ok 0x150 ∧ (ctl [0x7FF]).readMem 0x150 = .ok 0x7FF ∧
    ∀ o ∈ allPeriOps, periCode (ctl [0x7FF]).params.periOp o ≠ 0x7FF := by decide
theorem witness_UnreadableControlStructureReportsReadParams : (sys []).flags.sys = true ∧ r 3 ≠ .pc ∧
    (sys []).value (.num 0x20000) = .ok 0x20000 ∧ ((sys []).readMem 0x20000).toOption = none := by decide
/-- The last word of the structure of $DISCREAD lies behind physical memory. -/
theorem witness_UnreadableControlStructure_last : PeriCall (sys [(0x1FFFC, 0x102)]) (r 3) (.num 0x1FFFC) 0x1FFFC .discRead ∧
    3 < periInputs .discRead ∧ ((sys [(0x1FFFC, 0x102)]).readMem (0x1FFFC + 1 + BitVec.ofNat 32 3)).toOption = none :=
  ⟨⟨rfl, by decide, rfl, 0x102, by decide, by decide⟩, by decide, by decide⟩
/-- Drive numbers 0 and 9 are out of range, drive 1 exists, drive 8 does not. -/
theorem witness_DisccheckReportsTheSize : PeriCall (ctl [0x101, 8]) (r 3) (.num 0x150) 0x150 .discCheck ∧
    ([0, 1, 8, 9] : List Word).map (fun d => (ctl [0x101, d]).readMem (0x150 + 1)) = [.ok 0, .ok 1, .ok 8, .ok 9] ∧
    ((0 : Word).toInt < 1 ∧ 8 < (9 : Word).toInt) ∧ (8 : Word).toNat = (7 : Fin 8) + 1 ∧
    (ctl [0x101, 8]).discs[(7 : Fin 8)] = none ∧ (ctl [0x101, 1]).discs[(0 : Fin 8)] = some ⟨6000, []⟩ :=
  ⟨periCall_of (w := 0x101) rfl (by decide) (by decide), by decide, by decide, by decide, by decide, by decide⟩
/-- A control structure of one word at the top of physical memory: word 1 cannot be read. -/
theorem witness_Disccheck_unreadable : PeriCall (sys [(0x1FFFF, 0x101)]) (r 3) (.num 0x1FFFF) 0x1FFFF .discCheck ∧
    ((sys [(0x1FFFF, 0x101)]).readMem (0x1FFFF + 1)).toOption = none :=
  ⟨⟨rfl, by decide, rfl, 0x101, by decide, by decide⟩, by decide⟩

/-- Drive 1 of four blocks, a word written in the last; a coming disc write that succeeds. -/
def discState (ws : List Word) : State :=
  { ctl ws with
    discs := #v[some ⟨4, [(511, 9)]⟩, none, none, none, none, none, none, none],
    host := { State.reset.host with discWrites := [true], sends := [true], recvs := [true] } }

/-- The last block, and a buffer that ends with physical memory. -/
theorem witness_DiscreadCopiesTheBlocks :
    PeriCall (discState [0x102, 1, 3, 1, 0x1FF80]) (r 3) (.num 0x150) 0x150 .discRead ∧
    ControlWords (discState [0x102, 1, 3, 1, 0x1FF80]) 0x150 [1, 3, 1, 0x1FF80] ∧ (1 : Word).toNat = (0 : Fin 8) + 1 ∧
    (discState [0x102, 1, 3, 1, 0x1FF80]).discs[(0 : Fin 8)] = some ⟨4, [(511, 9)]⟩ ∧ 0 < (1 : Word).toInt ∧
    0 ≤ (3 : Word).toInt ∧ (3 : Word).toNat + (1 : Word).toNat ≤ 4 ∧
    PlainRange (discState [0x102, 1, 3, 1, 0x1FF80]) 0x1FF80 (128 * (1 : Word).toNat) ∧
    Memory.read [(511, 9)] (128 * (3 : Word).toNat + 127) = some 9 :=
  ⟨periCall_of (w := 0x102) rfl (by decide) (by decide), by unfold ControlWords; decide, by decide, by decide, by decide,
   by decide, by decide, ⟨rfl, by decide, by decide⟩, by decide⟩
theorem witness_DiscwriteFillsTheBlocks :
    PeriCall (discState [0x103, 1, 3, 1, 0x1FF80]) (r 3) (.num 0x150) 0x150 .discWrite ∧
    ControlWords (discState [0x103, 1, 3, 1, 0x1FF80]) 0x150 [1, 3, 1, 0x1FF80] ∧ (1 : Word).toNat = (0 : Fin 8) + 1 ∧
    (discState [0x103, 1, 3, 1, 0x1FF80]).discs[(0 : Fin 8)] = some ⟨4, [(511, 9)]⟩ ∧ 0 < (1 : Word).toInt ∧
    0 ≤ (3 : Word).toInt ∧ (3 : Word).toNat + (1 : Word).toNat ≤ 4 ∧
    PlainRange (discState [0x103, 1, 3, 1, 0x1FF80]) 0x1FF80 (128 * (1 : Word).toNat) ∧
    (discState [0x103, 1, 3, 1, 0x1FF80]).host.discWrites = true :: [] :=
  ⟨periCall_of (w := 0x103) rfl (by decide) (by decide), by unfold ControlWords; decide, by decide, by decide, by decide,
   by decide, by decide, ⟨rfl, by decide, by decide⟩, by decide⟩
/-- A count of 0; an absent drive; a block one behind the end, and block −1. -/
theorem witness_BadDiscRequestsMoveNothing : (∀ o ∈ [(PeriOp.discRead, (0x102 : Word)), (.discWrite, 0x103)],
      PeriCall (discState [o.2, 1, 4, 1, 0x500]) (r 3) (.num 0x150) 0x150 o.1) ∧
    (∀ x ∈ ([[1, 0, 0, 0x500], [2, 0, 1, 0x500], [1, 4, 1, 0x500], [1, -1, 1, 0x500]] : List (List Word)),
      (discState (0x102 :: x)).control 0x150 4 = some x) ∧
    (0 : Word).toInt ≤ 0 ∧ 0 < (1 : Word).toInt ∧ PlainRange (discState []) 0x500 (128 * (1 : Word).toNat) ∧
    (discState []).driveOf 2 = none ∧ (discState []).driveOf 1 = some (0, ⟨4, [(511, 9)]⟩) ∧
    4 < (4 : Word).toNat + (1 : Word).toNat ∧ (-1 : Word).toInt < 0 := by
  refine ⟨?_, by decide, by decide, by decide, ⟨rfl, by decide, by decide⟩, by decide, by decide, by decide, by decide⟩
  intro o ho
  simp only [List.mem_cons, List.not_mem_nil, or_false] at ho
  rcases ho with rfl | rfl
  · exact periCall_of (w := 0x102) rfl (by decide) (by decide)
  · exact periCall_of (w := 0x103) rfl (by decide) (by decide)

/-- Unit 1 loaded for reading at the start of a 512-byte file, unit 2 one byte before the end of
a longer one, unit 8 for writing. -/
def tapeState (ws : List Word) : State :=
  { ctl ws with
    tapes := #v[some ⟨[], .read, List.replicate 512 65, 0⟩, some ⟨[], .read, List.replicate 513 65, 512⟩, none, none, none,
      none, none, some ⟨[], .write, [], 0⟩] }

theorem witness_TapeCheckLoadRewindUnload : PeriCall (tapeState [0x104, 3]) (r 3) (.num 0x150) 0x150 .tapeCheck ∧
    PeriCall (tapeState [0x105, 8]) (r 3) (.num 0x150) 0x150 .tapeRewind ∧
    PeriCall (tapeState [0x107, 9]) (r 3) (.num 0x150) 0x150 .tapeUnload ∧
    ([0, 3, 8, 9] : List Word).map (fun u => (tapeState [0x104, u]).control 0x150 1) = [some [0], some [3], some [8], some [9]] ∧
    ((0 : Word).toInt < 1 ∧ 8 < (9 : Word).toInt) ∧ (3 : Word).toNat = (2 : Fin 8) + 1 ∧ (8 : Word).toNat = (7 : Fin 8) + 1 ∧
    (tapeState []).tapes[(2 : Fin 8)] = none ∧ (tapeState []).tapes[(7 : Fin 8)] = some ⟨[], .write, [], 0⟩ :=
  ⟨periCall_of (w := 0x104) rfl (by decide) (by decide), periCall_of (w := 0x105) rfl (by decide) (by decide),
   periCall_of (w := 0x107) rfl (by decide) (by decide), by decide, by decide, by decide, by decide, rfl, rfl⟩

/-- A name of four characters in the last two words of memory, and the host's answer to the next open. -/
def loading (ws : List Word) (answer : Option (List Byte)) : State :=
  { tapeState ws with
    mem := Memory.writeRun (ctl ws).mem 0x1FFFE [0x64636261, 0], host := { State.reset.host with tapeOpens := [answer] } }

theorem stringAt_name (ws : List Word) (answer : Option (List Byte))
    (hm : (loading ws answer).memWord 0x1FFFE = 0x64636261 ∧ (loading ws answer).memWord 0x1FFFF = 0) :
    StringAt (loading ws answer) 0x1FFFE [97, 98, 99, 100] := by
  refine ⟨⟨rfl, show (0x1FFFE : Word).toNat + (4 / 4 + 1) ≤ Params.reset.physWords by decide, by decide⟩, fun j hj => ?_, ?_⟩
  · simp only [List.length_cons, List.length_nil] at hj
    have e : (0x1FFFE : Word).toNat + j / 4 = 0x1FFFE := by
      have : (0x1FFFE : Word).toNat = 0x1FFFE := by decide
      omega
    simp only [State.byteAt, e, hm.1]
    have : j = 0 ∨ j = 1 ∨ j = 2 ∨ j = 3 := by omega
    rcases this with rfl | rfl | rfl | rfl <;> decide
  · show (State.memWord _ 0x1FFFF).extractLsb' 0 8 = 0
    rw [hm.2]; decide

/-- Unit 3 is loaded; 1 already is; 0 is out of range. With another mode, the host may open the file or not. -/
theorem witness_Tapeload : PeriCall (loading [0x106, 3, 0x1FFFE, 87] (some [1, 2])) (r 3) (.num 0x150) 0x150 .tapeLoad ∧
    StringAt (loading [0x106, 3, 0x1FFFE, 87] (some [1, 2])) 0x1FFFE [97, 98, 99, 100] ∧
    (∀ x ∈ ([[3, 0x1FFFE, 87], [3, 0x1FFFE, 82], [3, 0x1FFFE, 0], [1, 0x1FFFE, 82], [0, 0x1FFFE, 82]] : List (List Word)),
      (loading (0x106 :: x) none).control 0x150 3 = some x) ∧
    (loading [] (some [1, 2])).host.tapeOpens = some [1, 2] :: [] ∧ (loading [] none).host.tapeOpens = none :: [] ∧
    (3 : Word).toNat = (2 : Fin 8) + 1 ∧ (loading [] none).tapes[(2 : Fin 8)] = none ∧
    (loading [] none).tapes[(0 : Fin 8)] ≠ none ∧ (0 : Word).toInt < 1 :=
  ⟨periCall_of (w := 0x106) rfl (by decide) (by decide), stringAt_name _ _ (by decide), by decide, rfl, rfl, by decide, rfl,
   Option.some_ne_none _, by decide⟩
theorem test_tape_load : after call3 (loading [0x106, 3, 0x1FFFE, 87] (some [1, 2])) (fun t => (t.reg (r 3), t.tapes[2])) =
      some (1, some ⟨[97, 98, 99, 100], .write, [1, 2], 0⟩) ∧
    result (loading [0x106, 3, 0x1FFFE, 87] none) = some (-7, true) ∧
    result (loading [0x106, 9, 0x1FFFE, 87] (some [])) = some (-3, true) ∧
    result (loading [0x106, 3, 0x1FFFE, 86] (some [])) = some (-8, true) ∧
    refusalOf (exec call3 (loading [0x106, 1, 0x1FFFE, 82] none)) = some .tapeAlreadyLoaded := by decide

/-- A full block into the last words of memory, and the last byte of a tape. -/
theorem witness_Taperead : PeriCall (tapeState [0x108, 1, 0x1FF80]) (r 3) (.num 0x150) 0x150 .tapeRead ∧
    ControlWords (tapeState [0x108, 1, 0x1FF80]) 0x150 [1, 0x1FF80] ∧ (1 : Word).toNat = (0 : Fin 8) + 1 ∧
    (tapeState [0x108, 1, 0x1FF80]).tapes[(0 : Fin 8)] = some ⟨[], .read, List.replicate 512 65, 0⟩ ∧
    512 = min 512 ((List.replicate 512 (65 : Byte)).length - 0) ∧
    PlainRange (tapeState [0x108, 1, 0x1FF80]) 0x1FF80 ((512 + 3) / 4) ∧
    ControlWords (tapeState [0x108, 2, 0x1FFFF]) 0x150 [2, 0x1FFFF] ∧ (2 : Word).toNat = (1 : Fin 8) + 1 ∧
    (tapeState [0x108, 2, 0x1FFFF]).tapes[(1 : Fin 8)] = some ⟨[], .read, List.replicate 513 65, 512⟩ ∧
    1 = min 512 ((List.replicate 513 (65 : Byte)).length - 512) ∧
    PlainRange (tapeState [0x108, 2, 0x1FFFF]) 0x1FFFF ((1 + 3) / 4) :=
  ⟨periCall_of (w := 0x108) rfl (by decide) (by decide), by unfold ControlWords; decide, by decide, rfl,
   by rw [List.length_replicate]; decide, ⟨rfl, by decide, by decide⟩, by unfold ControlWords; decide, by decide, rfl,
   by rw [List.length_replicate]; decide, ⟨rfl, by decide, by decide⟩⟩
/-- A unit loaded for writing, and the end of a tape. -/
theorem witness_Taperead_none : ControlWords (tapeState [0x108, 8, 0x500]) 0x150 [8, 0x500] ∧
    (tapeState [0x108, 8, 0x500]).tapes[(7 : Fin 8)] = some ⟨[], .write, [], 0⟩ ∧
    0 = min 512 (([] : List Byte).length - 0) ∧ PlainRange (tapeState [0x108, 8, 0x500]) 0x500 ((0 + 3) / 4) ∧
    ({ tapeState [0x108, 8, 0x500] with
      tapes := Vector.replicate 8 (some ⟨[], .read, [], 0⟩) } : State).tapes[(7 : Fin 8)] = some ⟨[], .read, [], 0⟩ :=
  ⟨by unfold ControlWords; decide, rfl, by decide, ⟨rfl, by decide, by decide⟩, rfl⟩
/-- Units 0, 9 and 3. -/
theorem witness_Taperead_unit :
    ControlWords (tapeState [0x108, 0, 0x500]) 0x150 [0, 0x500] ∧ ControlWords (tapeState [0x108, 9, 0x500]) 0x150 [9, 0x500] ∧
    ControlWords (tapeState [0x108, 3, 0x500]) 0x150 [3, 0x500] ∧
    ((0 : Word).toInt < 1 ∧ 8 < (9 : Word).toInt) ∧ (3 : Word).toNat = (2 : Fin 8) + 1 ∧
    (tapeState []).tapes[(2 : Fin 8)] = none :=
  ⟨by unfold ControlWords; decide, by unfold ControlWords; decide, by unfold ControlWords; decide, by decide, by decide, rfl⟩
/-- Counts 0 and 513; the five last bytes of memory to unit 8, and to units 0, 1 and 3. -/
theorem witness_Tapewrite :
    let s : State := { tapeState [0x109, 8, 0x1FFFE, 5] with host := { State.reset.host with tapeWrites := [true] } }
    PeriCall s (r 3) (.num 0x150) 0x150 .tapeWrite ∧ ControlWords s 0x150 [8, 0x1FFFE, 5] ∧
    (0 : Word).toInt ≤ 0 ∧ 512 < (513 : Word).toInt ∧ 0 < (5 : Word).toInt ∧ (5 : Word).toInt ≤ 512 ∧
    PlainRange s 0x1FFFE (((5 : Word).toNat + 3) / 4) ∧ (8 : Word).toNat = (7 : Fin 8) + 1 ∧
    s.tapes[(7 : Fin 8)] = some ⟨[], .write, [], 0⟩ ∧ s.host.tapeWrites = true :: [] ∧ (0 : Word).toInt < 1 ∧
    (1 : Word).toNat = (0 : Fin 8) + 1 ∧ s.tapes[(0 : Fin 8)] = some ⟨[], .read, List.replicate 512 65, 0⟩ ∧
    s.tapes[(2 : Fin 8)] = none :=
  ⟨periCall_of (w := 0x109) rfl (by decide) (by decide), by unfold ControlWords; decide, by decide, by decide, by decide,
   by decide, ⟨rfl, by decide, by decide⟩, by decide, rfl, rfl, by decide, by decide, rfl, rfl⟩

/-- Four keys typed. -/
def typed (ws : List Word) : State := { ctl ws with kbuf := [97, 98, 99, 100] }

theorem witness_TerminTakesCharactersFromTheFront :
    PeriCall (typed [0x10C, 4, 0x1FFFC]) (r 3) (.num 0x150) 0x150 .termInW ∧
    ControlWords (typed [0x10C, 4, 0x1FFFC]) 0x150 [4, 0x1FFFC] ∧ PlainRange (typed [0x10C, 4, 0x1FFFC]) 0x1FFFC 4 ∧
    PeriCall (typed [0x10A, 4, 0x1FFFE]) (r 3) (.num 0x150) 0x150 .termInC ∧
    ControlWords (typed [0x10A, 4, 0x1FFFE]) 0x150 [4, 0x1FFFE] ∧ PlainRange (typed [0x10A, 4, 0x1FFFE]) 0x1FFFE (4 / 4 + 1) ∧
    0 ≤ (4 : Word).toInt ∧ 4 = min (4 : Word).toNat (typed []).kbuf.length :=
  ⟨periCall_of (w := 0x10C) rfl (by decide) (by decide), by unfold ControlWords; decide, ⟨rfl, by decide, by decide⟩,
   periCall_of (w := 0x10A) rfl (by decide) (by decide), by unfold ControlWords; decide, ⟨rfl, by decide, by decide⟩,
   by decide, by decide⟩

/-- A control structure, and two words of text at the top of memory. -/
def text (ws : List Word) : State := { ctl ws with mem := Memory.writeRun (ctl ws).mem 0x1FFFE [72, 105] }

theorem witness_TermoutPrintsTheCharacters :
    PeriCall (text [0x10B, 5, 0x1FFFE]) (r 3) (.num 0x150) 0x150 .termOutC ∧
    ControlWords (text [0x10B, 5, 0x1FFFE]) 0x150 [5, 0x1FFFE] ∧ 0 < (5 : Word).toInt ∧
    PlainRange (text [0x10B, 5, 0x1FFFE]) 0x1FFFE (((5 : Word).toNat + 3) / 4) ∧
    PeriCall (text [0x10D, 2, 0x1FFFE]) (r 3) (.num 0x150) 0x150 .termOutW ∧
    ControlWords (text [0x10D, 2, 0x1FFFE]) 0x150 [2, 0x1FFFE] ∧ 0 < (2 : Word).toInt ∧
    PlainRange (text [0x10D, 2, 0x1FFFE]) 0x1FFFE (2 : Word).toNat ∧
    ∀ j : Nat, j < (2 : Word).toNat → ((text [0x10D, 2, 0x1FFFE]).memWord ((0x1FFFE : Word).toNat + j)).toNat < 256 :=
  ⟨periCall_of (w := 0x10B) rfl (by decide) (by decide), by unfold ControlWords; decide, by decide, ⟨rfl, by decide, by decide⟩,
   periCall_of (w := 0x10D) rfl (by decide) (by decide), by unfold ControlWords; decide, by decide, ⟨rfl, by decide, by decide⟩,
   by decide⟩

/-- With count 0: the packed string and the characters before the zero. -/
theorem witness_Termout_scan : ControlWords (loading [0x10B, 0, 0x1FFFE] none) 0x150 [0, 0x1FFFE] ∧
    PeriCall (loading [0x10B, 0, 0x1FFFE] none) (r 3) (.num 0x150) 0x150 .termOutC ∧
    StringAt (loading [0x10B, 0, 0x1FFFE] none) 0x1FFFE [97, 98, 99, 100] ∧
    PeriCall (sys (Memory.writeRun [] 0x150 [0x10D, 0, 0x153, 72, 0])) (r 3) (.num 0x150) 0x150 .termOutW ∧
    ControlWords (sys (Memory.writeRun [] 0x150 [0x10D, 0, 0x153, 72, 0])) 0x150 [0, 0x153] ∧
    CharactersAt (sys (Memory.writeRun [] 0x150 [0x10D, 0, 0x153, 72, 0])) 0x153 [72] :=
  ⟨by unfold ControlWords; decide, periCall_of (w := 0x10B) rfl (by decide) (by decide), stringAt_name _ _ (by decide),
   periCall_of (w := 0x10D) rfl (by decide) (by decide), by unfold ControlWords; decide,
   ⟨rfl, by decide, by decide⟩, by decide, by decide⟩
theorem test_termout_scan : after call3 (ctl [0x10B, 0, 0x150 + 3, 0x00216968]) (fun t => (t.reg (r 3), t.screen)) =
      some (3, [104, 105, 33]) ∧
    after call3 (ctl [0x10D, 0, 0x150 + 3, 72, 105, 0]) (fun t => (t.reg (r 3), t.screen)) = some (2, [72, 105]) := by decide

/-- Network unit 2 on, no packet waiting; the host sends and receives. -/
def netState (ws : List Word) : State := { discState ws with nets := #v[none, some ⟨5, []⟩] }

theorem witness_NetworkOperationsInTheirPlainCases : (2 : Word).toNat = (1 : Fin 2) + 1 ∧
    (netState []).nets[(1 : Fin 2)] = some ⟨5, []⟩ ∧ PlainRange (netState []) 0x1FFFE 2 ∧
    PeriCall (netState [0x10E, 2, 1, 0x1FFFE]) (r 3) (.num 0x150) 0x150 .netSS ∧
    ControlWords (netState [0x10E, 2, 1, 0x1FFFE]) 0x150 [2, 1, 0x1FFFE] ∧
    PeriCall (netState [0x10F, 2, 0x1FFFE, 1025, 0x500]) (r 3) (.num 0x150) 0x150 .netSend ∧
    ControlWords (netState [0x10F, 2, 0x1FFFE, 1025, 0x500]) 0x150 [2, 0x1FFFE, 1025, 0x500] ∧ 1024 < (1025 : Word).toInt ∧
    PeriCall (netState [0x110, 2, 0x1FFFE, 0x500]) (r 3) (.num 0x150) 0x150 .netRecv ∧
    ControlWords (netState [0x110, 2, 0x1FFFE, 0x500]) 0x150 [2, 0x1FFFE, 0x500] ∧
    (netState []).host.recvs = true :: [] :=
  ⟨by decide, by decide, ⟨rfl, by decide, by decide⟩, periCall_of (w := 0x10E) rfl (by decide) (by decide),
   by unfold ControlWords; decide, periCall_of (w := 0x10F) rfl (by decide) (by decide), by unfold ControlWords; decide,
   by decide, periCall_of (w := 0x110) rfl (by decide) (by decide), by unfold ControlWords; decide, by decide⟩
/-- The longest packet, and the empty one. -/
theorem witness_Network_send : ControlWords (netState [0x10F, 2, 0x1FFFE, 1024, 0x500]) 0x150 [2, 0x1FFFE, 1024, 0x500] ∧
    0 ≤ (1024 : Word).toInt ∧ (1024 : Word).toInt ≤ 1024 ∧
    PlainRange (netState [0x10F, 2, 0x1FFFE, 1024, 0x500]) 0x500 (((1024 : Word).toNat + 3) / 4) ∧
    ControlWords (netState [0x10F, 2, 0x1FFFE, 0, 0x500]) 0x150 [2, 0x1FFFE, 0, 0x500] ∧ 0 ≤ (0 : Word).toInt ∧
    (netState []).host.sends = true :: [] :=
  ⟨by unfold ControlWords; decide, by decide, by decide, ⟨rfl, by decide, by decide⟩, by unfold ControlWords; decide, by decide,
   by decide⟩
/-- The example of R158: the two words are 0 and 5000, and the stopped unit is started on port 5000; a host that gives no
port, and a request 0 for which the host selects the other unit's port. -/
theorem test_net_start :
    let on (w : Word) (q : Option (BitVec 16)) : Option (Option (BitVec 16)) :=
      after call3 { netState [0x10E, 1, 1, 0x1FFFE] with
          mem := Memory.writeRun (netState [0x10E, 1, 1, 0x1FFFE]).mem 0x1FFFE [0, w],
          host := { State.reset.host with ports := [q] } }
        (fun t => t.nets[0].map (fun u => u.port))
    on 5000 (some 9) = some (some 5000) ∧ on 5000 none = some none ∧ on 0 (some 9) = some (some 9) ∧
      on 0 (some 5) = some none := by decide
/-- Unit 1 started at the top of memory, where 0 and 65535, or 0 and 0, stand; the host gives port 5000, or none; unit 2
stopped; a packet of five bytes below its source. -/
theorem witness_Network_start_stop_recv :
    let s : State := { netState [0x10E, 1, 1, 0x1FFFE] with
      mem := Memory.writeRun (netState [0x10E, 1, 1, 0x1FFFE]).mem 0x1FFFE [0, 0xFFFF],
      host := { State.reset.host with ports := [some 5000] } }
    let z : State := { s with
      mem := Memory.writeRun (netState [0x10E, 1, 1, 0x1FFFE]).mem 0x1FFFE [0, 0],
      nets := #v[none, some ⟨4999, []⟩] }
    let t : State := { netState [0x110, 2, 0x1FFFE, 0x1FFFC] with nets := #v[none, some ⟨5, [⟨(0, 6), [1, 2, 3, 4, 5]⟩]⟩] }
    (1 : Word).toNat = (0 : Fin 2) + 1 ∧ s.nets[(0 : Fin 2)] = none ∧ PeriCall s (r 3) (.num 0x150) 0x150 .netSS ∧
    ControlWords s 0x150 [1, 1, 0x1FFFE] ∧ s.memWord (0x1FFFE : Word).toNat = 0 ∧ s.host.ports = some 5000 :: [] ∧
    (0xFFFF : Word) = s.memWord ((0x1FFFE : Word).toNat + 1) ∧ (0xFFFF : Word).toNat = (0xFFFF : BitVec 16).toNat ∧
    PeriCall z (r 3) (.num 0x150) 0x150 .netSS ∧ ControlWords z 0x150 [1, 1, 0x1FFFE] ∧
    z.memWord (0x1FFFE : Word).toNat = 0 ∧ (0 : Word) = z.memWord ((0x1FFFE : Word).toNat + 1) ∧
    (∀ (j : Fin 2) (other : NetUnit), z.nets[j] = some other → other.port ≠ 5000) ∧
    ControlWords (netState [0x10E, 2, 0, 0x1FFFE]) 0x150 [2, 0, 0x1FFFE] ∧
    PeriCall t (r 3) (.num 0x150) 0x150 .netRecv ∧ ControlWords t 0x150 [2, 0x1FFFE, 0x1FFFC] ∧
    t.nets[(1 : Fin 2)] = some ⟨5, [⟨(0, 6), [1, 2, 3, 4, 5]⟩]⟩ ∧ t.host.recvs = true :: [] ∧
    PlainRange t 0x1FFFC ((([1, 2, 3, 4, 5] : List Byte).length + 3) / 4) ∧
    (0x1FFFC : Word).toNat + (([1, 2, 3, 4, 5] : List Byte).length + 3) / 4 ≤ (0x1FFFE : Word).toNat :=
  ⟨by decide, rfl, periCall_of (w := 0x10E) rfl (by decide) (by decide), by unfold ControlWords; decide, by decide, rfl,
   by decide, by decide, periCall_of (w := 0x10E) rfl (by decide) (by decide), by unfold ControlWords; decide, by decide,
   by decide, fun j other h => by rcases j with ⟨_ | _ | j, hj⟩
                                  · cases h
                                  · cases h; decide
                                  · omega,
   by unfold ControlWords; decide, periCall_of (w := 0x110) rfl (by decide) (by decide), by unfold ControlWords; decide, rfl, rfl,
   ⟨rfl, by decide, by decide⟩, by decide⟩

/-- $SECONDS from a one-word structure; $USECONDS with its two answers at the top of memory. -/
theorem witness_TimeOperationsReadTheClock : PeriCall (ctl [0x111]) (r 3) (.num 0x150) 0x150 .seconds ∧
    PeriCall (sys [(0x1FFFD, 0x112)]) (r 3) (.num 0x1FFFD) 0x1FFFD .uSeconds ∧
    PlainRange (sys [(0x1FFFD, 0x112)]) (0x1FFFD + 1) 2 :=
  ⟨periCall_of (w := 0x111) rfl (by decide) (by decide), ⟨rfl, by decide, rfl, 0x112, by decide, by decide⟩,
   ⟨rfl, by decide, by decide⟩⟩
/-- $USECONDS and $DATETIME whose first word to be written lies behind physical memory. -/
theorem witness_TimeOperations_unwritable : PeriCall (sys [(0x1FFFF, 0x112)]) (r 3) (.num 0x1FFFF) 0x1FFFF .uSeconds ∧
    PeriCall (sys [(0x1FFFE, 0x113), (0x1FFFF, 0)]) (r 3) (.num 0x1FFFE) 0x1FFFE .dateTime ∧
    ControlWords (sys [(0x1FFFE, 0x113), (0x1FFFF, 0)]) 0x1FFFE [0] ∧
    (∀ v : Word, ((sys [(0x1FFFF, 0x112)]).writeMem (0x1FFFF + 1) v).toOption = none) ∧
    ∀ v : Word, ((sys [(0x1FFFE, 0x113), (0x1FFFF, 0)]).writeMem (0x1FFFE + 2) v).toOption = none :=
  ⟨⟨rfl, by decide, rfl, 0x112, by decide, by decide⟩, ⟨rfl, by decide, rfl, 0x113, by decide, by decide⟩,
   by unfold ControlWords; decide, fun _ => rfl, fun _ => rfl⟩
theorem witness_DatetimeStoresThePartsOfTheTime :
    PeriCall (ctl [0x113, 0x7FFFFFFF]) (r 3) (.num 0x150) 0x150 .dateTime ∧
    ControlWords (ctl [0x113, 0x7FFFFFFF]) 0x150 [0x7FFFFFFF] ∧ 0 ≤ (0x7FFFFFFF : Word).toInt ∧
    PlainRange (ctl [0x113, 0x7FFFFFFF]) (0x150 + 2) 7 :=
  ⟨periCall_of (w := 0x113) rfl (by decide) (by decide), by unfold ControlWords; decide, by decide, ⟨rfl, by decide, by decide⟩⟩

end Sys2Proof.Tests
end

section
/-! The register file of 10_state.md: SP as the banked stack pointer (R12), and the flags as bits of FLAGS (R16, R27).
Settles O11 and O12. -/

namespace Sys2Proof.Machine

/-! ### SP in each mode (R12) -/

theorem State.sp_of_system {s : State} (h : s.flags.sys = true) : s.sp = s.sysSp := by
  simp [State.sp, h]

theorem State.sp_of_user {s : State} (h : s.flags.sys = false) : s.sp = s.usrSp := by
  simp [State.sp, h]

theorem State.setSp_of_system {s : State} (v : Word) (h : s.flags.sys = true) : s.setSp v = { s with sysSp := v } := by
  simp [State.setSp, h]

theorem State.setSp_of_user {s : State} (v : Word) (h : s.flags.sys = false) : s.setSp v = { s with usrSp := v } := by
  simp [State.setSp, h]

/-- SETSR's write of SYSSP is what SP shows in system mode, and does not reach SP in user mode. -/
theorem State.sp_setSpecial_sysSp (s : State) (v : Word) :
    (s.setSpecial .sysSp v).sp = if s.flags.sys then v else s.sp := by
  cases h : s.flags.sys <;> simp [State.sp, State.setSpecial, h]

/-- SETSR's write of USRSP is what SP shows in user mode, and does not reach SP in system mode. -/
theorem State.sp_setSpecial_usrSp (s : State) (v : Word) :
    (s.setSpecial .usrSp v).sp = if s.flags.sys then s.sp else v := by
  cases h : s.flags.sys <;> simp [State.sp, State.setSpecial, h]

/-- Settles O11: SP's own read and write rules, and SP after a write of each of the two special registers, mode by mode. -/
theorem spNamesTheModesStackPointer : Obligations.SpNamesTheModesStackPointer := by
  intro s v f
  refine ⟨rfl, fun hsys => ⟨?write, ?same, ?other⟩, fun husr => ⟨?write', ?same', ?other'⟩, rfl⟩
  case write => exact State.setSp_of_system v hsys
  case same => exact (s.sp_setSpecial_sysSp v).trans (if_pos hsys)
  case other => exact (s.sp_setSpecial_usrSp v).trans (if_pos hsys)
  case write' => exact State.setSp_of_user v husr
  case same' => exact (s.sp_setSpecial_usrSp v).trans (if_neg (ne_true_of_eq_false husr))
  case other' => exact (s.sp_setSpecial_sysSp v).trans (if_neg (ne_true_of_eq_false husr))

/-! ### The flags and their numbers (R16, R27, 30_encoding.md R76) -/

/-- The number of a flag, its bit in FLAGS. -/
def flagNumber : FlagName → Nat
  | .r => 0
  | .z => 1
  | .n => 2
  | .err => 3
  | .sys => 4
  | .ip => 5
  | .vm => 6

theorem flagOfNumber_eq_some {k : Word} {name : FlagName} (h : flagOfNumber k = some name) :
    k.toNat = flagNumber name := by
  unfold flagOfNumber at h
  split at h <;> cases h <;> assumption

theorem flagNumber_le_six (name : FlagName) : flagNumber name ≤ 6 := by
  cases name <;> decide

theorem flagOfNumber_eq_none {k : Word} (h : 6 < k.toNat) : flagOfNumber k = none := by
  refine Option.eq_none_iff_forall_ne_some.mpr fun name hname => ?_
  have hnumber := flagOfNumber_eq_some hname
  have hle := flagNumber_le_six name
  omega

/-- The only bit a flag's weight can have is the one of its number. -/
theorem flagBit_getLsbD (b : Bool) {n : Nat} (hn : n < 32) (i : Nat) :
    (flagBit b n).getLsbD i = (b && decide (n = i)) := by
  cases b with
  | false => simp [flagBit]
  | true => simp [flagBit, ← BitVec.twoPow_eq, BitVec.getLsbD_twoPow, hn]

/-- Bit n of FLAGS is the flag of number n: no other flag's weight reaches that bit. -/
theorem flagsWord_getLsbD (f : Flags) (name : FlagName) : (flagsWord f).getLsbD (flagNumber name) = getFlag f name := by
  simp (disch := decide) only [flagsWord, BitVec.getLsbD_or, flagBit_getLsbD]
  cases name <;> simp [flagNumber, getFlag]

/-- Writing a word to FLAGS gives the flag of number n the word's bit n. -/
theorem getFlag_flagsOfWord (w : Word) (name : FlagName) : getFlag (flagsOfWord w) name = w.getLsbD (flagNumber name) := by
  cases name <;> rfl

/-- Settles O12: a flag's name fixes its number, and at that number the FLAGS word and the flags agree both ways. -/
theorem flagsWordHoldsTheFlags : Obligations.FlagsWordHoldsTheFlags := by
  refine ⟨by decide, fun k => flagOfNumber_eq_none, fun n name hn hname => ?bits, fun s w => ⟨rfl, rfl⟩⟩
  case bits =>
    have hnumber : n = flagNumber name := by
      have htoNat := flagOfNumber_eq_some hname
      rwa [BitVec.toNat_ofNat, Nat.mod_eq_of_lt (by omega)] at htoNat
    subst hnumber
    exact ⟨fun f => flagsWord_getLsbD f name, fun w => getFlag_flagsOfWord w name⟩

end Sys2Proof.Machine
end

section
/-! Accesses to memory (20_memory.md): the fields of a virtual address (R43), physical accesses with VM = 0 (R41, R42), the
page walk with VM = 1 (R44 to R50, R62). Settles O13, O14 and O15. -/

namespace Sys2Proof.Machine

/-! ### Physical accesses (R41, R42) -/

/-- A store in physical memory changes no register, flag, control register or device. -/
theorem State.putWord_frame (s : State) (a : Nat) (v : Word) :
    SameRegisters s (s.putWord a v) ∧ SameControl s (s.putWord a v) ∧ SameFlags s (s.putWord a v) ∧
      SameDevices s (s.putWord a v) ∧ (s.putWord a v).pc = s.pc := by
  simp [SameRegisters, SameControl, SameFlags, SameDevices]

/-- Settles O13: with VM off translation is the identity, so each access is the physical one at the address itself. -/
theorem physicalAccess : Obligations.PhysicalAccess := by
  intro s a v hvm
  have hread := State.readMem_of_translate (State.translate_vm_off hvm a)
  have hwrite := State.writeMem_of_translate v (State.translate_vm_off hvm a)
  refine ⟨fun hlow => ⟨?read, s.putWord a.toNat v, ?write, s.putWord_stored a v, ?readBack, s.putWord_frame a.toNat v⟩,
    fun hhigh => ⟨?readFails, ?writeFails⟩⟩
  case read => exact hread.trans (State.physRead_ok hlow)
  case write => exact hwrite.trans (State.physWrite_ok v hlow)
  case readBack =>
    calc (s.putWord a.toNat v).readMem a
        = (s.putWord a.toNat v).physRead a := State.readMem_of_translate (State.translate_vm_off (by simpa using hvm) a)
      _ = .ok ((s.putWord a.toNat v).memWord a.toNat) := State.physRead_ok (by simpa using hlow)
      _ = .ok v := by rw [State.putWord_memWord_same]
  case readFails => exact hread.trans (State.physRead_fails hhigh)
  case writeFails => exact hwrite.trans (State.physWrite_fails v hhigh)

/-! ### The fields of a virtual address (R43) -/

/-- A mask of the `n` lowest bits leaves the remainder by 2^n. -/
theorem toNat_and_two_pow_sub_one (x : Word) {n : Nat} (hn : n ≤ 32) :
    (x &&& BitVec.ofNat 32 (2 ^ n - 1)).toNat = x.toNat % 2 ^ n := by
  have hpow : 2 ^ n ≤ 2 ^ 32 := Nat.pow_le_pow_right (by omega) hn
  have hpos : 0 < 2 ^ n := Nat.two_pow_pos n
  rw [BitVec.toNat_and, BitVec.toNat_ofNat, Nat.mod_eq_of_lt (by omega), Nat.and_two_pow_sub_one_eq_mod]

theorem dirField_toNat (a : Word) : (dirField a).toNat = a.toNat / 2 ^ 22 := by
  have hlt := a.isLt
  calc (dirField a).toNat = (a >>> 22).toNat % 2 ^ 10 := toNat_and_two_pow_sub_one _ (n := 10) (by omega)
    _ = a.toNat / 2 ^ 22 := by rw [BitVec.toNat_ushiftRight, Nat.shiftRight_eq_div_pow]; omega

theorem pageField_toNat (a : Word) : (pageField a).toNat = a.toNat / 2 ^ 11 % 2 ^ 11 := by
  calc (pageField a).toNat = (a >>> 11).toNat % 2 ^ 11 := toNat_and_two_pow_sub_one _ (n := 11) (by omega)
    _ = a.toNat / 2 ^ 11 % 2 ^ 11 := by rw [BitVec.toNat_ushiftRight, Nat.shiftRight_eq_div_pow]

theorem offsetField_toNat (a : Word) : (offsetField a).toNat = a.toNat % 2 ^ 11 :=
  toNat_and_two_pow_sub_one a (n := 11) (by omega)

/-- Settles O14: each field is a right shift and a mask of low bits. -/
theorem virtualAddressFields : Obligations.VirtualAddressFields :=
  fun a => ⟨dirField_toNat a, pageField_toNat a, offsetField_toNat a⟩

/-! ### The addresses of the page walk (R44, R45, R47) -/

/-- Where the walk reads the directory entry of `a`: PDBR's bits 31:10 and the page table number. -/
def State.dirEntryAt (s : State) (a : Word) : Word :=
  BitVec.ofNat 32 (s.pdbr.toNat / 1024 * 1024 + a.toNat / 2 ^ 22)

/-- Where it reads the table entry: the directory entry's bits 31:11 and the page number. -/
def tableEntryAt (pde a : Word) : Word :=
  BitVec.ofNat 32 (pde.toNat / 2048 * 2048 + a.toNat / 2 ^ 11 % 2 ^ 11)

/-- The physical address of `a` on the page of a table entry. -/
def addressOnPage (pte a : Word) : Word := BitVec.ofNat 32 (pte.toNat / 2048 * 2048 + a.toNat % 2048)

theorem ofNat_add_of_toNat {n m : Nat} {x : Word} (h : x.toNat = m) : BitVec.ofNat 32 n + x = BitVec.ofNat 32 (n + m) := by
  rw [BitVec.ofNat_add, ← h, BitVec.ofNat_toNat, BitVec.setWidth_eq]

theorem State.dirEntryAt_eq (s : State) (a : Word) : (s.pdbr &&& 0xFFFFFC00) + dirField a = s.dirEntryAt a := by
  rw [clear_low_10, ofNat_add_of_toNat (dirField_toNat a), State.dirEntryAt]

theorem tableEntryAt_eq (pde a : Word) : (pde &&& 0xFFFFF800) + pageField a = tableEntryAt pde a := by
  rw [clear_low_11, ofNat_add_of_toNat (pageField_toNat a), tableEntryAt]

theorem addressOnPage_eq (pte a : Word) : (pte &&& 0xFFFFF800) + offsetField a = addressOnPage pte a := by
  rw [clear_low_11, ofNat_add_of_toNat (offsetField_toNat a)]; rfl

/-! ### The page walk, one read after the other (R47) -/

/-- What a table entry says of an access to `a`: absent, a system page met in user mode, or the physical address. -/
def State.useTableEntry (s : State) (a pte : Word) : Except Stop Word :=
  if pte.getLsbD 0 = false then .error (.trap ⟨.pagefault, a, none⟩)
  else if pte.getLsbD 1 = true ∧ s.flags.sys = false then .error (.trap ⟨.pagepriv, a, none⟩)
  else .ok (addressOnPage pte a)

theorem State.useTableEntry_absent {s : State} {a pte : Word} (h : pte.getLsbD 0 = false) :
    s.useTableEntry a pte = .error (.trap ⟨.pagefault, a, none⟩) := if_pos h

theorem State.useTableEntry_systemPage {s : State} {a pte : Word} (h0 : pte.getLsbD 0 = true)
    (h1 : pte.getLsbD 1 = true) (hs : s.flags.sys = false) :
    s.useTableEntry a pte = .error (.trap ⟨.pagepriv, a, none⟩) :=
  (if_neg (by rw [h0]; decide)).trans (if_pos ⟨h1, hs⟩)

/-- In system mode the System bit has no effect (R50). -/
theorem State.useTableEntry_resident {s : State} {a pte : Word} (h0 : pte.getLsbD 0 = true)
    (h : pte.getLsbD 1 = false ∨ s.flags.sys = true) : s.useTableEntry a pte = .ok (addressOnPage pte a) := by
  refine (if_neg (by rw [h0]; decide)).trans (if_neg ?_)
  rintro ⟨hsystem, husr⟩
  rcases h with h | h
  · exact absurd (h.symm.trans hsystem) (by decide)
  · exact absurd (husr.symm.trans h) (by decide)

theorem State.translate_directory_fails {s : State} {a : Word} {e : Stop} (hvm : s.flags.vm = true)
    (h : s.physRead (s.dirEntryAt a) = .error e) : s.translate a = .error e := by
  simp only [State.translate, hvm, if_true, State.dirEntryAt_eq, h, Except.error_bind]

theorem State.translate_directory_zero {s : State} {a : Word} (hvm : s.flags.vm = true)
    (h : s.physRead (s.dirEntryAt a) = .ok 0) : s.translate a = .error (.trap ⟨.pagefault, a, none⟩) := by
  simp only [State.translate, hvm, if_true, State.dirEntryAt_eq, h, Except.ok_bind]

/-- A directory entry that is not zero leads to the read of the table entry. -/
theorem State.translate_directory {s : State} {a pde : Word} (hvm : s.flags.vm = true)
    (h : s.physRead (s.dirEntryAt a) = .ok pde) (hpde : pde ≠ 0) :
    s.translate a = s.physRead (tableEntryAt pde a) >>= s.useTableEntry a := by
  simp only [State.translate, hvm, if_true, State.dirEntryAt_eq, h, Except.ok_bind, hpde, if_false, tableEntryAt_eq,
    addressOnPage_eq, and_one_eq_zero, ne_eq, and_two_eq_zero, Bool.not_eq_false]
  rfl

/-! ### Accesses through a translation (R49, R50) -/

/-- Where the translation ends in an interrupt, so do both accesses, and none occurs (R50, R212). -/
theorem State.access_of_translate_error {s : State} {a : Word} {e : Stop} (v : Word) (h : s.translate a = .error e) :
    s.readMem a = .error e ∧ s.writeMem a v = .error e := by
  simp only [State.readMem, State.writeMem, h, Except.error_bind, and_self]

/-- Settles O15: the first read of the walk fails, gives a zero entry, or leads to the second, whose entry decides. -/
theorem translationWalk : Obligations.TranslationWalk := by
  rintro s a v _ hvm rfl
  refine ⟨fun hhigh => ?directoryFails, fun pde hpde => ⟨?directoryZero, fun hne ptPos hpos => ?table⟩⟩
  case directoryFails =>
    exact State.access_of_translate_error v (State.translate_directory_fails hvm (State.physRead_fails hhigh))
  case directoryZero =>
    rintro rfl
    exact State.access_of_translate_error v (State.translate_directory_zero hvm hpde)
  case table =>
    have hwalk : s.translate a = s.physRead ptPos >>= s.useTableEntry a := by
      rw [hpos]; exact State.translate_directory hvm hpde hne
    refine ⟨fun hhigh => ?tableFails, fun pte hpte => ?entry⟩
    case tableFails =>
      rw [State.physRead_fails hhigh] at hwalk
      exact State.access_of_translate_error v hwalk
    case entry =>
      rw [hpte, Except.ok_bind] at hwalk
      refine ⟨fun habsent => ?absent, fun hpresent hsystem husr => ?systemPage, fun hpresent hallowed => ?resident⟩
      case absent =>
        exact State.access_of_translate_error v (hwalk.trans (State.useTableEntry_absent habsent))
      case systemPage =>
        exact State.access_of_translate_error v (hwalk.trans (State.useTableEntry_systemPage hpresent hsystem husr))
      case resident =>
        have htranslate := hwalk.trans (State.useTableEntry_resident hpresent hallowed)
        exact ⟨htranslate, State.readMem_of_translate htranslate, State.writeMem_of_translate v htranslate⟩

end Sys2Proof.Machine
end

section
/-! What every step keeps: memory, discs and tapes canonical and in bounds (20_memory.md R41, 42 R128, R132), the parameters
of the machine and the sizes of its drives. Settles O8. -/

namespace Sys2Proof.Machine

/-! ### The relation every operation stands in -/

/-- `t` follows `s`: if `s` was good so is `t`, the parameters are the same, and no drive came, went or changed its size. -/
def StorageKept (s t : State) : Prop :=
  (s.Good → t.Good) ∧ t.params = s.params ∧ t.driveSizes = s.driveSizes

theorem StorageKept.refl (s : State) : StorageKept s s := ⟨id, rfl, rfl⟩

theorem StorageKept.trans {s t u : State} : StorageKept s t → StorageKept t u → StorageKept s u
  | ⟨hgood, hparams, hsizes⟩, ⟨hgood', hparams', hsizes'⟩ =>
    ⟨hgood' ∘ hgood, hparams'.trans hparams, hsizes'.trans hsizes⟩

/-- A new memory that stays below PHYS_WORDS, with the parameters, the discs and the tapes as they were. -/
theorem StorageKept.of_memory {s t : State}
    (hm : Memory.wfBelow s.mem s.params.physWords → Memory.wfBelow t.mem s.params.physWords)
    (hp : t.params = s.params := by simp) (hd : t.discs = s.discs := by simp) (ht : t.tapes = s.tapes := by simp) :
    StorageKept s t := by
  refine ⟨fun ⟨hmem, hdiscs, htapes⟩ => ⟨hp ▸ hm hmem, hd ▸ hdiscs, ht ▸ htapes⟩, hp, ?_⟩
  simp [State.driveSizes, hd]

/-- Registers, flags and the model's own fields do not matter. -/
theorem StorageKept.of_same {s t : State} (hm : t.mem = s.mem := by simp) (hp : t.params = s.params := by simp)
    (hd : t.discs = s.discs := by simp) (ht : t.tapes = s.tapes := by simp) : StorageKept s t :=
  StorageKept.of_memory (fun h => hm ▸ h) hp hd ht

theorem EntryChange.storageKept {s t : State} (h : EntryChange s t) : StorageKept s t := by
  obtain ⟨pc, sp, f, m, g, d, r, b, rfl, -, -, hm⟩ := h
  exact StorageKept.of_memory hm

theorem PeriChange.storageKept {s t : State} (h : PeriChange s t) : StorageKept s t := by
  obtain ⟨⟨m, g, d, kb, sc, di, ta, ne, se, ho, rfl⟩, hgood, hsizes⟩ := h
  exact ⟨hgood, rfl, hsizes⟩

/-! ### The operations instructions are made of -/

theorem State.putWord_storageKept (s : State) {a : Nat} (v : Word) (h : a < s.params.physWords) :
    StorageKept s (s.putWord a v) :=
  (EntryChange.putWord s v h).storageKept

theorem State.writeMem_storageKept {s t : State} {a v : Word} (h : s.writeMem a v = .ok t) : StorageKept s t := by
  obtain ⟨pa, -, hpa, rfl⟩ := State.writeMem_cases h
  exact s.putWord_storageKept v hpa

theorem State.push_storageKept {s t : State} {v : Word} (h : s.push v = .ok t) : StorageKept s t := by
  obtain ⟨pa, -, hpa, rfl⟩ := State.push_cases h
  exact (s.putWord_storageKept v hpa).trans .of_same

theorem State.storeAt_storageKept {s t : State} {p : Place} {v : Word} (h : s.storeAt p v = .ok t) :
    StorageKept s t := by
  cases p with
  | reg m => cases h; exact .of_same
  | mem a => exact State.writeMem_storageKept h
  | unwritable => cases h

theorem State.writeReg_storageKept {s t : State} {m : Reg} {v : Word} (h : s.writeReg m v = .ok t) :
    StorageKept s t := by
  obtain ⟨-, -, h⟩ := Except.bind_ok h
  cases h
  exact .of_same

theorem State.setSpecial_storageKept (s : State) (k : SReg) (v : Word) : StorageKept s (s.setSpecial k v) := by
  cases k <;> exact .of_same rfl rfl rfl rfl

theorem State.returnFromInterrupt_storageKept {s t : State} (h : s.returnFromInterrupt = .ok t) :
    StorageKept s t := by
  obtain ⟨top, -, h⟩ := Except.bind_ok h
  split at h
  · cases h
  · obtain ⟨low, -, h⟩ := Except.bind_ok h
    obtain ⟨high, -, h⟩ := Except.bind_ok h
    cases h
    exact .of_same rfl rfl rfl rfl

/-! ### The work of an instruction -/

/-- Work that starts at `s`: every state it can end well in follows `s`. -/
def WorkKeeps (s : State) (r : Except Stop State) : Prop := ∀ t, r = .ok t → StorageKept s t

theorem WorkKeeps.ok {s t : State} (h : StorageKept s t) : WorkKeeps s (.ok t) := by
  rintro _ ⟨⟩; exact h

theorem WorkKeeps.error (s : State) (e : Stop) : WorkKeeps s (.error e) := by
  intro t ht; cases ht

theorem WorkKeeps.bind {α : Type} {s : State} {x : Except Stop α} {f : α → Except Stop State}
    (h : ∀ a, x = .ok a → WorkKeeps s (f a)) : WorkKeeps s (x >>= f) := by
  intro t ht
  obtain ⟨a, hx, hf⟩ := Except.bind_ok ht
  exact h a hx t hf

theorem WorkKeeps.ite {s : State} {c : Prop} [Decidable c] {x y : Except Stop State} (hx : WorkKeeps s x)
    (hy : WorkKeeps s y) : WorkKeeps s (if c then x else y) := by
  split
  · exact hx
  · exact hy

/-- The outcome of work that keeps the storage: its own end, or the interrupt it raises. -/
theorem State.settle_storageKept {s t : State} {r : Except Stop State} (hr : WorkKeeps s r)
    (h : s.settle r = .next t) : StorageKept s t := by
  rcases State.settle_next h with rfl | ⟨q, -, rfl⟩
  · exact hr t rfl
  · exact (State.raise_change s q).storageKept

/-! ### Every instruction -/

theorem execSetfl_storageKept {rs : Reg} {f : Word} {s t : State} (h : execSetfl rs f s = .next t) :
    StorageKept s t := by
  have hwrite : ∀ name, WorkKeeps s (s.readReg rs >>= fun v =>
      .ok (s.setFlags (putFlag s.flags (decide (v ≠ 0)) name)).advance) := fun name => .bind fun v _ => .ok .of_same
  exact State.settle_storageKept (.bind fun name _ =>
    .ite (.bind fun _ _ => hwrite name) (.bind fun _ _ => hwrite name)) h

theorem execJcond_storageKept {c : Cond} {target : Operand} {s t : State} (h : execJcond c target s = .next t) :
    StorageKept s t := by
  refine State.settle_storageKept ?_ h
  cases c with
  | unlisted code => exact .error s _
  | err => exact .ite (.bind fun a _ => .ok .of_same) (.ok .of_same)

theorem execInc_storageKept {op : Operand} {s t : State} (h : execInc op s = .next t) : StorageKept s t := by
  refine State.settle_storageKept (.bind fun p _ => .ite ?unwritable ?written) h
  case unwritable => exact .error s _
  case written =>
    exact .bind fun _ _ => .bind fun v _ => .bind fun u hu =>
      .ok ((State.storeAt_storageKept hu).trans (.of_same rfl rfl rfl rfl))

theorem State.periResult_storageKept (s : State) (rd : Reg) (result : Word) :
    StorageKept s (s.periResult rd result) :=
  (StorageKept.of_same : StorageKept s (s.setReg rd result)).trans (.of_same rfl rfl rfl rfl)

theorem execPeri_storageKept {rd : Reg} {control : Operand} {s t : State} (h : execPeri rd control s = .next t) :
    StorageKept s t := by
  refine State.settle_storageKept (.bind fun _ _ => .bind fun _ _ => .bind fun c _ => ?_) h
  cases hp : s.periAt c with
  | done result u => exact .ok ((State.periAt_change hp).storageKept.trans ((u.periResult_storageKept rd result).trans .of_same))
  | refuse r => exact .error s _

theorem execHalt_storageKept {s t : State} (h : execHalt s = .next t) : StorageKept s t :=
  State.settle_storageKept (.ite (.ok .of_same) (.error s _)) h

/-- No instruction leaves the bounds of memory, of a disc or of a tape, and none changes a parameter or a drive. -/
theorem exec_storageKept {i : Instr} {s t : State} (h : exec i s = .next t) : StorageKept s t := by
  cases i with
  | getsr rd k =>
    exact State.settle_storageKept (.bind fun r _ => .bind fun u hu =>
      .ok ((State.writeReg_storageKept hu).trans .of_same)) h
  | setsr rs k =>
    exact State.settle_storageKept (.bind fun _ _ => .bind fun r _ => .bind fun v _ =>
      .ok ((s.setSpecial_storageKept r v).trans .of_same)) h
  | getfl rd f =>
    exact State.settle_storageKept (.bind fun name _ => .bind fun u hu =>
      .ok ((State.writeReg_storageKept hu).trans .of_same)) h
  | setfl rs f => exact execSetfl_storageKept h
  | flagsj rs target =>
    exact State.settle_storageKept (.bind fun _ _ => .bind fun w _ => .bind fun a _ => .ok .of_same) h
  | comp rn op => exact State.settle_storageKept (.bind fun a _ => .bind fun b _ => .ok .of_same) h
  | compz op => exact State.settle_storageKept (.bind fun v _ => .ok .of_same) h
  | jcond c target => exact execJcond_storageKept h
  | exbr bits | dpbr bits | exbrv bits | dpbrv bits =>
    exact State.settle_storageKept (.error s (.refuse .bitRangeOperandRoles)) h
  | sbit rd b | cbit rd b => exact State.settle_storageKept (.bind fun n _ => .bind fun v _ => .ok .of_same) h
  | peri rd control => exact execPeri_storageKept h
  | halt => exact execHalt_storageKept h
  | syscall index =>
    exact State.settle_storageKept (.bind fun n _ => fun u hu => (State.callGate_change hu).storageKept) h
  | iret =>
    exact State.settle_storageKept (.bind fun _ _ => fun u hu => State.returnFromInterrupt_storageKept hu) h
  | phload bits | phstore bits | clrpp bits => exact State.settle_storageKept (.bind fun _ _ => .error s _) h
  | load rd op => exact State.settle_storageKept (.bind fun _ _ => .bind fun v _ => .ok .of_same) h
  | store rs op =>
    exact State.settle_storageKept (.bind fun v _ => .bind fun p _ => .bind fun u hu =>
      .ok ((State.storeAt_storageKept hu).trans .of_same)) h
  | push op =>
    exact State.settle_storageKept (.bind fun v _ => .bind fun u hu =>
      .ok ((State.push_storageKept hu).trans .of_same)) h
  | call target =>
    exact State.settle_storageKept (.bind fun u hu => .bind fun a _ =>
      .ok ((State.push_storageKept hu).trans .of_same)) h
  | ret => exact State.settle_storageKept (.bind fun a _ => .ok .of_same) h
  | inc op => exact execInc_storageKept h

/-! ### The points of a step around the instruction (60_exceptions.md R223) -/

theorem State.deliver_entered_storageKept {s t : State} {q : Request} (h : s.deliver q = .entered t) :
    StorageKept s t := by
  have hfrom := State.deliver_from s q
  rw [h] at hfrom
  exact EntryChange.storageKept hfrom

theorem State.deliver_stopped_storageKept {s t : State} {q : Request} (h : s.deliver q = .stopped t) :
    StorageKept s t := by
  have hfrom := State.deliver_from s q
  rw [h] at hfrom
  exact hfrom.1.storageKept

theorem State.skip_storageKept (s : State) (n : Nat) : StorageKept s (s.skip n) := .of_same

theorem State.debugPoint_storageKept {s t : State} (h : s.debugPoint = some t) : StorageKept s t := by
  unfold State.debugPoint at h
  split at h
  · split at h
    case h_1 u hu => cases h; exact (s.skip_storageKept 1).trans (State.deliver_entered_storageKept hu)
    case h_2 u hu => cases h; exact (s.skip_storageKept 1).trans (State.deliver_stopped_storageKept hu)
    case h_3 => cases h
  · cases h

theorem State.keyboardPoint_storageKept {s t : State} (h : s.keyboardPoint = some t) : StorageKept s t := by
  unfold State.keyboardPoint at h
  split at h
  · cases h
  · split at h
    case h_1 u hu => cases h; exact (s.skip_storageKept 2).trans (State.deliver_entered_storageKept hu)
    case h_2 u hu => cases h; exact (s.skip_storageKept 2).trans (State.deliver_stopped_storageKept hu)
    case h_3 => cases h

theorem State.beforeFetch_storageKept {s t : State} (h : s.beforeFetch = some t) : StorageKept s t := by
  unfold State.beforeFetch at h
  split at h
  case h_1 u hu => cases h; exact State.debugPoint_storageKept hu
  case h_2 => exact State.keyboardPoint_storageKept h

theorem State.timerPoint_storageKept (s : State) : StorageKept s s.timerPoint := by
  have hcount : StorageKept s { s with timer := s.timer - 1 } := .of_same
  unfold State.timerPoint
  dsimp only
  split
  · exact .refl s
  · split
    · split
      case h_1 u hu => exact hcount.trans ((State.skip_storageKept _ 2).trans (State.deliver_entered_storageKept hu))
      case h_2 u hu => exact hcount.trans ((State.skip_storageKept _ 2).trans (State.deliver_stopped_storageKept hu))
      case h_3 => exact hcount
    · exact hcount

theorem State.endStep_storageKept (s : State) : StorageKept s s.endStep := by
  unfold State.endStep
  split
  · exact .refl s
  · exact s.timerPoint_storageKept

/-! ### The host's actions (43 R150, R157, R162) -/

theorem State.pressKey_storageKept (s : State) (k : Byte) : StorageKept s (s.pressKey k) := by
  unfold State.pressKey
  extract_lets full
  split
  · exact .of_same rfl rfl rfl rfl
  · exact .of_same

theorem State.packetArrives_storageKept (s : State) (a : Fin 2 × Packet) : StorageKept s (s.packetArrives a) := by
  unfold State.packetArrives
  split
  · exact .refl s
  · split
    · exact .of_same
    · exact .refl s

theorem StorageKept.foldl {α : Type} {f : State → α → State} (hf : ∀ s a, StorageKept s (f s a)) (l : List α)
    (s : State) : StorageKept s (l.foldl f s) := by
  induction l generalizing s with
  | nil => exact .refl s
  | cons a l ih => exact (hf s a).trans (ih (f s a))

theorem State.hostActs_storageKept (s : State) : StorageKept s s.hostActs := by
  unfold State.hostActs
  split
  · exact .refl s
  · rename_i a rest _
    have hclock : StorageKept s { s with host := { s.host with arrivals := rest }, clock := s.clock + a.micros } :=
      .of_same
    exact hclock.trans ((StorageKept.foldl State.pressKey_storageKept a.keys _).trans
      (StorageKept.foldl State.packetArrives_storageKept a.packets _))

theorem State.beginStep_storageKept (s : State) : StorageKept s s.beginStep :=
  s.hostActs_storageKept.trans (.of_same rfl rfl rfl rfl)

/-! ### The step -/

/-- The four ways a step can end in a next state: the CPU is halted, an interrupt comes before the fetch, the fetch fails,
or the instruction has a next state. -/
theorem step_cases {s t : State} (h : step s = .next t) :
    (s.flags.r = false ∧ t = s) ∨
      s.flags.r = true ∧
        (s.beginStep.beforeFetch = some t ∨
          s.beginStep.beforeFetch = none ∧
            ((∃ e, s.beginStep.fetch = .error e ∧ s.beginStep.settle (.error e) = .next t) ∨
              ∃ i u, s.beginStep.fetch = .ok i ∧ exec i s.beginStep = .next u ∧ t = u.endStep)) := by
  unfold step at h
  split at h
  case isTrue hhalted => cases h; exact .inl ⟨hhalted, rfl⟩
  case isFalse hruns =>
    refine .inr ⟨Bool.eq_true_of_not_eq_false hruns, ?_⟩
    split at h
    case h_1 u hpoint => cases h; exact .inl hpoint
    case h_2 hpoint =>
      refine .inr ⟨hpoint, ?_⟩
      split at h
      case h_1 e hfetch => exact .inl ⟨e, hfetch, h⟩
      case h_2 i hfetch =>
        split at h
        case h_1 u hexec => cases h; exact .inr ⟨i, u, hfetch, hexec, rfl⟩
        case h_2 => cases h
        case h_3 => cases h

theorem step_storageKept {s t : State} (h : step s = .next t) : StorageKept s t := by
  rcases step_cases h with ⟨-, rfl⟩ | ⟨-, hpoint | ⟨-, ⟨e, -, hsettle⟩ | ⟨i, u, -, hexec, rfl⟩⟩⟩
  · exact .refl t
  · exact s.beginStep_storageKept.trans (State.beforeFetch_storageKept hpoint)
  · exact s.beginStep_storageKept.trans (State.settle_storageKept (.error _ e) hsettle)
  · exact s.beginStep_storageKept.trans ((exec_storageKept hexec).trans u.endStep_storageKept)

/-- Settles O8: every way a step can end keeps the storage. -/
theorem stepKeepsGoodStates : Obligations.StepKeepsGoodStates := by
  intro s t hgood hstep
  obtain ⟨hkeeps, hparams, hsizes⟩ := step_storageKept hstep
  exact ⟨hkeeps hgood, hparams, hsizes⟩

end Sys2Proof.Machine
end

section
/-! Special-register and flag instructions (40_special_register_flag_instructions.md R90 to R97): what a read of a special
register or of a flag gives after a write, the two ways an instruction writes the flags, and the next state of each
instruction. Settles O25 to O30. -/

namespace Sys2Proof.Machine

/-! ### Reads after writes: one flag, the FLAGS word, one special register -/

/-- A written flag reads as the value written, every other flag as before. -/
theorem getFlag_putFlag (f : Flags) (b : Bool) (name name' : FlagName) :
    getFlag (putFlag f b name) name' = if name' = name then b else getFlag f name' := by
  cases name <;> cases name' <;> rfl

theorem exists_flagNumber_eq {i : Nat} (h : i < 7) : ∃ name, flagNumber name = i :=
  match i, h with
  | 0, _ => ⟨.r, rfl⟩
  | 1, _ => ⟨.z, rfl⟩
  | 2, _ => ⟨.n, rfl⟩
  | 3, _ => ⟨.err, rfl⟩
  | 4, _ => ⟨.sys, rfl⟩
  | 5, _ => ⟨.ip, rfl⟩
  | 6, _ => ⟨.vm, rfl⟩

/-- Bits 31:7 of FLAGS are 0 (R35). -/
theorem flagsWord_getLsbD_of_six_lt (f : Flags) {i : Nat} (h : 6 < i) : (flagsWord f).getLsbD i = false := by
  have hbit : ∀ (b : Bool) (n : Nat), n ≤ 6 → (flagBit b n).getLsbD i = false := fun b n hn => by
    rw [flagBit_getLsbD b (by omega), decide_eq_false (by omega), Bool.and_false]
  simp (disch := decide) only [flagsWord, BitVec.getLsbD_or, hbit, Bool.or_false]

/-- FLAGS keeps the low seven bits of a word written to it (R35, 92 D5): bit n is flag n below 7, and 0 from there on. -/
theorem flagsWord_flagsOfWord (w : Word) : flagsWord (flagsOfWord w) = w &&& 0x7F := by
  refine BitVec.eq_of_getLsbD_eq fun i hi => ?_
  have hmask : (0x7F : Word).getLsbD i = decide (i < 7) := by
    rw [show (0x7F : Word) = BitVec.ofNat 32 (2 ^ 7 - 1) from rfl, BitVec.getLsbD_ofNat, decide_eq_true hi,
      Bool.true_and, Nat.testBit_two_pow_sub_one]
  rw [BitVec.getLsbD_and, hmask]
  by_cases hlow : i < 7
  · obtain ⟨name, rfl⟩ := exists_flagNumber_eq hlow
    rw [flagsWord_getLsbD, getFlag_flagsOfWord, decide_eq_true hlow, Bool.and_true]
  · rw [flagsWord_getLsbD_of_six_lt _ (by omega), decide_eq_false hlow, Bool.and_false]

/-- A written special register reads as the word written, FLAGS as what it keeps of it, every other one as before. -/
theorem State.special_setSpecial (s : State) (r r' : SReg) (v : Word) :
    (s.setSpecial r v).special r' =
      if r' = r then if r = .flags then flagsWord (flagsOfWord v) else v else s.special r' := by
  cases r <;> cases r' <;> rfl

theorem State.special_advance (s : State) (r : SReg) : s.advance.special r = s.special r := by
  cases r <;> rfl

/-- A write of a special register reaches no general register, PC, memory or device, and gives no reason to halt unless it
clears R (60 R231). -/
theorem State.setSpecial_frame (s : State) (r : SReg) (v : Word) :
    (s.setSpecial r v).gpr = s.gpr ∧ (s.setSpecial r v).pc = s.pc ∧
      ((s.setSpecial r v).flags.r = true → (s.setSpecial r v).stopReason = s.stopReason) ∧
      SameMemory s (s.setSpecial r v) ∧ SameDevices s (s.setSpecial r v) := by
  have hstop : (s.setSpecial r v).flags.r = true → (s.setSpecial r v).stopReason = s.stopReason := by
    cases r with
    | flags => exact fun hr => if_pos hr
    | _ => exact fun _ => rfl
  have hmem : (s.setSpecial r v).mem = s.mem := by cases r <;> rfl
  have hdevices : SameDevices s (s.setSpecial r v) := by
    cases r <;> exact ⟨rfl, rfl, rfl, rfl, rfl, rfl, rfl, rfl⟩
  exact ⟨by cases r <;> rfl, by cases r <;> rfl, hstop, State.memWord_congr hmem, hdevices⟩

/-! ### The two writes of the flags -/

/-- All flags written, with a halt recorded if R becomes 0. -/
theorem State.setFlags_advance_wrote (s : State) (f : Flags) : WroteFlags s (s.setFlags f).advance f :=
  ⟨rfl, rfl, fun hr => if_pos hr, ⟨rfl, rfl, rfl, rfl, rfl⟩, ⟨rfl, rfl, rfl, rfl, rfl, rfl⟩, fun _ => rfl,
    ⟨rfl, rfl, rfl, rfl, rfl, rfl, rfl, rfl⟩⟩

/-- Flags written by an instruction that leaves R alone, after `n` free values. -/
theorem State.withFlags_advance_wrote (s : State) (f : Flags) (n : Nat) :
    WroteFlags s ({ s with flags := f }.skip n).advance f :=
  ⟨rfl, rfl, fun _ => rfl, ⟨rfl, rfl, rfl, rfl, rfl⟩, ⟨rfl, rfl, rfl, rfl, rfl, rfl⟩, fun _ => rfl,
    ⟨rfl, rfl, rfl, rfl, rfl, rfl, rfl, rfl⟩⟩

/-! ### The flags of the comparisons (R95, R96; 92 D29) -/

/-- A difference of signed values within a word's range does not overflow. -/
theorem differenceOverflows_eq_false {a b : Word} (hlow : -2 ^ 31 ≤ a.toInt - b.toInt)
    (hhigh : a.toInt - b.toInt < 2 ^ 31) : differenceOverflows a b = false := by
  have hfits : (a - b).toInt = a.toInt - b.toInt := by
    rw [BitVec.toInt_sub]
    exact Int.bmod_eq_of_le hlow hhigh
  exact decide_eq_false (not_not_intro hfits)

theorem compareFlags_n {f : Flags} {a b : Word} {free : Bool} (h : differenceOverflows a b = false) :
    (compareFlags f a b free).n = decide (a.toInt < b.toInt) := by
  simp [compareFlags, h]

/-- COMPZ's N, the sign of the value, is its bit 31. -/
theorem compareZeroFlags_eq (f : Flags) (v : Word) :
    compareZeroFlags f v = { f with z := decide (v = 0), n := v.getLsbD 31 } := by
  have hsign : decide (v.toInt < 0) = v.getLsbD 31 := by
    rw [← BitVec.msb_eq_toInt, BitVec.msb_eq_getLsbD_last]
  rw [compareZeroFlags, hsign]

/-! ### The next state of each instruction -/

theorem State.specialNamed_ok {s : State} {k : Word} {r : SReg} (h : sregOfNumber s.params k = some r) :
    s.specialNamed k = .ok r := by
  rw [State.specialNamed, h]

theorem flagNamed_ok {f : Word} {name : FlagName} (h : flagOfNumber f = some name) : flagNamed f = .ok name := by
  rw [flagNamed, h]

theorem execGetsr_next {s : State} {rd : Reg} {k : Word} {r : SReg} (hrd : rd ≠ .pc)
    (hk : sregOfNumber s.params k = some r) :
    execGetsr rd k s = .next (s.setReg rd (s.special r)).advance := by
  simp only [execGetsr, State.specialNamed_ok hk, State.writeReg_ok s hrd, Except.ok_bind, State.settle_ok]

theorem execGetfl_next {s : State} {rd : Reg} {f : Word} {name : FlagName} (hrd : rd ≠ .pc)
    (hf : flagOfNumber f = some name) :
    execGetfl rd f s = .next (s.setReg rd (boolWord (getFlag s.flags name))).advance := by
  simp only [execGetfl, flagNamed_ok hf, State.writeReg_ok s hrd, Except.ok_bind, State.settle_ok]

theorem execSetsr_next {s : State} {rs : Reg} {k : Word} {r : SReg} (hsys : s.flags.sys = true) (hrs : rs ≠ .pc)
    (hk : sregOfNumber s.params k = some r) :
    execSetsr rs k s = .next (s.setSpecial r (s.reg rs)).advance := by
  simp only [execSetsr, State.needSystem_ok hsys, State.specialNamed_ok hk, State.readReg_ok s hrs, Except.ok_bind,
    State.settle_ok]

/-- A protected flag is none of Z, N and ERR (R36), so the mode that may write it is system mode. -/
theorem State.system_of_isProtected {s : State} {name : FlagName}
    (hmode : s.flags.sys = true ∨ name = .z ∨ name = .n ∨ name = .err) (hprotected : isProtected name = true) :
    s.flags.sys = true := by
  rcases hmode with hsys | rfl | rfl | rfl
  · exact hsys
  all_goals cases hprotected

theorem execSetfl_next {s : State} {rs : Reg} {f : Word} {name : FlagName} (hrs : rs ≠ .pc)
    (hf : flagOfNumber f = some name) (hmode : s.flags.sys = true ∨ name = .z ∨ name = .n ∨ name = .err) :
    execSetfl rs f s = .next (s.setFlags (putFlag s.flags (decide (s.reg rs ≠ 0)) name)).advance := by
  cases hprotected : isProtected name with
  | true =>
    have hsystem := State.needSystem_ok (State.system_of_isProtected hmode hprotected)
    simp only [execSetfl, flagNamed_ok hf, hprotected, if_true, hsystem, State.readReg_ok s hrs, Except.ok_bind,
      State.settle_ok]
  | false =>
    simp only [execSetfl, flagNamed_ok hf, hprotected, Bool.false_eq_true, if_false, State.readReg_ok s hrs,
      Except.ok_bind, State.settle_ok]

theorem execFlagsj_next {s : State} {rs : Reg} {op : Operand} {a : Word} (hsys : s.flags.sys = true) (hrs : rs ≠ .pc)
    (hop : s.value op = .ok a) :
    execFlagsj rs op s = .next ((s.setFlags (flagsOfWord (s.reg rs))).jump a) := by
  simp only [execFlagsj, State.needSystem_ok hsys, State.readReg_ok s hrs, hop, Except.ok_bind, State.settle_ok]

theorem execComp_next {s : State} {rn : Reg} {op : Operand} {b : Word} (hrn : rn ≠ .pc) (hop : s.value op = .ok b) :
    execComp rn op s =
      .next ({ s with flags := compareFlags s.flags (s.reg rn) b s.freeBit }.skip 1).advance := by
  simp only [execComp, State.readReg_ok s hrn, hop, Except.ok_bind, State.settle_ok]

theorem execCompz_next {s : State} {op : Operand} {v : Word} (hop : s.value op = .ok v) :
    execCompz op s = .next { s with flags := compareZeroFlags s.flags v }.advance := by
  simp only [execCompz, hop, Except.ok_bind, State.settle_ok]

theorem execJcond_taken {s : State} {op : Operand} {a : Word} (herr : s.flags.err = true) (hop : s.value op = .ok a) :
    execJcond .err op s = .next (s.jump a) := by
  simp only [execJcond, herr, if_true, hop, Except.ok_bind, State.settle_ok]

theorem execJcond_notTaken {s : State} (op : Operand) (herr : s.flags.err = false) :
    execJcond .err op s = .next s.advance := by
  simp only [execJcond, herr, Bool.false_eq_true, if_false, State.settle_ok]

theorem execJcond_unlisted (s : State) (c : BitVec 4) (op : Operand) :
    execJcond (.unlisted c) op s = .refused .unlistedCondition := rfl

/-! ### The obligations -/

/-- Settles O26: the write of the special register decides what each special register reads as, and its frame the rest. -/
theorem setsrWritesTheNamedRegister : Obligations.SetsrWritesTheNamedRegister := by
  intro s rs k r hsys hrs hk
  obtain ⟨hgpr, hpc, hstop, hmem, hdevices⟩ := s.setSpecial_frame r (s.reg rs)
  refine ⟨_, execSetsr_next hsys hrs hk, ?named, fun r' hr' => ?others, hgpr, ?pc, hstop, hmem, hdevices⟩
  case named => rw [State.special_advance, State.special_setSpecial, if_pos rfl, flagsWord_flagsOfWord]
  case others => rw [State.special_advance, State.special_setSpecial, if_neg hr']
  case pc => rw [State.advance_pc, hpc]

/-- Settles O29: both comparisons write flags alone; COMP's N needs the difference not to overflow. -/
theorem compAndCompzCompareSignedValues : Obligations.CompAndCompzCompareSignedValues := by
  refine ⟨fun s rn op b hrn hop => ?comp, fun s op v hop => ?compz⟩
  case comp =>
    exact ⟨_, execComp_next hrn hop, rfl, fun hlow hhigh => compareFlags_n (differenceOverflows_eq_false hlow hhigh),
      s.withFlags_advance_wrote _ 1⟩
  case compz =>
    refine ⟨_, execCompz_next hop, ?_⟩
    rw [compareZeroFlags_eq]
    exact s.withFlags_advance_wrote _ 0

/-- Settles O25: both instructions write one register; the numbers are those of `sregOfNumber`. -/
theorem getsrAndGetflReadWhatIsNamed : Obligations.GetsrAndGetflReadWhatIsNamed := by
  refine ⟨fun s rd k r hrd hk => ?getsr, fun p => rfl, fun s rd f name hrd hf => ?getfl⟩
  case getsr => exact ⟨_, execGetsr_next hrd hk, s.setReg_advance_wrote _ hrd⟩
  case getfl => exact ⟨_, execGetfl_next hrd hf, s.setReg_advance_wrote _ hrd⟩

/-- Settles O27: the write of all flags is the write of the one flag that `putFlag` changes. -/
theorem setflWritesTheNamedFlag : Obligations.SetflWritesTheNamedFlag := by
  intro s rs f name hrs hf hmode
  refine ⟨_, execSetfl_next hrs hf hmode, ?named, fun name' hname' => ?others, s.setFlags_advance_wrote _⟩
  case named => exact (getFlag_putFlag s.flags _ name name).trans (if_pos rfl)
  case others => exact (getFlag_putFlag s.flags _ name name').trans (if_neg hname')

/-- Settles O28: the operand is read at the state before the flags change, and the jump moves PC alone. -/
theorem flagsjSetsFlagsAndPc : Obligations.FlagsjSetsFlagsAndPc := by
  intro s rs op a hsys hrs hop
  obtain ⟨-, -, hstop, hregs, hcontrol, hmem, hdevices⟩ := s.setFlags_advance_wrote (flagsOfWord (s.reg rs))
  exact ⟨_, execFlagsj_next hsys hrs hop, rfl, rfl, hstop, hregs, hcontrol, hmem, hdevices⟩

/-- Settles O30: ERR set, ERR clear, and a condition that is not listed. -/
theorem jcondJumpsOnErr : Obligations.JcondJumpsOnErr := fun s op =>
  ⟨fun herr _ hop => execJcond_taken herr hop, fun herr => execJcond_notTaken op herr,
    fun c => execJcond_unlisted s c op⟩

end Sys2Proof.Machine
end

section
/-! Bit-range and bit instructions (41_bit_instructions.md R110 to R118): the fields of a descriptor, the bits of Extract
and Deposit, both on a vector of words, and the next states of SBIT and CBIT. Settles O31 and O32. -/

namespace Sys2Proof.Machine

/-! ### The fields of a descriptor (R110) -/

theorem rangePos_eq (d : Word) : rangePos d = d.toNat / 32 % 32 := by
  rw [rangePos, BitVec.extractLsb'_toNat, Nat.shiftRight_eq_div_pow]

theorem rangeLen_eq (d : Word) : rangeLen d = if d.toNat % 32 = 0 then 32 else d.toNat % 32 := by
  have hfield : (d.extractLsb' 0 5).toNat = d.toNat % 32 := by rw [BitVec.extractLsb'_toNat, Nat.shiftRight_zero]
  simp only [rangeLen, BitVec.toNat_eq, hfield, BitVec.ofNat_eq_ofNat, BitVec.toNat_ofNat, Nat.zero_mod]

theorem rangeLen_le (d : Word) : rangeLen d ≤ 32 := by
  rw [rangeLen_eq]; split <;> omega

/-- The 22 bits of the skip are all that is left of a word above bit 9. -/
theorem rangeSkip_eq (d : Word) : rangeSkip d = BitVec.ofNat 32 (d.toNat / 1024) := by
  refine BitVec.eq_of_toNat_eq ?_
  have hword := d.isLt
  rw [rangeSkip, BitVec.toNat_setWidth, BitVec.extractLsb'_toNat, Nat.shiftRight_eq_div_pow, BitVec.toNat_ofNat]
  omega

/-! ### Masks -/

theorem lowMask_getLsbD {len : Nat} (hlen : len ≤ 32) (j : Nat) : (lowMask len).getLsbD j = decide (j < len) := by
  have hpow : (1 : Word) <<< len = BitVec.ofNat 32 (2 ^ len) := by
    refine BitVec.eq_of_toNat_eq ?_
    rw [BitVec.toNat_shiftLeft, Nat.shiftLeft_eq, BitVec.toNat_ofNat]
    exact congrArg (· % 2 ^ 32) (one_mul _)
  have hmask : lowMask len = BitVec.ofNat 32 (2 ^ len - 1) := by
    rw [lowMask, hpow]
    exact BitVec.ofNat_sub_ofNat_of_le _ _ (by decide) Nat.one_le_two_pow
  rw [hmask, BitVec.getLsbD_ofNat, Nat.testBit_two_pow_sub_one, ← Bool.decide_and]
  exact decide_eq_decide.mpr (and_iff_right_of_imp fun hj => by omega)

theorem lowMask_shiftLeft_getLsbD {len pos : Nat} (hrange : pos + len ≤ 32) (j : Nat) :
    (lowMask len <<< pos).getLsbD j = decide (pos ≤ j ∧ j < pos + len) := by
  rw [BitVec.getLsbD_shiftLeft, lowMask_getLsbD (by omega), Bool.eq_iff_iff]
  simp only [Bool.and_eq_true, Bool.not_eq_true', decide_eq_true_eq, decide_eq_false_iff_not]
  omega

theorem one_shiftLeft_getLsbD {b : Nat} (hb : b < 32) (j : Nat) : ((1 : Word) <<< b).getLsbD j = decide (j = b) := by
  have hbit := BitVec.getLsbD_twoPow (w := 32) b j
  rwa [BitVec.twoPow_eq, decide_eq_true hb, Bool.true_and, decide_eq_decide.mpr (eq_comm (a := b))] at hbit

/-! ### Extract and Deposit (R111, R112) -/

theorem extractRange_within (w : Word) {d : Word} (hrange : rangePos d + rangeLen d ≤ 32) :
    ∃ v, extractRange w d = some v ∧
      ∀ j : Nat, v.getLsbD j = (decide (j < rangeLen d) && w.getLsbD (rangePos d + j)) := by
  refine ⟨_, if_pos hrange, fun j => ?_⟩
  rw [BitVec.getLsbD_and, BitVec.getLsbD_ushiftRight, lowMask_getLsbD (rangeLen_le d), Bool.and_comm]

/-- Inside the range the mask lets the value through, outside it the word. -/
theorem depositRange_within (w x : Word) {d : Word} (hrange : rangePos d + rangeLen d ≤ 32) :
    ∃ v, depositRange w d x = some v ∧ ∀ j : Nat, j < 32 → v.getLsbD j =
      if rangePos d ≤ j ∧ j < rangePos d + rangeLen d then x.getLsbD (j - rangePos d) else w.getLsbD j := by
  refine ⟨_, if_pos hrange, fun j hj => ?_⟩
  rw [BitVec.getLsbD_or, BitVec.getLsbD_and, BitVec.getLsbD_and, BitVec.getLsbD_not, lowMask_shiftLeft_getLsbD hrange,
    BitVec.getLsbD_shiftLeft]
  split
  case isTrue hin => simp [hin, hj, Nat.not_lt.mpr hin.1]
  case isFalse hout => simp [hout, hj]

theorem extractRange_outside (w : Word) {d : Word} (hrange : 32 < rangePos d + rangeLen d) :
    extractRange w d = none := if_neg (Nat.not_le.mpr hrange)

theorem depositRange_outside (w x : Word) {d : Word} (hrange : 32 < rangePos d + rangeLen d) :
    depositRange w d x = none := if_neg (Nat.not_le.mpr hrange)

/-! ### On a vector of words (R115, R116) -/

theorem State.vectorAccess_fails {s : State} {a d : Word} {e : Stop} (x : Word)
    (h : s.readMem (a + rangeSkip d) = .error e) :
    s.extractFromVector a d = .error e ∧ s.depositIntoVector a d x = .error e := by
  simp only [State.extractFromVector, State.depositIntoVector, h, Except.error_bind, and_self]

theorem State.extractFromVector_ok {s : State} {a d w : Word} (h : s.readMem (a + rangeSkip d) = .ok w) :
    s.extractFromVector a d = .ok (extractRange w d) := by
  simp only [State.extractFromVector, h, Except.ok_bind]

theorem State.depositIntoVector_outside {s : State} {a d w x : Word} (h : s.readMem (a + rangeSkip d) = .ok w)
    (hx : depositRange w d x = none) : s.depositIntoVector a d x = .ok none := by
  simp only [State.depositIntoVector, h, hx, Except.ok_bind]

/-- The deposit stores at the address its read went to, so the store cannot fail. -/
theorem State.depositIntoVector_within {s : State} {a d w x v pa : Word}
    (htranslate : s.translate (a + rangeSkip d) = .ok pa) (hread : s.physRead pa = .ok w)
    (hx : depositRange w d x = some v) : s.depositIntoVector a d x = .ok (some (s.putWord pa.toNat v)) := by
  have hwrite := State.writeMem_ok v htranslate (State.physRead_cases hread).1
  simp only [State.depositIntoVector, State.readMem_of_translate htranslate, hread, hx, hwrite, Except.ok_bind]

/-! ### SBIT and CBIT (R117, R118) -/

theorem setBit_getLsbD (w : Word) {b : Nat} (hb : b < 32) (j : Nat) :
    (setBit w b).getLsbD j = (decide (j = b) || w.getLsbD j) := by
  rw [setBit, BitVec.getLsbD_or, one_shiftLeft_getLsbD hb, Bool.or_comm]

theorem clearBit_getLsbD (w : Word) {b : Nat} (hb : b < 32) {j : Nat} (hj : j < 32) :
    (clearBit w b).getLsbD j = (!decide (j = b) && w.getLsbD j) := by
  rw [clearBit, BitVec.getLsbD_and, BitVec.getLsbD_not, one_shiftLeft_getLsbD hb, decide_eq_true hj, Bool.true_and,
    Bool.and_comm]

theorem bitNumber_num {b : Word} (hb : b.toNat < 32) : bitNumber (.num b) = .ok b.toNat := if_pos hb

theorem execSbit_next {s : State} {rd : Reg} {b : Word} (hrd : rd ≠ .pc) (hb : b.toNat < 32) :
    execSbit rd (.num b) s = .next (s.setReg rd (setBit (s.reg rd) b.toNat)).advance := by
  simp only [execSbit, bitNumber_num hb, State.readReg_ok s hrd, Except.ok_bind, State.settle_ok]

theorem execCbit_next {s : State} {rd : Reg} {b : Word} (hrd : rd ≠ .pc) (hb : b.toNat < 32) :
    execCbit rd (.num b) s = .next (s.setReg rd (clearBit (s.reg rd) b.toNat)).advance := by
  simp only [execCbit, bitNumber_num hb, State.readReg_ok s hrd, Except.ok_bind, State.settle_ok]

/-! ### The obligations -/

/-- Settles O32: with the descriptor's fields as quotients and remainders, the word's bits, a range that leaves the word,
and the vector's read, which fails or leads to them. -/
theorem extractAndDepositActOnTheRange : Obligations.ExtractAndDepositActOnTheRange := by
  intro w d x len pos hlen hpos
  obtain rfl : len = rangeLen d := hlen.trans (rangeLen_eq d).symm
  obtain rfl : pos = rangePos d := hpos.trans (rangePos_eq d).symm
  refine ⟨fun hwithin => ⟨extractRange_within w hwithin, depositRange_within w x hwithin⟩,
    fun houtside => ⟨extractRange_outside w houtside, depositRange_outside w x houtside⟩,
    fun s a at_ pa hat => ?vector⟩
  case vector =>
    obtain rfl : at_ = a + rangeSkip d := by rw [hat, rangeSkip_eq]
    refine ⟨fun e hfails => State.vectorAccess_fails x hfails, fun htranslate hread => ?_⟩
    have hword := (State.readMem_of_translate htranslate).trans hread
    refine ⟨State.extractFromVector_ok hword,
      fun houtside => State.depositIntoVector_outside hword (depositRange_outside w x houtside), fun v hv => ?_⟩
    obtain ⟨hregs, hcontrol, hflags, hdevices, hpc⟩ := s.putWord_frame pa.toNat v
    exact ⟨_, State.depositIntoVector_within htranslate hread hv, s.putWord_stored pa v, hregs, hflags, hcontrol,
      hdevices, hpc⟩

/-- Settles O31: both instructions write one register, with a word that differs in one bit. -/
theorem sbitAndCbitWriteOneBit : Obligations.SbitAndCbitWriteOneBit := fun s _ _ hrd hb =>
  ⟨⟨_, _, execSbit_next hrd hb, s.setReg_advance_wrote _ hrd, fun j _ => setBit_getLsbD _ hb j⟩,
    ⟨_, _, execCbit_next hrd hb, s.setReg_advance_wrote _ hrd, fun _ hj => clearBit_getLsbD _ hb hj⟩⟩

end Sys2Proof.Machine
end

section
/-! The PERI call (42 R120 to R125): what the end of a call writes, the result of a word that is no operation code, and the
result of a control structure that cannot be read. Settles O47, O48 and O49. -/

namespace Sys2Proof.Machine

/-! ### The end of a call (R120, R122) -/

/-- `t` is `u` with `result` in the main register, ERR its sign, and the PC moved on. -/
def PeriWrote (u t : State) (rd : Reg) (result : Word) : Prop :=
  t.reg rd = result ∧ t.flags = { u.flags with err := decide (result.toInt < 0) } ∧ t.pc = u.pc + 1 ∧
    (∀ m : Reg, m ≠ rd → m ≠ .pc → t.reg m = u.reg m) ∧ t.otherStack = u.otherStack ∧
    t.stopReason = u.stopReason ∧ SameMemory u t ∧ SameControl u t ∧ SameDevices u t

/-- ERR has no part in what a register names: the mode alone selects SP and FP (10_state.md R12, R13). -/
theorem State.reg_withErr (s : State) (b : Bool) (m : Reg) :
    ({ s with flags := { s.flags with err := b } } : State).reg m = s.reg m := by
  cases m <;> rfl

/-- The end of a call is a register write and an update of ERR. -/
theorem State.periResult_advance (u : State) (rd : Reg) (result : Word) :
    (u.periResult rd result).advance =
      { (u.setReg rd result).advance with
        flags := { (u.setReg rd result).advance.flags with err := decide (result.toInt < 0) } } := rfl

theorem State.periResult_advance_wrote (u : State) {rd : Reg} (result : Word) (hrd : rd ≠ .pc) :
    PeriWrote u (u.periResult rd result).advance rd result := by
  obtain ⟨hreg, hpc, hregs, hstack, ⟨hflags, hstop⟩, hcontrol, hmem, hdevices⟩ := u.setReg_advance_wrote result hrd
  rw [State.periResult_advance]
  refine ⟨?reg, ?flags, hpc, fun m hm hmpc => ?regs, hstack, hstop, hmem, hcontrol, hdevices⟩
  case reg => rw [State.reg_withErr, hreg]
  case flags => rw [hflags]
  case regs => rw [State.reg_withErr, hregs m hm hmpc]

/-- A call in system mode ends as its operation does. -/
theorem execPeri_next {s u : State} {rd : Reg} {op : Operand} {c result : Word} (hsys : s.flags.sys = true)
    (hrd : rd ≠ .pc) (hop : s.value op = .ok c) (hdone : s.periAt c = .done result u) :
    execPeri rd op s = .next (u.periResult rd result).advance := by
  simp only [execPeri, State.needSystem_ok hsys, operandReg_ok hrd, hop, hdone, Except.ok_bind, State.settle_ok]

theorem execPeri_wrote {s u : State} {rd : Reg} {op : Operand} {c result : Word} (hsys : s.flags.sys = true)
    (hrd : rd ≠ .pc) (hop : s.value op = .ok c) (hdone : s.periAt c = .done result u) :
    ∃ t, exec (.peri rd op) s = .next t ∧ PeriWrote u t rd result :=
  ⟨_, execPeri_next hsys hrd hop hdone, u.periResult_advance_wrote result hrd⟩

/-! ### The first word of the control structure (R124, R125) -/

theorem periOpOf_eq_none {codes : PeriCodes} {w : Word} (h : ∀ o : PeriOp, periCode codes o ≠ w) :
    periOpOf codes w = none :=
  List.find?_eq_none.mpr fun o _ => by simpa using h o

theorem State.periAt_unreadable {s : State} {c : Word} (h : s.periRead c = none) :
    s.periAt c = .done errReadParams s := by
  rw [State.periAt, h]

theorem State.periAt_unknown {s : State} {c w : Word} (hw : s.readMem c = .ok w)
    (hop : periOpOf s.params.periOp w = none) : s.periAt c = .done errBadCode s := by
  simp only [State.periAt, State.periRead_ok hw, hop]

theorem PeriCall.periAt {s : State} {rd : Reg} {op : Operand} {c : Word} {o : PeriOp} (h : PeriCall s rd op c o) :
    s.periAt c = runPeriOp o s c := by
  obtain ⟨-, -, -, w, hw, ho⟩ := h
  simp only [State.periAt, State.periRead_ok hw, ho]

/-! ### The other words of the control structure (R125) -/

/-- Each operation reads all its words before it does anything. -/
theorem runPeriOp_unreadable {o : PeriOp} {s : State} {c : Word} (hinputs : periInputs o ≠ 0)
    (h : s.control c (periInputs o) = none) : runPeriOp o s c = .done errReadParams s := by
  cases o with
  | seconds | uSeconds => exact absurd rfl hinputs
  | _ =>
    rw [periInputs] at h
    simp only [runPeriOp, discCheck, discRead, discWrite, tapeCheck, tapeRewind, tapeLoad, tapeUnload, tapeRead,
      tapeWrite, termInC, termOutC, termInW, termOutW, netSS, netSend, netRecv, dateTime, h]

theorem PeriCall.unreadable {s : State} {rd : Reg} {op : Operand} {c : Word} {o : PeriOp} {j : Nat}
    (hcall : PeriCall s rd op c o) (hj : j < periInputs o) (h : s.periRead (c + 1 + BitVec.ofNat 32 j) = none) :
    s.periAt c = .done errReadParams s :=
  hcall.periAt.trans (runPeriOp_unreadable (Nat.ne_zero_of_lt hj) (State.control_unreadable hj h))

/-! ### The obligations -/

/-- Settles O47: the end of a call writes the register and ERR and nothing else. -/
theorem periReportsResultAndErr : Obligations.PeriReportsResultAndErr :=
  fun _ _ _ _ _ _ hsys hrd hop hdone => execPeri_wrote hsys hrd hop hdone

/-- Settles O48: the operation ends with −1 in the state it began in. -/
theorem unknownOperationReportsBadCode : Obligations.UnknownOperationReportsBadCode :=
  fun _ _ _ _ _ hsys hrd hop hw hcodes =>
    execPeri_wrote hsys hrd hop (State.periAt_unknown hw (periOpOf_eq_none hcodes))

/-- Settles O49: whichever word cannot be read, the operation ends with −2 in the state it began in. -/
theorem unreadableControlStructureReportsReadParams : Obligations.UnreadableControlStructureReportsReadParams := by
  intro s rd op c hsys hrd hop hword
  have hdone : s.periAt c = .done errReadParams s := by
    rcases hword with hfirst | ⟨o, hcall, j, hj, hother⟩
    · exact State.periAt_unreadable hfirst
    · exact hcall.unreadable hj hother
  exact execPeri_wrote hsys hrd hop hdone

end Sys2Proof.Machine
end

section
/-! What the host does before a step (42 R123, 43 R150, R157, R162; Logs 49, 70): keys into the keyboard buffer, packets into
the queues of the network units, the clock; and the clock over a whole step, which no instruction and no interrupt moves.
Settles O46. -/

namespace Sys2Proof.Machine

/-! ### Keys (R150) -/

/-- The keyboard buffer can take `n` more codes. -/
def State.HasRoom (s : State) (n : Nat) : Prop :=
  s.params.keybufCap = none ∨ ∃ cap, s.params.keybufCap = some cap ∧ s.kbuf.length + n ≤ cap

/-- A key changes the buffer alone, and the count of free values where the buffer is full. -/
theorem State.pressKey_shape (s : State) (k : Byte) :
    ∃ (kb : List Byte) (d : Nat), s.pressKey k = { s with kbuf := kb, draws := d } := by
  unfold State.pressKey
  extract_lets full
  split
  · exact ⟨_, _, rfl⟩
  · exact ⟨_, s.draws, rfl⟩

theorem State.pressKey_room {s : State} {n : Nat} (k : Byte) (h : s.HasRoom (n + 1)) :
    s.pressKey k = { s with kbuf := s.kbuf ++ [k] } := by
  rcases h with hcap | ⟨cap, hcap, hle⟩
  · simp [State.pressKey, hcap]
  · have hnotFull : ¬ cap ≤ s.kbuf.length := by omega
    simp [State.pressKey, hcap, hnotFull]

theorem State.hasRoom_append {s : State} {n : Nat} (k : Byte) (h : s.HasRoom (n + 1)) :
    ({ s with kbuf := s.kbuf ++ [k] } : State).HasRoom n := by
  refine h.imp_right ?_
  rintro ⟨cap, hcap, hle⟩
  exact ⟨cap, hcap, by simp only [List.length_append, List.length_singleton]; omega⟩

/-- A run of keys, each appended while there is room for all of them. -/
theorem State.pressKeys_shape (keys : List Byte) (s : State) :
    ∃ (kb : List Byte) (d : Nat), keys.foldl State.pressKey s = { s with kbuf := kb, draws := d } ∧
      (s.HasRoom keys.length → kb = s.kbuf ++ keys) := by
  induction keys generalizing s with
  | nil => exact ⟨s.kbuf, s.draws, rfl, fun _ => (List.append_nil _).symm⟩
  | cons k keys ih =>
    obtain ⟨kb, d, hrun, hroom⟩ := ih (s.pressKey k)
    obtain ⟨kb', d', hkey⟩ := s.pressKey_shape k
    refine ⟨kb, d, by rw [List.foldl_cons, hrun, hkey], fun h => ?_⟩
    rw [s.pressKey_room k h] at hroom
    simpa using hroom (s.hasRoom_append k h)

/-! ### Packets (R157) -/

/-- The packets of an arrival that unit `i` receives. -/
def packetsFor (i : Fin 2) (ps : List (Fin 2 × Packet)) : List Packet :=
  (ps.filter (fun p => decide (p.1 = i ∧ p.2.data.length ≤ 1024))).map Prod.snd

/-- A unit with packets at the end of its queue. -/
def NetUnit.receive (u : NetUnit) (ps : List Packet) : NetUnit := { u with inq := u.inq ++ ps }

theorem NetUnit.receive_nil (u : NetUnit) : u.receive [] = u := by
  simp [NetUnit.receive]

theorem NetUnit.receive_receive (u : NetUnit) (ps qs : List Packet) : (u.receive ps).receive qs = u.receive (ps ++ qs) := by
  simp [NetUnit.receive]

theorem packetsFor_cons (i : Fin 2) (p : Fin 2 × Packet) (ps : List (Fin 2 × Packet)) :
    packetsFor i (p :: ps) = packetsFor i [p] ++ packetsFor i ps := by
  rw [packetsFor, packetsFor, packetsFor, ← List.map_append, ← List.filter_append, List.singleton_append]

/-- A packet changes the units alone. -/
theorem State.packetArrives_shape (s : State) (p : Fin 2 × Packet) :
    ∃ ne, s.packetArrives p = { s with nets := ne } := by
  unfold State.packetArrives
  split
  · exact ⟨s.nets, rfl⟩
  · split
    · exact ⟨_, rfl⟩
    · exact ⟨s.nets, rfl⟩

/-- The packet goes to the end of the queue of its own unit, where that is on and the packet is not too long. -/
theorem State.packetArrives_nets (s : State) (p : Fin 2 × Packet) (i : Fin 2) :
    (s.packetArrives p).nets[i] = (s.nets[i]).map (fun u => u.receive (packetsFor i [p])) := by
  by_cases haccepted : p.1 = i ∧ p.2.data.length ≤ 1024
  case pos =>
    obtain ⟨rfl, hlength⟩ := haccepted
    have hpackets : packetsFor p.1 [p] = [p.2] := by simp [packetsFor, hlength]
    rw [hpackets, State.packetArrives]
    cases hunit : s.nets[p.1] with
    | none => simpa using hunit
    | some u => simp [hlength, NetUnit.receive]
  case neg =>
    have hpackets : packetsFor i [p] = [] := by simpa [packetsFor] using haccepted
    have hsame : (s.packetArrives p).nets[i] = s.nets[i] := by
      unfold State.packetArrives
      split
      · rfl
      · split
        · rename_i hlength
          have hother : p.1.val ≠ i.val := fun h => haccepted ⟨Fin.ext h, hlength⟩
          simp [Vector.getElem_set_ne, hother]
        · rfl
    rw [hsame, hpackets]
    simp [NetUnit.receive_nil]

theorem State.packetsArrive_shape (ps : List (Fin 2 × Packet)) (s : State) :
    ∃ ne, ps.foldl State.packetArrives s = { s with nets := ne } ∧
      ∀ i : Fin 2, ne[i] = (s.nets[i]).map (fun u => u.receive (packetsFor i ps)) := by
  induction ps generalizing s with
  | nil => exact ⟨s.nets, rfl, fun i => by simp [packetsFor, NetUnit.receive_nil]⟩
  | cons p ps ih =>
    obtain ⟨ne, hrun, hnets⟩ := ih (s.packetArrives p)
    obtain ⟨ne', hfirst⟩ := s.packetArrives_shape p
    refine ⟨ne, by rw [List.foldl_cons, hrun, hfirst], fun i => ?_⟩
    rw [hnets, s.packetArrives_nets, packetsFor_cons i p ps, Option.map_map]
    simp only [Function.comp_def, NetUnit.receive_receive]

/-! ### The start of a step -/

theorem State.beginStep_quiet {s : State} (h : s.host.arrivals = []) : s.beginStep = { s with interrupted := false } := by
  rw [State.beginStep, State.hostActs, h]

/-- A scheduled arrival changes the buffer, the units' queues, the clock and the model's own fields. -/
theorem State.beginStep_shape {s : State} {a : Arrival} {rest : List Arrival} (h : s.host.arrivals = a :: rest) :
    ∃ (kb : List Byte) (d : Nat) (ne : Vector (Option NetUnit) 2),
      s.beginStep = { s with host := { s.host with arrivals := rest }, clock := s.clock + a.micros, kbuf := kb,
                             draws := d, nets := ne, interrupted := false } ∧
      (s.HasRoom a.keys.length → kb = s.kbuf ++ a.keys) ∧
      ∀ i : Fin 2, ne[i] = (s.nets[i]).map (fun u => u.receive (packetsFor i a.packets)) := by
  obtain ⟨kb, d, hkeys, hroom⟩ := State.pressKeys_shape a.keys
    { s with host := { s.host with arrivals := rest }, clock := s.clock + a.micros }
  obtain ⟨ne, hpackets, hnets⟩ := State.packetsArrive_shape a.packets
    { s with host := { s.host with arrivals := rest }, clock := s.clock + a.micros, kbuf := kb, draws := d }
  refine ⟨kb, d, ne, ?_, hroom, hnets⟩
  rw [State.beginStep, State.hostActs, h]
  dsimp only
  rw [hkeys, hpackets]

theorem State.beginStep_clock_le (s : State) : s.clock ≤ s.beginStep.clock := by
  cases h : s.host.arrivals with
  | nil => rw [State.beginStep_quiet h]
  | cons a rest =>
    obtain ⟨kb, d, ne, hbegin, -, -⟩ := State.beginStep_shape h
    rw [hbegin]
    exact Nat.le_add_right _ _

/-! ### The clock of an instruction -/

/-- Every state the work of an instruction can end well in satisfies `p`. -/
def WorkEnds (p : State → Prop) (r : Except Stop State) : Prop := ∀ t, r = .ok t → p t

theorem WorkEnds.ok {p : State → Prop} {t : State} (h : p t) : WorkEnds p (.ok t) := by
  rintro _ ⟨⟩; exact h

theorem WorkEnds.error (p : State → Prop) (e : Stop) : WorkEnds p (.error e) := by
  intro t ht; cases ht

theorem WorkEnds.bind {α : Type} {p : State → Prop} {x : Except Stop α} {f : α → Except Stop State}
    (h : ∀ a, x = .ok a → WorkEnds p (f a)) : WorkEnds p (x >>= f) := by
  intro t ht
  obtain ⟨a, hx, hf⟩ := Except.bind_ok ht
  exact h a hx t hf

theorem WorkEnds.ite {p : State → Prop} {c : Prop} [Decidable c] {x y : Except Stop State} (hx : WorkEnds p x)
    (hy : WorkEnds p y) : WorkEnds p (if c then x else y) := by
  split
  · exact hx
  · exact hy

theorem EntryChange.clock {s t : State} (h : EntryChange s t) : t.clock = s.clock := by
  obtain ⟨pc, sp, f, m, g, d, r, b, rfl, -⟩ := h
  rfl

theorem PeriChange.clock {s t : State} (h : PeriChange s t) : t.clock = s.clock := by
  obtain ⟨⟨m, g, d, kb, sc, di, ta, ne, se, ho, rfl⟩, -⟩ := h
  rfl

/-- An instruction keeps the clock if its own work does: an interrupt it raises keeps it. -/
theorem State.settle_clock {s t : State} {r : Except Stop State} (h : s.settle r = .next t)
    (hr : WorkEnds (fun u => u.clock = s.clock) r) : t.clock = s.clock := by
  rcases State.settle_next h with rfl | ⟨q, -, rfl⟩
  · exact hr t rfl
  · exact (State.raise_change s q).clock

theorem State.writeMem_clock {s t : State} {a v : Word} (h : s.writeMem a v = .ok t) : t.clock = s.clock := by
  obtain ⟨pa, -, -, rfl⟩ := State.writeMem_cases h
  rfl

theorem State.push_clock {s t : State} {v : Word} (h : s.push v = .ok t) : t.clock = s.clock := by
  obtain ⟨pa, -, -, rfl⟩ := State.push_cases h
  simp

theorem State.storeAt_clock {s t : State} {p : Place} {v : Word} (h : s.storeAt p v = .ok t) : t.clock = s.clock := by
  cases p with
  | reg m => cases h; simp
  | mem a => exact State.writeMem_clock h
  | unwritable => cases h

theorem State.writeReg_clock {s t : State} {m : Reg} {v : Word} (h : s.writeReg m v = .ok t) : t.clock = s.clock := by
  obtain ⟨-, -, h⟩ := Except.bind_ok h
  cases h
  simp

theorem State.setSpecial_clock (s : State) (k : SReg) (v : Word) : (s.setSpecial k v).clock = s.clock := by
  cases k <;> rfl

theorem State.returnFromInterrupt_clock {s t : State} (h : s.returnFromInterrupt = .ok t) : t.clock = s.clock := by
  obtain ⟨top, -, h⟩ := Except.bind_ok h
  split at h
  · cases h
  · obtain ⟨low, -, h⟩ := Except.bind_ok h
    obtain ⟨high, -, h⟩ := Except.bind_ok h
    cases h
    rfl

theorem execSetfl_clock {rs : Reg} {f : Word} {s t : State} (h : execSetfl rs f s = .next t) : t.clock = s.clock := by
  have hwrite : ∀ name, WorkEnds (fun u => u.clock = s.clock) (s.readReg rs >>= fun v =>
      .ok (s.setFlags (putFlag s.flags (decide (v ≠ 0)) name)).advance) := fun _ => .bind fun _ _ => .ok rfl
  exact State.settle_clock h (.bind fun name _ =>
    .ite (.bind fun _ _ => hwrite name) (.bind fun _ _ => hwrite name))

theorem execJcond_clock {c : Cond} {target : Operand} {s t : State} (h : execJcond c target s = .next t) :
    t.clock = s.clock := by
  refine State.settle_clock h ?_
  cases c with
  | unlisted code => exact .error _ _
  | err => exact .ite (.bind fun _ _ => .ok rfl) (.ok rfl)

theorem execPeri_clock {rd : Reg} {control : Operand} {s t : State} (h : execPeri rd control s = .next t) :
    t.clock = s.clock := by
  refine State.settle_clock h (.bind fun _ _ => .bind fun _ _ => .bind fun c _ => ?_)
  cases hp : s.periAt c with
  | done result u => exact .ok ((u.setReg_clock rd result).trans (State.periAt_change hp).clock)
  | refuse r => exact .error _ _

/-- No instruction moves the clock. -/
theorem exec_clock {i : Instr} {s t : State} (h : exec i s = .next t) : t.clock = s.clock := by
  cases i with
  | getsr rd k | getfl rd f =>
    exact State.settle_clock h (.bind fun _ _ => .bind fun _ hu => .ok (State.writeReg_clock hu :))
  | setsr rs k =>
    exact State.settle_clock h (.bind fun _ _ => .bind fun r _ => .bind fun v _ => .ok (s.setSpecial_clock r v))
  | setfl rs f => exact execSetfl_clock h
  | flagsj rs target =>
    exact State.settle_clock h (.bind fun _ _ => .bind fun _ _ => .bind fun _ _ => .ok rfl)
  | comp rn op => exact State.settle_clock h (.bind fun _ _ => .bind fun _ _ => .ok rfl)
  | compz op => exact State.settle_clock h (.bind fun _ _ => .ok rfl)
  | jcond c target => exact execJcond_clock h
  | exbr bits | dpbr bits | exbrv bits | dpbrv bits =>
    exact nomatch h
  | sbit rd b | cbit rd b =>
    exact State.settle_clock h (.bind fun _ _ => .bind fun _ _ => .ok (s.setReg_clock rd _))
  | peri rd control => exact execPeri_clock h
  | halt => exact State.settle_clock h (.ite (.ok rfl) (.error _ _))
  | syscall index => exact State.settle_clock h (.bind fun _ _ => fun _ hu => (State.callGate_change hu).clock)
  | iret => exact State.settle_clock h (.bind fun _ _ => fun _ hu => State.returnFromInterrupt_clock hu)
  | phload bits | phstore bits | clrpp bits => exact State.settle_clock h (.bind fun _ _ => .error _ _)
  | load rd op => exact State.settle_clock h (.bind fun _ _ => .bind fun _ _ => .ok (s.setReg_clock rd _))
  | store rs op =>
    exact State.settle_clock h (.bind fun _ _ => .bind fun _ _ => .bind fun _ hu => .ok (State.storeAt_clock hu :))
  | push op => exact State.settle_clock h (.bind fun _ _ => .bind fun _ hu => .ok (State.push_clock hu :))
  | call target => exact State.settle_clock h (.bind fun _ hu => .bind fun _ _ => .ok (State.push_clock hu :))
  | ret => exact State.settle_clock h (.bind fun _ _ => .ok (by simp))
  | inc op =>
    exact State.settle_clock h (.bind fun _ _ => .ite (.error _ _)
      (.bind fun _ _ => .bind fun _ _ => .bind fun _ hu => .ok (State.storeAt_clock hu :)))

/-! ### The clock of a step -/

/-- A delivery that leads to a next state, entered or stopped, keeps the clock. -/
theorem State.deliver_clock {s t : State} {q : Request} (h : s.deliver q = .entered t ∨ s.deliver q = .stopped t) :
    t.clock = s.clock := by
  have hfrom := State.deliver_from s q
  rcases h with hentered | hstopped
  · rw [hentered] at hfrom
    exact EntryChange.clock hfrom
  · rw [hstopped] at hfrom
    exact hfrom.1.clock

theorem State.debugPoint_clock {s t : State} (h : s.debugPoint = some t) : t.clock = s.clock := by
  unfold State.debugPoint at h
  split at h
  · split at h
    case h_1 u hu => cases h; exact (State.deliver_clock (.inl hu)).trans rfl
    case h_2 u hu => cases h; exact (State.deliver_clock (.inr hu)).trans rfl
    case h_3 => cases h
  · cases h

theorem State.keyboardPoint_clock {s t : State} (h : s.keyboardPoint = some t) : t.clock = s.clock := by
  unfold State.keyboardPoint at h
  split at h
  · cases h
  · split at h
    case h_1 u hu => cases h; exact (State.deliver_clock (.inl hu)).trans rfl
    case h_2 u hu => cases h; exact (State.deliver_clock (.inr hu)).trans rfl
    case h_3 => cases h

theorem State.beforeFetch_clock {s t : State} (h : s.beforeFetch = some t) : t.clock = s.clock := by
  unfold State.beforeFetch at h
  split at h
  case h_1 u hu => cases h; exact State.debugPoint_clock hu
  case h_2 => exact State.keyboardPoint_clock h

theorem State.timerPoint_clock (s : State) : s.timerPoint.clock = s.clock := by
  unfold State.timerPoint
  dsimp only
  split
  · rfl
  · split
    · split
      case h_1 u hu => exact (State.deliver_clock (.inl hu)).trans rfl
      case h_2 u hu => exact (State.deliver_clock (.inr hu)).trans rfl
      case h_3 => rfl
    · rfl

theorem State.endStep_clock (s : State) : s.endStep.clock = s.clock := by
  unfold State.endStep
  split
  · rfl
  · exact s.timerPoint_clock

/-- A halted CPU keeps the clock, and every other step has the clock the host left it at its start. -/
theorem step_clock {s t : State} (h : step s = .next t) : t.clock = s.clock ∨ t.clock = s.beginStep.clock := by
  rcases step_cases h with ⟨-, rfl⟩ | ⟨-, hpoint | ⟨-, ⟨e, -, hsettle⟩ | ⟨i, u, -, hexec, rfl⟩⟩⟩
  · exact .inl rfl
  · exact .inr (State.beforeFetch_clock hpoint)
  · exact .inr (State.settle_clock hsettle (.error _ e))
  · exact .inr (u.endStep_clock.trans (exec_clock hexec))

theorem step_clock_le {s t : State} (h : step s = .next t) : s.clock ≤ t.clock := by
  rcases step_clock h with hsame | hbegin
  · exact hsame.ge
  · exact hbegin ▸ s.beginStep_clock_le

/-- Settles O46: nothing scheduled, one scheduled arrival, and the clock over a step. -/
theorem hostArrivalsAppendAndTheClockRuns : Obligations.HostArrivalsAppendAndTheClockRuns := by
  intro s
  refine ⟨State.beginStep_quiet, fun a rest harrival => ?arrival, fun t => step_clock_le⟩
  case arrival =>
    obtain ⟨kb, d, ne, hbegin, hkeys, hnets⟩ := State.beginStep_shape harrival
    rw [hbegin]
    exact ⟨hkeys, hnets, rfl, rfl, rfl, ⟨rfl, rfl, rfl, rfl, rfl⟩, ⟨rfl, rfl⟩, ⟨rfl, rfl, rfl, rfl, rfl, rfl⟩,
      fun _ => rfl, rfl, rfl, rfl, rfl, rfl⟩

end Sys2Proof.Machine
end

section
/-! The disc operations of PERI (42 R128 to R131): the drive a number names, the conditions against a transfer, and the ends
of $DISCCHECK, $DISCREAD and $DISCWRITE. Settles O50, O51, O52 and O53. -/

namespace Sys2Proof.Machine

/-! ### Unit numbers (R128, R132) -/

theorem unitIndex_eq_some {n : Nat} {u : Word} {i : Fin n} (h : u.toNat = i + 1) : unitIndex n u = some i := by
  have hrange : 1 ≤ u.toNat ∧ u.toNat ≤ n := by omega
  rw [unitIndex, dif_pos hrange]
  exact congrArg some (Fin.ext (by simp only [h]; omega))

/-- A number below 1 is 0 or, read as unsigned, far above any unit. -/
theorem unitIndex_eq_none {n : Nat} {u : Word} (hn : n < 2 ^ 31) (h : u.toInt < 1 ∨ (n : Int) < u.toInt) :
    unitIndex n u = none := by
  refine dif_neg ?_
  rintro ⟨hlow, hhigh⟩
  have hsigned : u.toInt = u.toNat := BitVec.toInt_eq_toNat_of_lt (by omega)
  omega

theorem State.driveOf_eq_some {s : State} {d : Word} {i : Fin 8} {disc : Disc} (hd : d.toNat = i + 1)
    (hdisc : s.discs[i] = some disc) : s.driveOf d = some (i, disc) := by
  rw [State.driveOf, unitIndex_eq_some hd]
  simp only [hdisc, Option.map_some]

/-! ### What an operation that moves nothing leaves unchanged -/

/-- The state an operation of PERI leaves where it moves nothing. -/
def NothingMoved (s u : State) : Prop :=
  SameMemory s u ∧ SameRegisters s u ∧ SameFlags s u ∧ SameControl s u ∧ SameDevices s u ∧ u.pc = s.pc

/-- Free values used and answers of the host taken are no move. -/
theorem NothingMoved.of_draws_host (s : State) (n : Nat) (ho : HostOracle) :
    NothingMoved s { s with draws := n, host := ho } :=
  ⟨fun _ => rfl, ⟨rfl, rfl, rfl, rfl, rfl⟩, ⟨rfl, rfl⟩, ⟨rfl, rfl, rfl, rfl, rfl, rfl⟩,
    ⟨rfl, rfl, rfl, rfl, rfl, rfl, rfl, rfl⟩, rfl⟩

theorem PeriCall.refused {s : State} {rd : Reg} {op : Operand} {c : Word} {o : PeriOp} {r : Refusal}
    (h : PeriCall s rd op c o) (hr : runPeriOp o s c = .refuse r) :
    Sys2Proof.Machine.exec (.peri rd op) s = .refused r := by
  rw [h.exec, hr]

theorem PeriCall.ends_moving_nothing {s u : State} {rd : Reg} {op : Operand} {c result : Word} {o : PeriOp}
    (h : PeriCall s rd op c o) (hr : runPeriOp o s c = .done result u) (hu : NothingMoved s u) :
    ∃ v, PeriEnds s rd op result v ∧ NothingMoved s v :=
  ⟨u, h.ends hr, hu⟩

/-! ### $DISCCHECK (R129) -/

theorem State.control_one {s : State} {c w : Word} (h : s.readMem (c + 1) = .ok w) : s.control c 1 = some [w] := by
  simp only [State.control, State.readRun, State.periRead_ok h]

theorem discCheck_outside {s : State} {c d : Word} (hctl : s.control c 1 = some [d]) (hd : unitIndex 8 d = none) :
    discCheck s c = .done errDevNumber s := by
  simp only [discCheck, hctl, hd]

theorem discCheck_inside {s : State} {c d : Word} {i : Fin 8} (hctl : s.control c 1 = some [d])
    (hd : unitIndex 8 d = some i) :
    discCheck s c = .done ((s.discs[i]).elim 0 fun disc => BitVec.ofNat 32 disc.size) s := by
  simp only [discCheck, hctl, hd]
  cases s.discs[i] <;> rfl

/-- Settles O50: the drive number unreadable, out of range, and naming a drive that is there or is not. -/
theorem disccheckReportsTheSize : Obligations.DisccheckReportsTheSize := by
  intro s rd op c hcall
  refine ⟨fun hunread => hcall.ends ?unreadable, fun d hd => ⟨fun hrange => hcall.ends ?outside, fun i hi => ?inside⟩⟩
  case unreadable =>
    have hword : s.periRead (c + 1 + BitVec.ofNat 32 0) = none := by rw [BitVec.add_zero]; exact hunread
    exact runPeriOp_unreadable (by decide) (State.control_unreadable (by decide) hword)
  case outside => exact discCheck_outside (State.control_one hd) (unitIndex_eq_none (by decide) hrange)
  case inside =>
    have hsize := discCheck_inside (State.control_one hd) (unitIndex_eq_some hi)
    exact ⟨fun habsent => hcall.ends (by rw [runPeriOp, hsize, habsent]; rfl),
      fun disc hdisc => hcall.ends (by rw [runPeriOp, hsize, hdisc]; rfl)⟩

/-! ### The conditions against a disc transfer (R130, R131) -/

/-- The codes of the conditions on the drive and the blocks. -/
def driveCodes (drive : Option (Fin 8 × Disc)) (b k : Word) : List Word :=
  codeIf drive.isNone errDevNumber ++ codeIf (badBlocks drive b k) errPosition

theorem badBlocks_eq_false {x : Fin 8 × Disc} {b k : Word} (hb : 0 ≤ b.toInt) (hfits : b.toNat + k.toNat ≤ x.2.size) :
    badBlocks (some x) b k = false := by
  simp only [badBlocks, Bool.or_eq_false_iff, decide_eq_false_iff_not]
  omega

theorem driveCodes_plain {x : Fin 8 × Disc} {b k : Word} (hb : 0 ≤ b.toInt) (hfits : b.toNat + k.toNat ≤ x.2.size) :
    driveCodes (some x) b k = [] := by
  rw [driveCodes, badBlocks_eq_false hb hfits]; rfl

theorem driveCodes_noDrive {b k : Word} (hb : 0 ≤ b.toInt) : driveCodes none b k = [errDevNumber] := by
  have hbad : badBlocks none b k = false := by
    rw [badBlocks, Bool.or_false, decide_eq_false_iff_not]; omega
  rw [driveCodes, hbad]; rfl

theorem driveCodes_badBlock {x : Fin 8 × Disc} {b k : Word} (h : b.toInt < 0 ∨ x.2.size < b.toNat + k.toNat) :
    driveCodes (some x) b k = [errPosition] := by
  have hbad : badBlocks (some x) b k = true := by
    simpa only [badBlocks, Bool.or_eq_true, decide_eq_true_eq] using h
  rw [driveCodes, hbad]; rfl

/-- The host is asked to write only where nothing is against the drive and the blocks. -/
theorem driveCodes_ne_nil {drive : Option (Fin 8 × Disc)} {b k : Word} (h : driveCodes drive b k ≠ []) :
    (drive.isSome && !badBlocks drive b k) = false := by
  cases drive with
  | none => rfl
  | some x =>
    cases hbad : badBlocks (some x) b k with
    | true => rfl
    | false => exact absurd (by rw [driveCodes, hbad]; rfl) h

/-! ### $DISCREAD (R130) -/

theorem State.discWords_length (s : State) (content : Memory) (b n : Nat) : (s.discWords content b n).length = n := by
  rw [State.discWords, List.length_map, List.length_range]

/-- A word of the blocks that was written is among the words read, at its place. -/
theorem State.discWords_written (s : State) {content : Memory} {b n j : Nat} {w : Word} (hj : j < n)
    (hw : Memory.read content (128 * b + j) = some w) : (s.discWords content b n).getD j 0 = w := by
  rw [List.getD_eq_getElem _ _ (by rwa [State.discWords_length])]
  simp only [State.discWords, List.getElem_map, List.getElem_range, hw, Option.getD_some]

/-- A run of stores into a plain range is complete, its words are in memory, and nothing else has changed. -/
theorem PlainRange.storeRun {s : State} {a : Word} {n : Nat} {ws : List Word} (h : PlainRange s a n)
    (hlength : ws.length = n) :
    ∃ (m : Memory) (g : List Nat), s.storeRun a ws = ⟨{ s with mem := m, gateFrames := g }, n, true⟩ ∧
      (∀ j, j < n → ({ s with mem := m, gateFrames := g } : State).memWord (a.toNat + j) = ws.getD j 0) ∧
      ∀ b, (b < a.toNat ∨ a.toNat + n ≤ b) →
        ({ s with mem := m, gateFrames := g } : State).memWord b = s.memWord b := by
  subst hlength
  obtain ⟨g, hrun⟩ := State.storeRun_writeRun ws h
  exact ⟨_, g, hrun, s.memWord_writeRun a.toNat ws g⟩

theorem PlainRange.storeRun_complete {s : State} {a : Word} {n : Nat} {ws : List Word} (h : PlainRange s a n)
    (hlength : ws.length = n) : (s.storeRun a ws).complete = true := by
  obtain ⟨m, g, hrun, -⟩ := h.storeRun hlength
  rw [hrun]

theorem PlainRange.skip {s : State} {a : Word} {n : Nat} (h : PlainRange s a n) (k : Nat) : PlainRange (s.skip k) a n := h

theorem discRead_refused {s : State} {c d b k m : Word} (hctl : s.control c 4 = some [d, b, k, m])
    (hk : k.toInt ≤ 0) : discRead s c = .refuse .blockCount := by
  simp only [discRead, hctl, if_pos hk]

theorem discRead_done {s t : State} {c d b k m : Word} {x : Fin 8 × Disc} {n : Nat}
    (hctl : s.control c 4 = some [d, b, k, m]) (hk : 0 < k.toInt) (hdrive : s.driveOf d = some x)
    (hcodes : driveCodes (some x) b k = [])
    (hrun : (s.skip (128 * k.toNat)).storeRun m (s.discWords x.2.content b.toNat (128 * k.toNat)) = ⟨t, n, true⟩) :
    discRead s c = .done k t := by
  simp only [discRead, hctl, if_neg (Int.not_le.mpr hk), hdrive, hrun]
  rw [← driveCodes, hcodes]
  rfl

/-- One condition against the drive or the blocks gives its code, and nothing is stored. -/
theorem discRead_reports {s : State} {c d b k m code : Word} (hctl : s.control c 4 = some [d, b, k, m])
    (hk : 0 < k.toInt) (hplain : PlainRange s m (128 * k.toNat)) (hcodes : driveCodes (s.driveOf d) b k = [code])
    (hcode : code ≠ errMemory) : discRead s c = .done code ((s.skip (128 * k.toNat)).skip 1) := by
  simp only [discRead, hctl, if_neg (Int.not_le.mpr hk)]
  rw [← driveCodes, hcodes, (hplain.skip _).storeRun_complete (s.discWords_length _ _ _)]
  exact congrArg (PeriEnd.done code) (if_neg hcode)

/-! ### $DISCWRITE (R131) -/

theorem discWrite_refused {s : State} {c d b k m : Word} (hctl : s.control c 4 = some [d, b, k, m])
    (hk : k.toInt ≤ 0) : discWrite s c = .refuse .blockCount := by
  simp only [discWrite, hctl, if_pos hk]

theorem State.askDiscWrite_scheduled {s : State} {a : Bool} {rest : List Bool} (h : s.host.discWrites = a :: rest) :
    s.askDiscWrite = (a, { s with host := { s.host with discWrites := rest } }) := by
  rw [State.askDiscWrite, h]

/-- The `n` words of memory from `a` on. -/
def State.wordsAt (s : State) (a n : Nat) : List Word := (List.range n).map fun j => s.memWord (a + j)

theorem State.wordsAt_length (s : State) (a n : Nat) : (s.wordsAt a n).length = n := by
  rw [State.wordsAt, List.length_map, List.length_range]

theorem discWrite_done {s : State} {c d b k m : Word} {x : Fin 8 × Disc} {rest : List Bool}
    (hctl : s.control c 4 = some [d, b, k, m]) (hk : 0 < k.toInt) (hplain : PlainRange s m (128 * k.toNat))
    (hdrive : s.driveOf d = some x) (hb : 0 ≤ b.toInt) (hfits : b.toNat + k.toNat ≤ x.2.size)
    (hhost : s.host.discWrites = true :: rest) :
    discWrite s c = .done k (({ s with host := { s.host with discWrites := rest } } : State).setDisc x.1
      { x.2 with content :=
          Memory.writeRun x.2.content (128 * b.toNat) (s.wordsAt m.toNat (128 * k.toNat)) }) := by
  simp only [discWrite, hctl, if_neg (Int.not_le.mpr hk), hdrive, State.askDiscWrite_scheduled hhost,
    State.readRun_plain hplain]
  rw [← driveCodes, driveCodes_plain hb hfits, badBlocks_eq_false hb hfits]
  rfl

theorem discWrite_reports {s : State} {c d b k m code : Word} (hctl : s.control c 4 = some [d, b, k, m])
    (hk : 0 < k.toInt) (hplain : PlainRange s m (128 * k.toNat)) (hcodes : driveCodes (s.driveOf d) b k = [code])
    (hcode : code ≠ errMemory ∧ code ≠ errDevFailed) : discWrite s c = .done code (s.skip 1) := by
  have hask : s.askWhen ((s.driveOf d).isSome && !badBlocks (s.driveOf d) b k) s.askDiscWrite = (true, s) := by
    rw [driveCodes_ne_nil (by rw [hcodes]; exact List.cons_ne_nil _ _)]; rfl
  simp only [discWrite, hctl, if_neg (Int.not_le.mpr hk), hask, State.readRun_plain hplain]
  rw [← driveCodes, hcodes]
  cases s.driveOf d <;>
    exact congrArg (PeriEnd.done code) (if_neg fun h => h.1.elim hcode.1 hcode.2)

/-! ### The obligations -/

/-- Settles O51: the words of the blocks are a run of stores into the buffer. -/
theorem discreadCopiesTheBlocks : Obligations.DiscreadCopiesTheBlocks := by
  intro s rd op c d b k m i disc hcall hctl hd hdisc hk hb hfits hplain
  obtain ⟨mem, g, hrun, hinside, houtside⟩ := (hplain.skip (128 * k.toNat)).storeRun
    (s.discWords_length disc.content b.toNat (128 * k.toNat))
  exact ⟨_, hcall.ends (discRead_done hctl hk (State.driveOf_eq_some hd hdisc) (driveCodes_plain hb hfits) hrun),
    fun j hj w hw => (hinside j hj).trans (s.discWords_written hj hw), houtside, ⟨rfl, rfl, rfl, rfl, rfl⟩,
    ⟨rfl, rfl⟩, ⟨rfl, rfl, rfl, rfl, rfl, rfl⟩, ⟨rfl, rfl, rfl, rfl, rfl, rfl, rfl, rfl⟩, rfl⟩

/-- Settles O52: the buffer's words are a run of writes in the drive's content. -/
theorem discwriteFillsTheBlocks : Obligations.DiscwriteFillsTheBlocks := by
  intro s rd op c d b k m i disc rest hcall hctl hd hdisc hk hb hfits hplain hhost
  have hlength := s.wordsAt_length m.toNat (128 * k.toNat)
  refine ⟨_, _, hcall.ends (discWrite_done hctl hk hplain (State.driveOf_eq_some hd hdisc) hb hfits hhost), rfl, rfl,
    fun j hj => ?inside, fun a ha => ?outside, fun _ => rfl, ⟨rfl, rfl, rfl, rfl, rfl⟩, ⟨rfl, rfl⟩,
    ⟨rfl, rfl, rfl, rfl, rfl, rfl⟩, rfl, rfl, rfl, rfl, rfl, rfl⟩
  case inside =>
    rw [Memory.read_writeRun_inside _ _ (by rwa [hlength])]
    simp only [State.wordsAt, List.getElem_map, List.getElem_range]
  case outside => exact Memory.read_writeRun_other _ _ (by rw [hlength]; omega)

/-- Settles O53: $DISCREAD and $DISCWRITE with a count of 0 or less, without a drive, and with a block out of the drive. -/
theorem badDiscRequestsMoveNothing : Obligations.BadDiscRequestsMoveNothing := by
  intro s rd op c d b k m o ho hcall hctl
  have hrefused : k.toInt ≤ 0 → runPeriOp o s c = .refuse .blockCount := fun hk => by
    rcases ho with rfl | rfl
    · exact discRead_refused hctl hk
    · exact discWrite_refused hctl hk
  have hreports : ∀ code, code ≠ errMemory ∧ code ≠ errDevFailed → driveCodes (s.driveOf d) b k = [code] →
      0 < k.toInt → PlainRange s m (128 * k.toNat) → ∃ u, PeriEnds s rd op code u ∧ NothingMoved s u := by
    intro code hcode hcodes hk hplain
    rcases ho with rfl | rfl
    · exact hcall.ends_moving_nothing (discRead_reports hctl hk hplain hcodes hcode.1) (.of_draws_host s _ _)
    · exact hcall.ends_moving_nothing (discWrite_reports hctl hk hplain hcodes hcode) (.of_draws_host s _ _)
  refine ⟨fun hk => hcall.refused (hrefused hk), fun hk hplain =>
    ⟨fun hb hdrive => ?noDrive, fun x hdrive hbad => ?badBlock⟩⟩
  case noDrive => exact hreports errDevNumber (by decide) (by rw [hdrive, driveCodes_noDrive hb]) hk hplain
  case badBlock => exact hreports errPosition (by decide) (by rw [hdrive, driveCodes_badBlock hbad]) hk hplain

end Sys2Proof.Machine
end

section
/-! The magnetic tape operations of PERI that load and unload (42 R132 to R136): the tape a unit number names, the error codes
of $TAPELOAD, and the ends of $TAPECHECK, $TAPEREWIND, $TAPEUNLOAD and $TAPELOAD. Settles O54. -/

namespace Sys2Proof.Machine

/-! ### The tape of a unit number (R132) -/

theorem State.tapeOf_inside (s : State) {u : Word} {i : Fin 8} (hu : u.toNat = i + 1) :
    s.tapeOf u = (s.tapes[i]).map (fun t => (i, t)) := by
  rw [State.tapeOf, unitIndex_eq_some hu]

theorem State.tapeOf_loaded {s : State} {u : Word} {i : Fin 8} {t : Tape} (hu : u.toNat = i + 1)
    (ht : s.tapes[i] = some t) : s.tapeOf u = some (i, t) := by
  rw [s.tapeOf_inside hu, ht]; rfl

theorem State.tapeOf_unloaded {s : State} {u : Word} {i : Fin 8} (hu : u.toNat = i + 1) (ht : s.tapes[i] = none) :
    s.tapeOf u = none := by
  rw [s.tapeOf_inside hu, ht]; rfl

theorem State.tapeOf_outside (s : State) {u : Word} (hu : unitIndex 8 u = none) : s.tapeOf u = none := by
  rw [State.tapeOf, hu]

theorem unitIndex_eight_eq_none {u : Word} (h : u.toInt < 1 ∨ 8 < u.toInt) : unitIndex 8 u = none :=
  unitIndex_eq_none (by decide) h

/-! ### $TAPECHECK, $TAPEREWIND and $TAPEUNLOAD (R133, R134, R136) -/

theorem tapeCheck_outside {s : State} {c u : Word} (hctl : s.control c 1 = some [u]) (hu : unitIndex 8 u = none) :
    tapeCheck s c = .done errDevNumber s := by
  simp only [tapeCheck, hctl, hu]

theorem tapeCheck_inside {s : State} {c u : Word} {i : Fin 8} (hctl : s.control c 1 = some [u])
    (hu : unitIndex 8 u = some i) :
    tapeCheck s c = .done ((s.tapes[i]).elim 0 fun t => tapeLetter t.mode) s := by
  simp only [tapeCheck, hctl, hu]
  cases s.tapes[i] <;> rfl

theorem tapeLetter_eq (md : TapeMode) : tapeLetter md = if md = .read then 82 else 87 := by
  cases md <;> rfl

theorem tapeRewind_noTape {s : State} {c u : Word} (hctl : s.control c 1 = some [u]) (hu : s.tapeOf u = none) :
    tapeRewind s c = .done errDevNumber s := by
  simp only [tapeRewind, hctl, hu]

theorem tapeRewind_tape {s : State} {c u : Word} {x : Fin 8 × Tape} (hctl : s.control c 1 = some [u])
    (hu : s.tapeOf u = some x) : tapeRewind s c = .done 1 (s.setTape x.1 (some { x.2 with pos := 0 })) := by
  simp only [tapeRewind, hctl, hu]

theorem tapeUnload_outside {s : State} {c u : Word} (hctl : s.control c 1 = some [u]) (hu : unitIndex 8 u = none) :
    tapeUnload s c = .done errDevNumber s := by
  simp only [tapeUnload, hctl, hu]

theorem tapeUnload_unloaded {s : State} {c u : Word} {i : Fin 8} (hctl : s.control c 1 = some [u])
    (hu : unitIndex 8 u = some i) (ht : s.tapes[i] = none) : tapeUnload s c = .done errNotFound s := by
  simp only [tapeUnload, hctl, hu, ht]

theorem tapeUnload_loaded {s : State} {c u : Word} {i : Fin 8} {t : Tape} (hctl : s.control c 1 = some [u])
    (hu : unitIndex 8 u = some i) (ht : s.tapes[i] = some t) : tapeUnload s c = .done 1 (s.setTape i none) := by
  simp only [tapeUnload, hctl, hu, ht]

/-- A unit number out of 1 to 8 gives −3 to each of the three. -/
theorem tapeUnit_outside {s : State} {c u : Word} {o : PeriOp} (ho : o ∈ [PeriOp.tapeCheck, .tapeRewind, .tapeUnload])
    (hctl : s.control c 1 = some [u]) (hu : unitIndex 8 u = none) : runPeriOp o s c = .done errDevNumber s := by
  simp only [List.mem_cons, List.not_mem_nil, or_false] at ho
  rcases ho with rfl | rfl | rfl
  · exact tapeCheck_outside hctl hu
  · exact tapeRewind_noTape hctl (s.tapeOf_outside hu)
  · exact tapeUnload_outside hctl hu

/-! ### The choice of an error code (R127, 92 D35) -/

theorem State.pickCode_mem (s : State) {codes : List Word} (h : codes ≠ []) : s.pickCode codes ∈ codes := by
  unfold State.pickCode
  split
  · exact List.mem_singleton_self _
  · have hlt : s.free.toNat % codes.length < codes.length := Nat.mod_lt _ (List.length_pos_iff.mpr h)
    rw [List.getD_eq_getElem _ _ hlt]
    exact List.getElem_mem hlt

/-! ### $TAPELOAD (R135) -/

theorem State.askTapeOpen_scheduled {s : State} {a : Option (List Byte)} {rest : List (Option (List Byte))}
    (h : s.host.tapeOpens = a :: rest) :
    s.askTapeOpen = (a, { s with host := { s.host with tapeOpens := rest } }) := by
  rw [State.askTapeOpen, h]

/-- A name in memory is scanned whole: it is shorter than the address space. -/
theorem StringAt.scan {s : State} {a : Word} {bs : List Byte} (h : StringAt s a bs) :
    s.scanString addressSpace a = (bs, .zero) := by
  refine State.scanString_stringAt h ?_
  obtain ⟨⟨-, -, hspace⟩, -, -⟩ := h
  rw [addressSpace]
  omega

theorem tapeModeOf_eq_some {mode : Word} {md : TapeMode} (h : mode = 82 ∧ md = .read ∨ mode = 87 ∧ md = .write) :
    tapeModeOf mode = some md := by
  rcases h with ⟨rfl, rfl⟩ | ⟨rfl, rfl⟩ <;> rfl

theorem tapeModeOf_isNone_eq_false {mode : Word} (h : mode = 82 ∨ mode = 87) : (tapeModeOf mode).isNone = false := by
  rcases h with rfl | rfl <;> rfl

theorem tapeModeOf_eq_none {mode : Word} (hread : mode ≠ 82) (hwrite : mode ≠ 87) : tapeModeOf mode = none := by
  rw [tapeModeOf, if_neg hread, if_neg hwrite]

/-- The codes of $TAPELOAD of a unit that is not loaded, with a name that could be read. -/
def tapeLoadCodes (unit : Option (Fin 8)) (mode : Word) (answer : Option (List Byte)) : List Word :=
  codeIf unit.isNone errDevNumber ++ codeIf (tapeModeOf mode).isNone errBadParam ++ codeIf answer.isNone errNotFound

theorem tapeLoad_refused {s : State} {c u name mode : Word} (hctl : s.control c 3 = some [u, name, mode])
    (hu : (s.tapeOf u).isSome) : tapeLoad s c = .refuse .tapeAlreadyLoaded := by
  simp only [tapeLoad, hctl, if_pos hu]

theorem tapeLoad_done {s : State} {c u name mode : Word} {i : Fin 8} {md : TapeMode} {file bytes : List Byte}
    {rest : List (Option (List Byte))} (hctl : s.control c 3 = some [u, name, mode]) (hfile : StringAt s name file)
    (hhost : s.host.tapeOpens = some bytes :: rest) (hunloaded : s.tapeOf u = none) (hu : unitIndex 8 u = some i)
    (hmode : tapeModeOf mode = some md) :
    tapeLoad s c = .done 1 (({ s with host := { s.host with tapeOpens := rest } } : State).setTape i
      (some { file := file, mode := md, data := bytes, pos := 0 })) := by
  simp only [tapeLoad, hctl, hunloaded, hfile.scan, State.askTapeOpen_scheduled hhost, hu, hmode]
  rfl

/-- With a code against it $TAPELOAD loads nothing. -/
theorem tapeLoad_reports {s : State} {c u name mode : Word} {file : List Byte} {answer : Option (List Byte)}
    {rest : List (Option (List Byte))} (hctl : s.control c 3 = some [u, name, mode]) (hfile : StringAt s name file)
    (hhost : s.host.tapeOpens = answer :: rest) (hunloaded : s.tapeOf u = none)
    (hcodes : tapeLoadCodes (unitIndex 8 u) mode answer ≠ []) :
    ∃ v, tapeLoad s c = .done (s.pickCode (tapeLoadCodes (unitIndex 8 u) mode answer)) v ∧ NothingMoved s v := by
  refine ⟨({ s with host := { s.host with tapeOpens := rest } } : State).skip 1, ?_, .of_draws_host s _ _⟩
  have hnoMemory : codeIf (ScanEnd.zero == .memory) errMemory = [] := rfl
  have hasked : (ScanEnd.zero == .zero && answer.isNone) = answer.isNone := Bool.true_and _
  simp only [tapeLoad, hctl, hunloaded, hfile.scan, State.askTapeOpen_scheduled hhost, hnoMemory, hasked,
    List.append_nil, Option.isSome_none, Bool.false_eq_true, if_false]
  rw [← tapeLoadCodes]
  split
  · exact absurd ‹_› hcodes
  · rfl

/-- One code against it: $TAPELOAD reports that code. -/
theorem PeriCall.tapeLoad_reports_code {s : State} {rd : Reg} {op : Operand} {c u name mode code : Word}
    {file : List Byte} {answer : Option (List Byte)} {rest : List (Option (List Byte))}
    (hcall : PeriCall s rd op c .tapeLoad) (hctl : s.control c 3 = some [u, name, mode]) (hfile : StringAt s name file)
    (hhost : s.host.tapeOpens = answer :: rest) (hunloaded : s.tapeOf u = none)
    (hcodes : tapeLoadCodes (unitIndex 8 u) mode answer = [code]) :
    ∃ v, PeriEnds s rd op code v ∧ NothingMoved s v := by
  obtain ⟨v, hdone, hv⟩ := tapeLoad_reports hctl hfile hhost hunloaded (by rw [hcodes]; exact List.cons_ne_nil _ _)
  rw [hcodes] at hdone
  exact ⟨v, hcall.ends hdone, hv⟩

/-- A mode that is neither reading nor writing stands alone against it, or beside a file the host does not open. -/
theorem PeriCall.tapeLoad_reports_mode {s : State} {rd : Reg} {op : Operand} {c u name mode : Word} {i : Fin 8}
    {file : List Byte} {answer : Option (List Byte)} {rest : List (Option (List Byte))}
    (hcall : PeriCall s rd op c .tapeLoad) (hctl : s.control c 3 = some [u, name, mode]) (hfile : StringAt s name file)
    (hhost : s.host.tapeOpens = answer :: rest) (hunloaded : s.tapeOf u = none) (hu : unitIndex 8 u = some i)
    (hmode : tapeModeOf mode = none) :
    ∃ (v : State) (code : Word), PeriEnds s rd op code v ∧ (code = -8 ∨ (code = -7 ∧ answer = none)) ∧
      NothingMoved s v := by
  have hcodes : tapeLoadCodes (unitIndex 8 u) mode answer = errBadParam :: codeIf answer.isNone errNotFound := by
    rw [tapeLoadCodes, hu, hmode]; rfl
  have hne : tapeLoadCodes (unitIndex 8 u) mode answer ≠ [] := by rw [hcodes]; exact List.cons_ne_nil _ _
  obtain ⟨v, hdone, hv⟩ := tapeLoad_reports hctl hfile hhost hunloaded hne
  refine ⟨v, _, hcall.ends hdone, ?code, hv⟩
  have hmem := s.pickCode_mem hne
  rw [hcodes] at hmem ⊢
  rcases List.mem_cons.mp hmem with hbad | hnotFound
  · exact .inl hbad
  · cases answer with
    | some bytes => cases hnotFound
    | none => exact .inr ⟨List.mem_singleton.mp hnotFound, rfl⟩

/-! ### The obligation -/

/-- Settles O54: the three operations on a unit number out of range, on an unloaded and on a loaded unit; then $TAPELOAD of a
loaded unit, of an unloaded one with each outcome, and of a number out of range. -/
theorem tapeCheckLoadRewindUnload : Obligations.TapeCheckLoadRewindUnload := by
  refine ⟨fun s rd op c u hctl => ⟨fun o ho hrange hcall => ?outside, fun i hu ht => ?unloaded, fun i t hu ht => ?loaded⟩,
    fun s rd op c u name mode file answer rest hcall hctl hfile hhost => ⟨fun i hu ht => ?again, fun i hu ht => ?load,
      fun hrange hopened hmode => ?noUnit⟩⟩
  case outside => exact hcall.ends (tapeUnit_outside ho hctl (unitIndex_eight_eq_none hrange))
  case unloaded =>
    have hindex := unitIndex_eq_some hu
    exact ⟨fun hcall => hcall.ends (by rw [runPeriOp, tapeCheck_inside hctl hindex, ht]; rfl),
      fun hcall => hcall.ends (tapeRewind_noTape hctl (State.tapeOf_unloaded hu ht)),
      fun hcall => hcall.ends (tapeUnload_unloaded hctl hindex ht)⟩
  case loaded =>
    have hindex := unitIndex_eq_some hu
    exact ⟨fun hcall => hcall.ends (by rw [runPeriOp, tapeCheck_inside hctl hindex, ht, ← tapeLetter_eq]; rfl),
      fun hcall => hcall.ends (tapeRewind_tape hctl (State.tapeOf_loaded hu ht)),
      fun hcall => hcall.ends (tapeUnload_loaded hctl hindex ht)⟩
  case again =>
    obtain ⟨t, hloaded⟩ := Option.ne_none_iff_exists'.mp ht
    exact hcall.refused (tapeLoad_refused hctl (by rw [State.tapeOf_loaded hu hloaded]; rfl))
  case load =>
    have hindex := unitIndex_eq_some hu
    have hunloaded := State.tapeOf_unloaded hu ht
    refine ⟨fun bytes md hanswer hmode => ?opened, fun hanswer hmode => ?notFound, fun hread hwrite => ?badMode⟩
    case opened =>
      subst hanswer
      exact hcall.ends (tapeLoad_done hctl hfile hhost hunloaded hindex (tapeModeOf_eq_some hmode))
    case notFound =>
      subst hanswer
      exact hcall.tapeLoad_reports_code hctl hfile hhost hunloaded
        (by rw [tapeLoadCodes, hindex, tapeModeOf_isNone_eq_false hmode]; rfl)
    case badMode =>
      exact hcall.tapeLoad_reports_mode hctl hfile hhost hunloaded hindex (tapeModeOf_eq_none hread hwrite)
  case noUnit =>
    have houtside := unitIndex_eight_eq_none hrange
    obtain ⟨bytes, rfl⟩ := Option.ne_none_iff_exists'.mp hopened
    exact hcall.tapeLoad_reports_code hctl hfile hhost (s.tapeOf_outside houtside)
      (by rw [tapeLoadCodes, houtside, tapeModeOf_isNone_eq_false hmode]; rfl)

end Sys2Proof.Machine
end

section
/-! The transfers of the magnetic tape (42 R137, R138): the next block of a tape as words and as bytes of memory, the bytes of
memory as a block of a tape, and the ends of $TAPEREAD and $TAPEWRITE. Settles O55. -/

namespace Sys2Proof.Machine

/-! ### The next block (R137) -/

/-- The bytes left on a tape, at most 512. -/
def Tape.nextBlock (t : Tape) : List Byte := (t.data.drop t.pos).take 512

theorem Tape.nextBlock_length (t : Tape) : t.nextBlock.length = min 512 (t.data.length - t.pos) := by
  rw [Tape.nextBlock, List.length_take, List.length_drop]

theorem Tape.nextBlock_getD (t : Tape) {j : Nat} (hj : j < t.nextBlock.length) :
    t.nextBlock.getD j 0 = t.data.getD (t.pos + j) 0 := by
  have hlength := t.nextBlock_length
  have hdata : t.pos + j < t.data.length := by omega
  rw [List.getD_eq_getElem _ _ hj, List.getD_eq_getElem _ _ hdata]
  simp only [Tape.nextBlock, List.getElem_take, List.getElem_drop]

/-- The filled block takes up the words that the bytes need. -/
theorem packBytes_fillWord_length (bs : List Byte) (fill : Word) :
    (packBytes (fillWord bs fill)).length = (bs.length + 3) / 4 := by
  simp only [packBytes_length, fillWord, List.length_append, List.length_take, unpackWord_length]
  omega

theorem packBytes_fillWord_byte (bs : List Byte) (fill : Word) {j : Nat} (hj : j < bs.length) :
    ((packBytes (fillWord bs fill)).getD (j / 4) 0).extractLsb' (8 * (j % 4)) 8 = bs.getD j 0 := by
  have hfilled : j < (fillWord bs fill).length := by
    rw [fillWord, List.length_append]; omega
  rw [packBytes_byte _ (by omega), fillWord, List.getD_append _ _ _ _ hj]

/-! ### $TAPEREAD (R137) -/

theorem tapeRead_noTape {s : State} {c u m : Word} (hctl : s.control c 2 = some [u, m]) (hu : s.tapeOf u = none) :
    tapeRead s c = .done errDevNumber s := by
  simp only [tapeRead, hctl, hu]

theorem tapeRead_writing {s : State} {c u m : Word} {x : Fin 8 × Tape} (hctl : s.control c 2 = some [u, m])
    (hu : s.tapeOf u = some x) (hmode : x.2.mode = .write)
    (hplain : PlainRange s m ((x.2.nextBlock.length + 3) / 4)) : tapeRead s c = .done errDevNumber (s.skip 1) := by
  have hcomplete := (hplain.skip 1).storeRun_complete (packBytes_fillWord_length x.2.nextBlock s.free)
  rw [Tape.nextBlock] at hcomplete
  simp only [tapeRead, hctl, hu, hmode, hcomplete]
  rfl

theorem tapeRead_atEnd {s : State} {c u m : Word} {x : Fin 8 × Tape} (hctl : s.control c 2 = some [u, m])
    (hu : s.tapeOf u = some x) (hmode : x.2.mode = .read) (hempty : x.2.nextBlock = []) : tapeRead s c = .done 0 s := by
  rw [Tape.nextBlock] at hempty
  simp only [tapeRead, hctl, hu, hmode, hempty]
  rfl

theorem tapeRead_done {s t : State} {c u m : Word} {x : Fin 8 × Tape} {n : Nat} (hctl : s.control c 2 = some [u, m])
    (hu : s.tapeOf u = some x) (hmode : x.2.mode = .read) (hblock : x.2.nextBlock ≠ [])
    (hrun : (s.skip 1).storeRun m (packBytes (fillWord x.2.nextBlock s.free)) = ⟨t, n, true⟩) :
    tapeRead s c = .done (BitVec.ofNat 32 x.2.nextBlock.length)
      (t.setTape x.1 (some { x.2 with pos := x.2.pos + x.2.nextBlock.length })) := by
  rw [Tape.nextBlock] at hrun hblock ⊢
  simp only [tapeRead, hctl, hu, hmode, hrun]
  exact if_neg fun h => hblock (List.isEmpty_iff.mp h)

/-! ### $TAPEWRITE (R138) -/

/-- `v` is `s` with tape `t` in unit `i`, but for the model's own fields. -/
def TapeReplaced (s v : State) (i : Fin 8) (t : Tape) : Prop :=
  v.tapes = s.tapes.set i (some t) ∧ SameMemory s v ∧ SameRegisters s v ∧ SameFlags s v ∧ SameControl s v ∧
    v.discs = s.discs ∧ v.nets = s.nets ∧ v.kbuf = s.kbuf ∧ v.screen = s.screen ∧ v.pc = s.pc

theorem TapeReplaced.setTape (s : State) (n : Nat) (ho : HostOracle) (i : Fin 8) (t : Tape) :
    TapeReplaced s (({ s with draws := n, host := ho } : State).setTape i (some t)) i t :=
  ⟨rfl, fun _ => rfl, ⟨rfl, rfl, rfl, rfl, rfl⟩, ⟨rfl, rfl⟩, ⟨rfl, rfl, rfl, rfl, rfl, rfl⟩, rfl, rfl, rfl, rfl, rfl⟩

/-- A unit that is not loaded for writing has no tape to write to. -/
theorem State.writableTape_eq_none {s : State} {u : Word}
    (h : u.toInt < 1 ∨ 8 < u.toInt ∨ ∃ i : Fin 8, u.toNat = i + 1 ∧ ∀ t, s.tapes[i] = some t → t.mode = .read) :
    (s.tapeOf u).filter (fun x => decide (x.2.mode = .write)) = none := by
  have houtside : (u.toInt < 1 ∨ 8 < u.toInt) → s.tapeOf u = none := fun hrange =>
    s.tapeOf_outside (unitIndex_eight_eq_none hrange)
  rcases h with hlow | hhigh | ⟨i, hu, hread⟩
  · rw [houtside (.inl hlow)]; rfl
  · rw [houtside (.inr hhigh)]; rfl
  · rw [s.tapeOf_inside hu]
    cases ht : s.tapes[i] with
    | none => rfl
    | some t => simp [hread t ht]

theorem State.writableTape_eq_some {s : State} {u : Word} {i : Fin 8} {t : Tape} (hu : u.toNat = i + 1)
    (ht : s.tapes[i] = some t) (hmode : t.mode = .write) :
    (s.tapeOf u).filter (fun x => decide (x.2.mode = .write)) = some (i, t) := by
  rw [State.tapeOf_loaded hu ht]
  simp [hmode]

/-- The state after the host's answer to a tape write, with the answers still to come. -/
def State.afterTapeWrite (s : State) (rest : List Bool) : State := { s with host := { s.host with tapeWrites := rest } }

theorem State.askTapeWrite_scheduled {s : State} {a : Bool} {rest : List Bool} (h : s.host.tapeWrites = a :: rest) :
    s.askTapeWrite = (a, s.afterTapeWrite rest) := by
  rw [State.askTapeWrite, h]; rfl

/-- A write that failed part way leaves another tape of the same file and mode in the unit. -/
theorem State.spoilTape_replaced (s : State) (k : Nat) (x : Fin 8 × Tape) (n : Nat) :
    ∃ t', TapeReplaced s ((s.skip k).spoilTape x n) x.1 t' ∧ t'.mode = x.2.mode ∧ t'.file = x.2.file :=
  ⟨_, .setTape s (s.draws + k + (n + 2)) s.host x.1 _, rfl, rfl⟩

/-- The `n` bytes packed from physical address `a` on. -/
def State.bytesAt (s : State) (a n : Nat) : List Byte := (unpackBytes (s.wordsAt a ((n + 3) / 4))).take n

theorem State.bytesAt_length (s : State) (a n : Nat) : (s.bytesAt a n).length = n := by
  rw [State.bytesAt, List.length_take, unpackBytes_length, State.wordsAt_length]
  omega

theorem State.bytesAt_getElem? (s : State) (a : Word) {n j : Nat} (hj : j < n) :
    (s.bytesAt a.toNat n)[j]? = some (s.byteAt a j) := by
  have hword : j / 4 < (s.wordsAt a.toNat ((n + 3) / 4)).length := by rw [State.wordsAt_length]; omega
  have hbyte : j < (unpackBytes (s.wordsAt a.toNat ((n + 3) / 4))).length := by rw [unpackBytes_length]; omega
  rw [State.bytesAt, List.getElem?_take_of_lt hj, List.getElem?_eq_getElem hbyte, ← List.getD_eq_getElem _ 0 hbyte,
    unpackBytes_byte, List.getD_eq_getElem _ _ hword]
  simp only [State.wordsAt, List.getElem_map, List.getElem_range, State.byteAt]

/-- The bytes put into a tape lie at its position. -/
theorem putBytes_data_inside {t : Tape} {bs : List Byte} (ht : t.pos ≤ t.data.length) {j : Nat} (hj : j < bs.length) :
    (putBytes t bs).data[t.pos + j]? = bs[j]? := by
  have hbefore : (t.data.take t.pos).length = t.pos := List.length_take_of_le ht
  rw [putBytes, List.append_assoc, List.getElem?_append_right (by omega), List.getElem?_append_left (by omega)]
  congr 1
  omega

/-- Every other byte of the tape is as before. -/
theorem putBytes_data_outside {t : Tape} {bs : List Byte} (ht : t.pos ≤ t.data.length) {j : Nat}
    (hj : j < t.pos ∨ t.pos + bs.length ≤ j) : (putBytes t bs).data[j]? = t.data[j]? := by
  have hbefore : (t.data.take t.pos).length = t.pos := List.length_take_of_le ht
  rw [putBytes, List.append_assoc]
  rcases hj with hlow | hhigh
  · rw [List.getElem?_append_left (by omega), List.getElem?_take_of_lt hlow]
  · rw [List.getElem?_append_right (by omega), List.getElem?_append_right (by omega), List.getElem?_drop]
    congr 1
    omega

theorem tapeWrite_refused {s : State} {c u m n : Word} (hctl : s.control c 3 = some [u, m, n])
    (hn : n.toInt ≤ 0 ∨ 512 < n.toInt) : tapeWrite s c = .refuse .byteCount := by
  simp only [tapeWrite, hctl, if_pos hn]

theorem tapeWrite_noTape {s : State} {c u m n : Word} (hctl : s.control c 3 = some [u, m, n])
    (hn : ¬ (n.toInt ≤ 0 ∨ 512 < n.toInt)) (hplain : PlainRange s m ((n.toNat + 3) / 4))
    (hu : (s.tapeOf u).filter (fun x => decide (x.2.mode = .write)) = none) :
    tapeWrite s c = .done errDevNumber (s.skip 1) := by
  simp only [tapeWrite, hctl, if_neg hn, hu, wordsFor, State.readRun_plain hplain]
  rfl

theorem tapeWrite_done {s : State} {c u m n : Word} {x : Fin 8 × Tape} {rest : List Bool}
    (hctl : s.control c 3 = some [u, m, n]) (hn : ¬ (n.toInt ≤ 0 ∨ 512 < n.toInt))
    (hplain : PlainRange s m ((n.toNat + 3) / 4))
    (hu : (s.tapeOf u).filter (fun x => decide (x.2.mode = .write)) = some x) (hhost : s.host.tapeWrites = true :: rest) :
    tapeWrite s c =
      .done n ((s.afterTapeWrite rest).setTape x.1 (some (putBytes x.2 (s.bytesAt m.toNat n.toNat)))) := by
  simp only [tapeWrite, hctl, if_neg hn, hu, wordsFor, State.readRun_plain hplain, State.askTapeWrite_scheduled hhost]
  rfl

theorem tapeWrite_fails {s : State} {c u m n : Word} {x : Fin 8 × Tape} {rest : List Bool}
    (hctl : s.control c 3 = some [u, m, n]) (hn : ¬ (n.toInt ≤ 0 ∨ 512 < n.toInt))
    (hplain : PlainRange s m ((n.toNat + 3) / 4))
    (hu : (s.tapeOf u).filter (fun x => decide (x.2.mode = .write)) = some x) (hhost : s.host.tapeWrites = false :: rest) :
    tapeWrite s c = .done errDevFailed (((s.afterTapeWrite rest).skip 1).spoilTape x n.toNat) := by
  simp only [tapeWrite, hctl, if_neg hn, hu, wordsFor, State.readRun_plain hplain, State.askTapeWrite_scheduled hhost]
  rfl

/-! ### A block stored, a block written, and the obligation -/

/-- A block that $TAPEREAD finds on the tape: its words are a run of stores and its bytes are the tape's. -/
theorem PeriCall.tapeRead_stores {s : State} {rd : Reg} {op : Operand} {c u m : Word} {i : Fin 8} {t : Tape} {n : Nat}
    (hcall : PeriCall s rd op c .tapeRead) (hctl : s.control c 2 = some [u, m]) (hu : s.tapeOf u = some (i, t))
    (hn : t.nextBlock.length = n) (hplain : PlainRange s m ((n + 3) / 4)) (hmode : t.mode = .read) (hpos : 0 < n) :
    ∃ v, PeriEnds s rd op (BitVec.ofNat 32 n) v ∧
      (∀ j : Nat, j < n → v.byteAt m j = t.data.getD (t.pos + j) 0) ∧
      (∀ a : Nat, (a < m.toNat ∨ m.toNat + (n + 3) / 4 ≤ a) → v.memWord a = s.memWord a) ∧
      v.tapes = s.tapes.set i (some { t with pos := t.pos + n }) ∧ SameRegisters s v ∧ SameFlags s v ∧
      SameControl s v ∧ v.discs = s.discs ∧ v.nets = s.nets ∧ v.kbuf = s.kbuf ∧ v.screen = s.screen ∧
      v.pc = s.pc := by
  subst hn
  obtain ⟨mem, g, hrun, hinside, houtside⟩ :=
    (hplain.skip 1).storeRun (packBytes_fillWord_length t.nextBlock s.free)
  have hblock : t.nextBlock ≠ [] := List.length_pos_iff.mp hpos
  refine ⟨_, hcall.ends (tapeRead_done hctl hu hmode hblock hrun), fun j hj => ?bytes, houtside, rfl,
    ⟨rfl, rfl, rfl, rfl, rfl⟩, ⟨rfl, rfl⟩, ⟨rfl, rfl, rfl, rfl, rfl, rfl⟩, rfl, rfl, rfl, rfl, rfl⟩
  case bytes =>
    have hword := hinside (j / 4) (by omega)
    exact (congrArg (BitVec.extractLsb' (8 * (j % 4)) 8) hword).trans
      ((packBytes_fillWord_byte t.nextBlock s.free hj).trans (t.nextBlock_getD hj))

/-- $TAPEWRITE to a tape loaded for writing: the host's write succeeds or fails, and either changes that tape alone. -/
theorem PeriCall.tapeWrite_writes {s : State} {rd : Reg} {op : Operand} {c u m n : Word} {i : Fin 8} {t : Tape}
    {answer : Bool} {rest : List Bool} (hcall : PeriCall s rd op c .tapeWrite)
    (hctl : s.control c 3 = some [u, m, n]) (hn : ¬ (n.toInt ≤ 0 ∨ 512 < n.toInt))
    (hplain : PlainRange s m ((n.toNat + 3) / 4)) (hu : u.toNat = i + 1) (ht : s.tapes[i] = some t)
    (hmode : t.mode = .write) (hpos : t.pos ≤ t.data.length) (hhost : s.host.tapeWrites = answer :: rest) :
    ∃ (v : State) (t' : Tape), TapeReplaced s v i t' ∧ t'.mode = .write ∧ t'.file = t.file ∧
      (answer = false → PeriEnds s rd op (-6) v) ∧
      (answer = true → PeriEnds s rd op n v ∧ t'.pos = t.pos + n.toNat ∧
        (∀ j : Nat, j < n.toNat → t'.data[t.pos + j]? = some (s.byteAt m j)) ∧
        ∀ j : Nat, (j < t.pos ∨ t.pos + n.toNat ≤ j) → t'.data[j]? = t.data[j]?) := by
  have htape := State.writableTape_eq_some hu ht hmode
  have hlength := s.bytesAt_length m.toNat n.toNat
  cases answer with
  | false =>
    obtain ⟨t', hreplaced, hmode', hfile⟩ := (s.afterTapeWrite rest).spoilTape_replaced 1 (i, t) n.toNat
    exact ⟨_, t', hreplaced, hmode'.trans hmode, hfile, fun _ =>
      hcall.ends (tapeWrite_fails hctl hn hplain htape hhost), nofun⟩
  | true =>
    refine ⟨_, putBytes t (s.bytesAt m.toNat n.toNat), .setTape s s.draws _ i _, hmode, rfl, nofun, fun _ =>
      ⟨hcall.ends (tapeWrite_done hctl hn hplain htape hhost), congrArg (t.pos + ·) hlength, fun j hj => ?inside,
        fun j hj => ?outside⟩⟩
    case inside => rw [putBytes_data_inside hpos (by omega), s.bytesAt_getElem? m hj]
    case outside => exact putBytes_data_outside hpos (by omega)

/-- Settles O55: $TAPEREAD without a tape and with one, then $TAPEWRITE refused, without a tape and with one. -/
theorem tapereadAndTapewriteMoveTheNextBlock : Obligations.TapereadAndTapewriteMoveTheNextBlock := by
  refine ⟨fun s rd op c u m hcall hctl hunit => ?noTape,
    fun s rd op c u m i t n hcall hctl hu ht hn hplain => ⟨fun hmode => ?writing, fun hmode hzero => ?atEnd,
      fun hmode hpos => ?stores⟩,
    fun s rd op c u m n hcall hctl => ⟨fun hn => hcall.refused (tapeWrite_refused hctl hn), fun hlow hhigh hplain =>
      ⟨fun hunit => ?notWritable, fun i t answer rest hu ht hmode hpos hhost => ?writes⟩⟩⟩
  case noTape =>
    have hnone : s.tapeOf u = none := by
      rcases hunit with hlow | hhigh | ⟨i, hu, ht⟩
      · exact s.tapeOf_outside (unitIndex_eight_eq_none (.inl hlow))
      · exact s.tapeOf_outside (unitIndex_eight_eq_none (.inr hhigh))
      · exact State.tapeOf_unloaded hu ht
    exact hcall.ends (tapeRead_noTape hctl hnone)
  case writing =>
    subst hn
    rw [← t.nextBlock_length] at hplain
    exact hcall.ends_moving_nothing
      (tapeRead_writing hctl (State.tapeOf_loaded hu ht) hmode hplain) (.of_draws_host s _ _)
  case atEnd =>
    have hempty : t.nextBlock = [] := List.eq_nil_of_length_eq_zero (t.nextBlock_length.trans (hn.symm.trans hzero))
    exact hcall.ends (tapeRead_atEnd hctl (State.tapeOf_loaded hu ht) hmode hempty)
  case stores =>
    exact hcall.tapeRead_stores hctl (State.tapeOf_loaded hu ht) (t.nextBlock_length.trans hn.symm) hplain hmode hpos
  case notWritable =>
    exact hcall.ends_moving_nothing
      (tapeWrite_noTape hctl (by omega) hplain (State.writableTape_eq_none hunit)) (.of_draws_host s _ _)
  case writes =>
    obtain ⟨v, t', ⟨htapes, hmem, hregs, hflags, hcontrol, hdiscs, hnets, hkbuf, hscreen, hpc⟩, hrest⟩ :=
      hcall.tapeWrite_writes hctl (by omega) hplain hu ht hmode hpos hhost
    exact ⟨v, t', htapes, hmem, hregs, hflags, hcontrol, hdiscs, hnets, hkbuf, hscreen, hpc, hrest⟩

end Sys2Proof.Machine
end

section
/-! The terminal operations of PERI (43 R151 to R155): characters from the front of the keyboard buffer into memory, and the
characters that a print of a given number, or of a text with its end, appends to the terminal output. Settles O56 and O57. -/

namespace Sys2Proof.Machine

/-! ### Characters from the keyboard buffer (R151, R153) -/

/-- What $TERMINC and $TERMINW share: `words` stand at `m` and `n` characters are gone from the front of the buffer. -/
def KeysStored (s u : State) (m : Word) (n : Nat) (words : List Word) : Prop :=
  u.kbuf = s.kbuf.drop n ∧ (∀ j : Nat, j < words.length → u.memWord (m.toNat + j) = words.getD j 0) ∧
    (∀ a : Nat, (a < m.toNat ∨ m.toNat + words.length ≤ a) → u.memWord a = s.memWord a) ∧ SameRegisters s u ∧
    SameFlags s u ∧ SameControl s u ∧ u.screen = s.screen ∧ u.discs = s.discs ∧ u.pc = s.pc

theorem termInW_takes {s : State} {c max m : Word} (hctl : s.control c 2 = some [max, m]) :
    runPeriOp .termInW s c = s.takeKeys max m (fun cs => cs.map fun b => b.setWidth 32) := by
  simp only [runPeriOp, termInW, hctl]

theorem termInC_takes {s : State} {c max m : Word} (hctl : s.control c 2 = some [max, m]) :
    runPeriOp .termInC s c = s.takeKeys max m (fun cs => packBytes (cs ++ [0])) := by
  simp only [runPeriOp, termInC, hctl]

theorem PeriCall.stores_keys {s : State} {rd : Reg} {op : Operand} {c max m : Word} {o : PeriOp}
    {form : List Byte → List Word} {n k : Nat} (hcall : PeriCall s rd op c o)
    (hop : runPeriOp o s c = s.takeKeys max m form) (hmax : 0 ≤ max.toInt) (hn : n = min max.toNat s.kbuf.length)
    (hlength : (form (s.kbuf.take n)).length = k) (hplain : PlainRange s m k) :
    ∃ u, PeriEnds s rd op (BitVec.ofNat 32 n) u ∧ KeysStored s u m n (form (s.kbuf.take n)) := by
  subst hlength hn
  have htaken : PlainRange { s with kbuf := s.kbuf.drop (min max.toNat s.kbuf.length) } m
    (form (s.kbuf.take (min max.toNat s.kbuf.length))).length := hplain
  obtain ⟨mem, g, hrun, hinside, houtside⟩ := htaken.storeRun rfl
  refine ⟨_, hcall.ends (hop.trans ?done), rfl, hinside, houtside, ⟨rfl, rfl, rfl, rfl, rfl⟩, ⟨rfl, rfl⟩,
    ⟨rfl, rfl, rfl, rfl, rfl, rfl⟩, rfl, rfl, rfl⟩
  case done => simp only [State.takeKeys, if_neg (Int.not_lt.mpr hmax), hrun, if_true]

theorem getD_take_map_setWidth (bs : List Byte) {n j : Nat} (hj : j < n) (hn : n ≤ bs.length) :
    ((bs.take n).map fun b => (b.setWidth 32 : Word)).getD j 0 = (bs.getD j 0).setWidth 32 := by
  have htaken : j < ((bs.take n).map fun b => (b.setWidth 32 : Word)).length := by
    rw [List.length_map, List.length_take]; omega
  rw [List.getD_eq_getElem _ _ htaken, List.getD_eq_getElem _ _ (by omega), List.getElem_map, List.getElem_take]

/-- The characters taken, then zeros. -/
theorem getD_take_append_zero (bs : List Byte) {n : Nat} (hn : n ≤ bs.length) (j : Nat) :
    (bs.take n ++ [0]).getD j 0 = if j < n then bs.getD j 0 else 0 := by
  have htaken : (bs.take n).length = n := List.length_take_of_le hn
  split
  · rw [List.getD_append _ _ _ _ (by omega), List.getD_eq_getElem _ _ (by omega), List.getD_eq_getElem _ _ (by omega),
      List.getElem_take]
  · rw [List.getD_append_right _ _ _ _ (by omega)]
    cases j - (bs.take n).length <;> rfl

/-- Settles O56: both operations store a run of words made of the characters taken. -/
theorem terminTakesCharactersFromTheFront : Obligations.TerminTakesCharactersFromTheFront := by
  intro s rd op c max m n hctl hmax hn
  have hle : n ≤ s.kbuf.length := hn ▸ Nat.min_le_right _ _
  have htaken : (s.kbuf.take n).length = n := List.length_take_of_le hle
  refine ⟨fun hcall hplain => ?words, fun hcall hplain => ?packed⟩
  case words =>
    have hlength : ((s.kbuf.take n).map fun b => (b.setWidth 32 : Word)).length = n := by rw [List.length_map, htaken]
    obtain ⟨u, hends, hkbuf, hinside, houtside, hrest⟩ := hcall.stores_keys (termInW_takes hctl) hmax hn hlength hplain
    rw [hlength] at hinside houtside
    exact ⟨u, hends, hkbuf,
      fun j hj => (hinside j hj).trans (getD_take_map_setWidth s.kbuf hj hle), houtside, hrest⟩
  case packed =>
    have hlength : (packBytes (s.kbuf.take n ++ [0])).length = n / 4 + 1 := by
      rw [packBytes_length, List.length_append, htaken, List.length_singleton]; omega
    obtain ⟨u, hends, hkbuf, hinside, houtside, hrest⟩ := hcall.stores_keys (termInC_takes hctl) hmax hn hlength hplain
    rw [hlength] at hinside houtside
    refine ⟨u, hends, hkbuf, fun j hj => ?byte, houtside, hrest⟩
    rw [hinside (j / 4) (by omega), packBytes_byte _ (by rw [← packBytes_length, hlength]; exact hj),
      getD_take_append_zero s.kbuf hle]

/-! ### Characters to the terminal (R152, R154) -/

theorem State.wordChars_length (s : State) (ws : List Word) : (s.wordChars ws).length = ws.length := by
  rw [State.wordChars, List.length_zipWith, List.length_range, Nat.min_self]

/-- A word that is a character is printed as that character. -/
theorem State.wordChars_getElem (s : State) {ws : List Word} {j : Nat} (hj : j < ws.length) (hchar : ws[j].toNat < 256) :
    (s.wordChars ws)[j]'(by rwa [s.wordChars_length]) = ws[j].setWidth 8 := by
  simp only [State.wordChars, List.getElem_zipWith, if_pos hchar]

theorem State.wordChars_map_setWidth (s : State) (bs : List Byte) :
    s.wordChars (bs.map fun b => b.setWidth 32) = bs := by
  have hlength : (s.wordChars (bs.map fun b => b.setWidth 32)).length = bs.length := by
    rw [s.wordChars_length, List.length_map]
  refine List.ext_getElem hlength fun j hj hj' => ?_
  have hwide : (bs[j].setWidth 32 : Word).toNat = bs[j].toNat := BitVec.toNat_setWidth_of_le (by decide)
  have hchar : ((bs.map fun b => (b.setWidth 32 : Word))[j]'(by rwa [List.length_map])).toNat < 256 := by
    rw [List.getElem_map, hwide]; exact bs[j].isLt
  rw [s.wordChars_getElem (by rwa [List.length_map]) hchar, List.getElem_map]
  exact BitVec.setWidth_setWidth_of_le _ (by decide)

/-- `u` is `s` with `bs` appended to the terminal output, but for the model's own fields. -/
def Printed (s u : State) (bs : List Byte) : Prop :=
  u.screen = s.screen ++ bs ∧ SameMemory s u ∧ SameRegisters s u ∧ SameFlags s u ∧ SameControl s u ∧
    u.kbuf = s.kbuf ∧ u.discs = s.discs ∧ u.tapes = s.tapes ∧ u.nets = s.nets ∧ u.pc = s.pc

theorem Printed.skip_print (s : State) (n : Nat) (bs : List Byte) : Printed s ((s.skip n).print bs) bs :=
  ⟨rfl, fun _ => rfl, ⟨rfl, rfl, rfl, rfl, rfl⟩, ⟨rfl, rfl⟩, ⟨rfl, rfl, rfl, rfl, rfl, rfl⟩, rfl, rfl, rfl, rfl, rfl⟩

theorem ne_zero_of_toInt_pos {k : Word} (hk : 0 < k.toInt) : k ≠ 0 := by
  rintro rfl
  exact absurd hk (by decide)

theorem termOutC_count {s : State} {c k m : Word} (hctl : s.control c 2 = some [k, m]) (hk : 0 < k.toInt)
    (hplain : PlainRange s m ((k.toNat + 3) / 4)) :
    termOutC s c = .done k (s.print (s.bytesAt m.toNat k.toNat)) := by
  simp only [termOutC, hctl, if_neg (Int.not_lt.mpr hk.le), if_neg (ne_zero_of_toInt_pos hk), wordsFor,
    State.readRun_plain hplain]
  rfl

theorem termOutC_text {s : State} {c m : Word} {bs : List Byte} (hctl : s.control c 2 = some [0, m])
    (htext : StringAt s m bs) : termOutC s c = .done (BitVec.ofNat 32 bs.length) (s.print bs) := by
  simp only [termOutC, hctl, htext.scan]
  rfl

theorem termOutW_count {s : State} {c k m : Word} (hctl : s.control c 2 = some [k, m]) (hk : 0 < k.toInt)
    (hplain : PlainRange s m k.toNat) :
    termOutW s c = .done k ((s.skip k.toNat).print (s.wordChars (s.wordsAt m.toNat k.toNat))) := by
  simp only [termOutW, hctl, if_neg (Int.not_lt.mpr hk.le), if_neg (ne_zero_of_toInt_pos hk),
    State.readRun_plain hplain]
  rw [← State.wordsAt, s.wordsAt_length]
  rfl

/-- Characters in memory are scanned whole: there are fewer than the address space has words. -/
theorem CharactersAt.scan {s : State} {a : Word} {bs : List Byte} (h : CharactersAt s a bs) :
    s.scanWords addressSpace a = (bs.map fun b => b.setWidth 32, .zero) := by
  refine State.scanWords_charactersAt h ?_
  obtain ⟨⟨-, -, hspace⟩, -, -⟩ := h
  rw [addressSpace]
  omega

theorem termOutW_text {s : State} {c m : Word} {bs : List Byte} (hctl : s.control c 2 = some [0, m])
    (htext : CharactersAt s m bs) :
    termOutW s c = .done (BitVec.ofNat 32 bs.length) ((s.skip bs.length).print bs) := by
  simp only [termOutW, hctl, htext.scan, s.wordChars_map_setWidth, List.length_map]
  rfl

/-- Settles O57: a number of bytes, a number of words, a packed string, and the characters before a zero word. -/
theorem termoutPrintsTheCharacters : Obligations.TermoutPrintsTheCharacters := by
  intro s rd op c k m hctl
  refine ⟨fun hk hcall hplain => ?bytes, fun hk hcall hplain hchars => ?words, fun hk bs => ?text⟩
  case bytes =>
    refine ⟨_, hcall.ends (termOutC_count hctl hk hplain), s.bytesAt_length _ _, fun j hj => ?_⟩
    rw [List.getD_eq_getElem?_getD, s.bytesAt_getElem? m hj, Option.getD_some]
  case words =>
    have hlength : (s.wordChars (s.wordsAt m.toNat k.toNat)).length = k.toNat := by
      rw [s.wordChars_length, s.wordsAt_length]
    obtain ⟨hscreen, hrest⟩ := Printed.skip_print s k.toNat (s.wordChars (s.wordsAt m.toNat k.toNat))
    refine ⟨_, _, hcall.ends (termOutW_count hctl hk hplain), hscreen, hlength, fun j hj => ?_, hrest⟩
    have hword : j < (s.wordsAt m.toNat k.toNat).length := by rwa [s.wordsAt_length]
    have hread : (s.wordsAt m.toNat k.toNat)[j] = s.memWord (m.toNat + j) := by
      simp only [State.wordsAt, List.getElem_map, List.getElem_range]
    have hchar := hchars j hj
    rw [List.getD_eq_getElem _ _ (by rwa [hlength]), s.wordChars_getElem hword (by rwa [hread]), hread,
      BitVec.toNat_setWidth]
    exact Nat.mod_eq_of_lt hchar
  case text =>
    subst hk
    exact ⟨fun hcall htext => hcall.ends (termOutC_text hctl htext), fun hcall htext =>
      ⟨_, hcall.ends (termOutW_text hctl htext), Printed.skip_print s bs.length bs⟩⟩

end Sys2Proof.Machine
end

section
/-! The time operations of PERI that read the clock (43 R162 to R164): output words stored in the control structure, and a
result that is free but not negative (92 D42). Settles O59. -/

namespace Sys2Proof.Machine

/-- A free result that is not negative has its sign bit cleared. -/
theorem State.freeNonNegative_toInt (s : State) : 0 ≤ s.freeNonNegative.toInt := by
  have hsmall : s.freeNonNegative.toNat ≤ 0x7FFFFFFF := by
    rw [State.freeNonNegative, BitVec.toNat_and]
    exact Nat.and_le_right
  rw [BitVec.toInt_eq_toNat_of_lt (by omega)]
  exact Int.natCast_nonneg _

/-- An output word that cannot be stored, the first of them, leaves everything as it was. -/
theorem State.answerWords_unwritable {s : State} {a w : Word} (ws : List Word)
    (h : (s.writeMem a w).toOption = none) : s.answerWords a (w :: ws) = .done errReadParams s := by
  have hrun : s.storeRun a (w :: ws) = ⟨s, 0, false⟩ := by
    simp only [State.storeRun, State.periWrite, h]
  simp only [State.answerWords, hrun]
  rfl

theorem State.answerWords_done {s t : State} {a : Word} {ws : List Word} {n : Nat}
    (hrun : s.storeRun a ws = ⟨t, n, true⟩) : s.answerWords a ws = .done t.freeNonNegative (t.skip 1) := by
  simp only [State.answerWords, hrun, if_true]

theorem State.clockMicros_toNat (s : State) : s.clockMicros.toNat = s.clock % 1000000 := by
  rw [State.clockMicros, BitVec.toNat_ofNat]
  omega

/-- Settles O59: the clock as the result, and as two words stored, or not, in the control structure. -/
theorem timeOperationsReadTheClock : Obligations.TimeOperationsReadTheClock := by
  intro s rd op c
  refine ⟨fun hcall => hcall.ends rfl,
    fun hcall hunwritable => hcall.ends (State.answerWords_unwritable [s.clockMicros] (hunwritable s.clockSeconds)),
    fun hcall hplain => ?stored⟩
  obtain ⟨mem, g, hrun, hinside, houtside⟩ := hplain.storeRun (ws := [s.clockSeconds, s.clockMicros]) rfl
  exact ⟨_, _, hcall.ends (State.answerWords_done hrun), State.freeNonNegative_toInt _, hinside 0 (by decide),
    (congrArg BitVec.toNat (hinside 1 (by decide))).trans s.clockMicros_toNat,
    fun a hfirst hsecond => houtside a (by omega), ⟨rfl, rfl, rfl, rfl, rfl⟩, ⟨rfl, rfl⟩, ⟨rfl, rfl, rfl, rfl, rfl, rfl⟩,
    ⟨rfl, rfl, rfl, rfl, rfl, rfl, rfl, rfl⟩, rfl⟩

end Sys2Proof.Machine
end

section
/-! The network operations of PERI (43 R157 to R161): the unit a number names, the port a start is given, and the ends of
$NETSS, $NETSEND and $NETRECV. Settles O58. -/

namespace Sys2Proof.Machine

/-! ### The unit of a number (R157) -/

theorem State.netOf_inside (s : State) {u : Word} {i : Fin 2} (hu : u.toNat = i + 1) :
    s.netOf u = (s.nets[i]).map (fun n => (i, n)) := by
  rw [State.netOf, unitIndex_eq_some hu]

theorem State.netOf_on {s : State} {u : Word} {i : Fin 2} {unit : NetUnit} (hu : u.toNat = i + 1)
    (hunit : s.nets[i] = some unit) : s.netOf u = some (i, unit) := by
  rw [s.netOf_inside hu, hunit]; rfl

theorem State.netOf_off {s : State} {u : Word} {i : Fin 2} (hu : u.toNat = i + 1) (hunit : s.nets[i] = none) :
    s.netOf u = none := by
  rw [s.netOf_inside hu, hunit]; rfl

/-! ### What an operation of the network leaves unchanged -/

/-- Everything but memory and the units is as before. -/
def OnlyMemoryAndUnits (s v : State) : Prop :=
  SameRegisters s v ∧ SameFlags s v ∧ SameControl s v ∧ v.netSent = s.netSent ∧ v.discs = s.discs ∧
    v.tapes = s.tapes ∧ v.kbuf = s.kbuf ∧ v.screen = s.screen ∧ v.pc = s.pc

theorem OnlyMemoryAndUnits.of_fields (s : State) (m : Memory) (g : List Nat) (n : Nat)
    (units : Vector (Option NetUnit) 2) (ho : HostOracle) :
    OnlyMemoryAndUnits s { s with mem := m, gateFrames := g, draws := n, nets := units, host := ho } :=
  ⟨⟨rfl, rfl, rfl, rfl, rfl⟩, ⟨rfl, rfl⟩, ⟨rfl, rfl, rfl, rfl, rfl, rfl⟩, rfl, rfl, rfl, rfl, rfl, rfl⟩

/-- `v` is `s` with other words in memory, but for the model's own fields. -/
def MemoryChanged (s v : State) : Prop :=
  ∃ (m : Memory) (g : List Nat) (n : Nat) (ho : HostOracle),
    v = { s with mem := m, gateFrames := g, draws := n, host := ho }

theorem MemoryChanged.of_draws_host (s : State) (n : Nat) (ho : HostOracle) :
    MemoryChanged s { s with draws := n, host := ho } :=
  ⟨s.mem, s.gateFrames, n, ho, rfl⟩

theorem MemoryChanged.trans {s t v : State} (h : MemoryChanged s t) (h' : MemoryChanged t v) : MemoryChanged s v := by
  obtain ⟨m, g, n, ho, rfl⟩ := h
  obtain ⟨m', g', n', ho', rfl⟩ := h'
  exact ⟨m', g', n', ho', rfl⟩

theorem MemoryChanged.plainRange {s v : State} {a : Word} {n : Nat} (h : MemoryChanged s v) (hplain : PlainRange s a n) :
    PlainRange v a n := by
  obtain ⟨m, g, k, ho, rfl⟩ := h
  exact hplain

/-- Whether a unit changes before or after memory makes no difference. -/
theorem MemoryChanged.setNet_skip {s v : State} (h : MemoryChanged s v) (i : Fin 2) (unit : Option NetUnit) (k : Nat) :
    MemoryChanged (s.setNet i unit) ((v.setNet i unit).skip k) := by
  obtain ⟨m, g, n, ho, rfl⟩ := h
  exact ⟨m, g, n + k, ho, rfl⟩

theorem MemoryChanged.unit_replaced {s v : State} {i : Fin 2} {unit : Option NetUnit}
    (h : MemoryChanged (s.setNet i unit) v) : v.nets = s.nets.set i unit ∧ OnlyMemoryAndUnits s v := by
  obtain ⟨m, g, n, ho, rfl⟩ := h
  exact ⟨rfl, .of_fields s m g n _ ho⟩

/-- A plain range read whole, as the words of memory there. -/
theorem PlainRange.readRun {s : State} {a : Word} {n : Nat} (h : PlainRange s a n) :
    s.readRun a n = (s.wordsAt a.toNat n, true) :=
  State.readRun_plain h

theorem PlainRange.readPair {s : State} {a : Word} (h : PlainRange s a 2) :
    s.readRun a 2 = ([s.memWord a.toNat, s.memWord (a.toNat + 1)], true) :=
  h.readRun

theorem PlainRange.head {s : State} {a : Word} {n : Nat} (h : PlainRange s a (n + 1)) : PlainRange s a 1 := by
  obtain ⟨hvm, hphys, hspace⟩ := h
  exact ⟨hvm, by omega, by omega⟩

/-- A run of stores into a plain range, with the state it leads to. -/
theorem PlainRange.stores {s : State} {a : Word} {n : Nat} {ws : List Word} (h : PlainRange s a n)
    (hlength : ws.length = n) :
    ∃ v, s.storeRun a ws = ⟨v, n, true⟩ ∧ MemoryChanged s v ∧
      (∀ j, j < n → v.memWord (a.toNat + j) = ws.getD j 0) ∧
      ∀ b, (b < a.toNat ∨ a.toNat + n ≤ b) → v.memWord b = s.memWord b := by
  obtain ⟨m, g, hrun, hinside, houtside⟩ := h.storeRun hlength
  exact ⟨_, hrun, ⟨m, g, s.draws, s.host, rfl⟩, hinside, houtside⟩

/-- Memory that becomes free values; beside it nothing changes. -/
theorem PlainRange.spoil {s : State} {a : Word} {n : Nat} (h : PlainRange s a n) :
    MemoryChanged s (s.spoil a n) ∧
      ∀ b, (b < a.toNat ∨ a.toNat + n ≤ b) → (s.spoil a n).memWord b = s.memWord b := by
  have hlength : (s.freeWords n).length = n := by rw [State.freeWords, List.length_map, List.length_range]
  obtain ⟨m, g, hrun, -, houtside⟩ := (h.skip n).storeRun hlength
  rw [State.spoil, hrun]
  exact ⟨⟨m, g, s.draws + n, s.host, rfl⟩, houtside⟩

/-! ### Turning a unit on (R158) -/

/-- The state after the host's answer to a start, with the answers still to come. -/
def State.afterPort (s : State) (rest : List (Option (BitVec 16))) : State :=
  { s with host := { s.host with ports := rest } }

theorem State.askPort_scheduled {s : State} {a : Option (BitVec 16)} {rest : List (Option (BitVec 16))}
    (h : s.host.ports = a :: rest) (asked : Word) :
    s.askPort asked = (a.bind (s.portGiven asked), s.afterPort rest) := by
  rw [State.askPort, h]; rfl

theorem State.portUnused_of_ne {s : State} {port : BitVec 16} (hzero : port ≠ 0)
    (hfree : ∀ (j : Fin 2) (other : NetUnit), s.nets[j] = some other → other.port ≠ port) :
    s.portUnused port = true := by
  rw [State.portUnused, decide_eq_true hzero, Bool.true_and, List.all_eq_true]
  intro n hn
  obtain ⟨j, hj, hunit⟩ := Vector.getElem_of_mem (Vector.mem_toList_iff.mp hn)
  cases n with
  | none => rfl
  | some other => exact decide_eq_true (hfree ⟨j, hj⟩ other hunit)

/-- The port asked for, or for the request 0 the host's where it is unused. -/
theorem State.portGiven_eq_some {s : State} {asked : Word} {chosen port : BitVec 16}
    (h : asked ≠ 0 ∧ asked.toNat = port.toNat ∨
      asked = 0 ∧ port = chosen ∧ port ≠ 0 ∧
        ∀ (j : Fin 2) (other : NetUnit), s.nets[j] = some other → other.port ≠ port) :
    s.portGiven asked chosen = some port := by
  rcases h with ⟨hasked, hport⟩ | ⟨rfl, rfl, hzero, hfree⟩
  · have hsmall := port.isLt
    rw [State.portGiven, if_neg hasked, if_pos (by omega)]
    refine congrArg some (BitVec.eq_of_toNat_eq ?_)
    rw [BitVec.toNat_setWidth]
    omega
  · rw [State.portGiven, if_pos rfl, if_pos (State.portUnused_of_ne hzero hfree)]

theorem State.freeNegative_toInt (s : State) : s.freeNegative.toInt < 0 := by
  rw [State.freeNegative]
  split
  · decide
  · have hsign : (s.free ||| 0x80000000).msb = true := by rw [BitVec.msb_or, Bool.or_eq_true]; exact .inr rfl
    exact BitVec.toInt_neg_of_msb_true hsign

theorem netSS_start {s : State} {c u p : Word} (hctl : s.control c 3 = some [u, 1, p]) :
    runPeriOp .netSS s c = s.netStart u p := by
  simp only [runPeriOp, netSS, hctl, if_true]

theorem netSS_stop {s : State} {c u p : Word} (hctl : s.control c 3 = some [u, 0, p]) :
    runPeriOp .netSS s c = s.netStop u p := by
  have hswitch : (0 : Word) ≠ 1 := by decide
  simp only [runPeriOp, netSS, hctl, if_neg hswitch, if_true]

/-- No error code stands against starting a unit that is off, with its two words in memory. -/
theorem State.netStart_codes {s : State} {u p : Word} {i : Fin 2} (hu : u.toNat = i + 1) (hoff : s.nets[i] = none)
    (hplain : PlainRange s p 2) :
    codeIf (unitIndex 2 u).isNone errDevNumber ++ codeIf (s.netOf u).isSome errInUse ++
      codeIf (!(s.readRun p 2).2) errMemory = [] := by
  rw [unitIndex_eq_some hu, State.netOf_off hu hoff, hplain.readRun]; rfl

theorem State.netStart_noPort {s t : State} {u p : Word} {i : Fin 2} (hu : u.toNat = i + 1) (hoff : s.nets[i] = none)
    (hplain : PlainRange s p 2) (hfirst : s.memWord p.toNat = 0)
    (hask : s.askPort (s.memWord (p.toNat + 1)) = (none, t)) :
    s.netStart u p = .done t.freeNegative (t.skip 1) := by
  simp only [State.netStart, State.netStart_codes hu hoff hplain, List.isEmpty_nil, if_true]
  simp only [hplain.readPair, List.getD_cons_zero, List.getD_cons_succ, hfirst, hask, unitIndex_eq_some hu, ne_eq,
    not_true_eq_false, if_false]

theorem State.netStart_started {s t v : State} {u p : Word} {i : Fin 2} {port : BitVec 16} {n : Nat}
    (hu : u.toNat = i + 1) (hoff : s.nets[i] = none) (hplain : PlainRange s p 2) (hfirst : s.memWord p.toNat = 0)
    (hask : s.askPort (s.memWord (p.toNat + 1)) = (some port, t))
    (hrun : t.storeRun p [(Config.addressPair Config.hostIp port).1, (Config.addressPair Config.hostIp port).2] =
      ⟨v, n, true⟩) :
    s.netStart u p = .done v.freeNonNegative ((v.setNet i (some { port := port, inq := [] })).skip 1) := by
  simp only [State.netStart, State.netStart_codes hu hoff hplain, List.isEmpty_nil, if_true]
  simp only [hplain.readPair, List.getD_cons_zero, List.getD_cons_succ, hfirst, hask, unitIndex_eq_some hu, ne_eq,
    not_true_eq_false, if_false, NetUnit.address, hrun, if_true]

/-- A unit that is on already: −9 is the one code against the start. -/
theorem State.netStart_inUse {s : State} {u p : Word} {x : Fin 2 × NetUnit} {i : Fin 2} (hu : u.toNat = i + 1)
    (hon : s.netOf u = some x) (hplain : PlainRange s p 2) : s.netStart u p = .done errInUse (s.skip 1) := by
  simp only [State.netStart, unitIndex_eq_some hu, hon, hplain.readRun]
  rfl

/-! ### Turning a unit off (R158) -/

/-- The state after a unit was turned off: the two words at `p` are free. -/
def State.netStopped (s : State) (i : Fin 2) (p : Word) : State := (((s.setNet i none).skip 1).spoil p 1).spoil (p + 1) 1

theorem State.netStop_done {s : State} {u p : Word} {i : Fin 2} {unit : NetUnit} (hon : s.netOf u = some (i, unit)) :
    s.netStop u p = .done s.freeNonNegative (s.netStopped i p) := by
  simp only [State.netStop, hon, State.netStopped]

theorem State.netStopped_plain {s : State} {p : Word} (i : Fin 2) (hplain : PlainRange s p 2) :
    (s.netStopped i p).nets = s.nets.set i none ∧
      (∀ a : Nat, a ≠ p.toNat → a ≠ p.toNat + 1 → (s.netStopped i p).memWord a = s.memWord a) ∧
      OnlyMemoryAndUnits s (s.netStopped i p) := by
  obtain ⟨hsecond, hnext⟩ := hplain.tail
  have hoff : PlainRange ((s.setNet i none).skip 1) p 1 := hplain.head
  obtain ⟨hchanged, houtside⟩ := hoff.spoil
  obtain ⟨hchanged', houtside'⟩ := (hchanged.plainRange (a := p + 1) (n := 1) hsecond).spoil
  obtain ⟨hnets, hrest⟩ :=
    (((MemoryChanged.of_draws_host _ _ _).trans hchanged).trans hchanged').unit_replaced (s := s) (i := i)
  exact ⟨hnets, fun a hp hp' => (houtside' a (by omega)).trans (houtside a (by omega)), hrest⟩

/-! ### $NETSEND (R159) -/

theorem State.askSend_scheduled {s : State} {a : Bool} {rest : List Bool} (h : s.host.sends = a :: rest) :
    s.askSend = (a, { s with host := { s.host with sends := rest } }) := by
  rw [State.askSend, h]

/-- A length that no packet has is the one condition against the call; the host is not asked. -/
theorem netSend_badLength {s : State} {c u p n m : Word} {x : Fin 2 × NetUnit}
    (hctl : s.control c 4 = some [u, p, n, m]) (hon : s.netOf u = some x) (hplain : PlainRange s p 2)
    (hn : n.toInt < 0 ∨ 1024 < n.toInt) : netSend s c = .done errBadParam (s.skip 1) := by
  simp only [netSend, hctl, hon, hplain.readRun, decide_eq_true hn]
  rfl

/-- The packet of a send: the address pair at `p`, and the `n` packed bytes from `m` on. -/
def State.packetAt (s : State) (p m n : Nat) : Packet :=
  { endpoint := (s.memWord p, s.memWord (p + 1)), data := s.bytesAt m n }

theorem netSend_done {s t : State} {c u p n m : Word} {x : Fin 2 × NetUnit}
    (hctl : s.control c 4 = some [u, p, n, m]) (hon : s.netOf u = some x) (hplain : PlainRange s p 2)
    (hn : ¬ (n.toInt < 0 ∨ 1024 < n.toInt)) (hdata : PlainRange s m ((n.toNat + 3) / 4))
    (hask : s.askSend = (true, t)) :
    netSend s c = .done t.freeNonNegative
      ({ t with netSent := t.netSent ++ [(x.1, s.packetAt p.toNat m.toNat n.toNat)] }.skip 1) := by
  simp only [netSend, hctl, hon, hplain.readRun, decide_eq_false hn, wordsFor, hdata.readRun, hask]
  rfl

/-! ### $NETRECV (R160) -/

theorem State.askRecv_scheduled {s : State} {a : Bool} {rest : List Bool} (h : s.host.recvs = a :: rest) :
    s.askRecv = (a, { s with host := { s.host with recvs := rest } }) := by
  rw [State.askRecv, h]

theorem netRecv_noPacket {s t : State} {c u p m : Word} {x : Fin 2 × NetUnit}
    (hctl : s.control c 3 = some [u, p, m]) (hon : s.netOf u = some x) (hempty : x.2.inq = [])
    (hask : s.askRecv = (true, t)) (hplain : PlainRange t p 2) : netRecv s c = .done errNoData (t.skip 1) := by
  simp only [netRecv, hctl, hon, hask, hempty, hplain.readRun]
  rfl

theorem netRecv_done {s t v : State} {c u p m : Word} {x : Fin 2 × NetUnit} {k : Packet} {queue : List Packet}
    {n : Nat} (hctl : s.control c 3 = some [u, p, m]) (hon : s.netOf u = some x)
    (hqueue : x.2.inq = k :: queue) (hask : s.askRecv = (true, t))
    (hstore : (t.storePacket p m k).2 = ⟨v, n, true⟩) :
    netRecv s c = .done v.freeNonNegative ((v.setNet x.1 (some { x.2 with inq := queue })).skip 1) := by
  simp only [netRecv, hctl, hon, hask, hqueue, hstore]
  rfl

/-- A packet whose data does not lie over its source address is stored whole, and no other word changes. -/
theorem State.storePacket_plain {s : State} {p m : Word} {k : Packet} (hsource : PlainRange s p 2)
    (hdata : PlainRange s m ((k.data.length + 3) / 4))
    (hapart : p.toNat + 2 ≤ m.toNat ∨ m.toNat + (k.data.length + 3) / 4 ≤ p.toNat) :
    ∃ v, (s.storePacket p m k).2 = ⟨v, (k.data.length + 3) / 4, true⟩ ∧ MemoryChanged s v ∧
      v.memWord p.toNat = k.endpoint.1 ∧ v.memWord (p.toNat + 1) = k.endpoint.2 ∧
      (∀ j : Nat, j < k.data.length → v.byteAt m j = k.data.getD j 0) ∧
      ∀ a : Nat, a ≠ p.toNat → a ≠ p.toNat + 1 → (a < m.toNat ∨ m.toNat + (k.data.length + 3) / 4 ≤ a) →
        v.memWord a = s.memWord a := by
  obtain ⟨t, hhead, hchanged, hinside, houtside⟩ :=
    (hsource.skip 1).stores (ws := [k.endpoint.1, k.endpoint.2]) rfl
  obtain ⟨v, hbody, hchanged', hinside', houtside'⟩ :=
    (hchanged.plainRange (hdata.skip 1)).stores (packBytes_fillWord_length k.data s.free)
  have hskipped : MemoryChanged s (s.skip 1) := .of_draws_host s _ _
  refine ⟨v, ?stored, (hskipped.trans hchanged).trans hchanged', ?first, ?second, fun j hj => ?bytes,
    fun a hp hp' ha => ?other⟩
  case stored => simp only [State.storePacket, hhead, if_true, hbody]
  case first => exact (houtside' p.toNat (by omega)).trans (hinside 0 (by decide))
  case second => exact (houtside' (p.toNat + 1) (by omega)).trans (hinside 1 (by decide))
  case bytes =>
    rw [State.byteAt, hinside' (j / 4) (by omega), packBytes_fillWord_byte k.data s.free hj]
  case other => exact (houtside' a ha).trans (houtside a (by omega))

/-! ### The obligation -/

/-- $NETSS that starts a unit: the host's port goes to the unit and its address to memory. -/
theorem PeriCall.netStart_started {s : State} {rd : Reg} {op : Operand} {c u p : Word} {i : Fin 2} {port : BitVec 16}
    {answer : Option (BitVec 16)} {rest : List (Option (BitVec 16))} (hcall : PeriCall s rd op c .netSS)
    (hctl : s.control c 3 = some [u, 1, p]) (hu : u.toNat = i + 1) (hoff : s.nets[i] = none) (hplain : PlainRange s p 2)
    (hfirst : s.memWord p.toNat = 0) (hhost : s.host.ports = answer :: rest)
    (hport : answer.bind (s.portGiven (s.memWord (p.toNat + 1))) = some port) :
    ∃ (v : State) (result : Word), PeriEnds s rd op result v ∧ 0 ≤ result.toInt ∧
      v.nets = s.nets.set i (some { port := port, inq := [] }) ∧
      v.memWord p.toNat = (Config.addressPair Config.hostIp port).1 ∧
      v.memWord (p.toNat + 1) = (Config.addressPair Config.hostIp port).2 ∧
      (∀ a : Nat, a ≠ p.toNat → a ≠ p.toNat + 1 → v.memWord a = s.memWord a) ∧ OnlyMemoryAndUnits s v := by
  have hask := State.askPort_scheduled hhost (s.memWord (p.toNat + 1))
  rw [hport] at hask
  have hasked : MemoryChanged s (s.afterPort rest) := .of_draws_host s _ _
  obtain ⟨v, hrun, hchanged, hinside, houtside⟩ := (hasked.plainRange hplain).stores
    (ws := [(Config.addressPair Config.hostIp port).1, (Config.addressPair Config.hostIp port).2]) rfl
  obtain ⟨hnets, hrest⟩ := ((hasked.trans hchanged).setNet_skip i (some ⟨port, []⟩) 1).unit_replaced
  exact ⟨_, _, hcall.ends ((netSS_start hctl).trans (State.netStart_started hu hoff hplain hfirst hask hrun)),
    v.freeNonNegative_toInt, hnets, hinside 0 (by decide), hinside 1 (by decide),
    fun a hp hp' => houtside a (by omega), hrest⟩

/-- $NETSEND that the host accepts hands it one packet and changes nothing else. -/
theorem PeriCall.netSend_sends {s : State} {rd : Reg} {op : Operand} {c u p n m : Word} {i : Fin 2} {unit : NetUnit}
    {rest : List Bool} (hcall : PeriCall s rd op c .netSend) (hctl : s.control c 4 = some [u, p, n, m])
    (hon : s.netOf u = some (i, unit)) (hplain : PlainRange s p 2) (hn : ¬ (n.toInt < 0 ∨ 1024 < n.toInt))
    (hdata : PlainRange s m ((n.toNat + 3) / 4)) (hhost : s.host.sends = true :: rest) :
    ∃ (v : State) (result : Word), PeriEnds s rd op result v ∧ 0 ≤ result.toInt ∧
      v.netSent = s.netSent ++ [(i, s.packetAt p.toNat m.toNat n.toNat)] ∧ SameMemory s v ∧ SameRegisters s v ∧
      SameFlags s v ∧ SameControl s v ∧ v.nets = s.nets ∧ v.pc = s.pc :=
  ⟨_, _, hcall.ends (netSend_done hctl hon hplain hn hdata (State.askSend_scheduled hhost)),
    State.freeNonNegative_toInt _, rfl, fun _ => rfl, ⟨rfl, rfl, rfl, rfl, rfl⟩, ⟨rfl, rfl⟩,
    ⟨rfl, rfl, rfl, rfl, rfl, rfl⟩, rfl, rfl⟩

theorem State.packetAt_data_getD (s : State) (p : Nat) (m : Word) {n j : Nat} (hj : j < n) :
    (s.packetAt p m.toNat n).data.getD j 0 = s.byteAt m j := by
  rw [State.packetAt, List.getD_eq_getElem?_getD, s.bytesAt_getElem? m hj, Option.getD_some]

/-- $NETRECV of a unit with a packet takes the first of its queue and stores it. -/
theorem PeriCall.netRecv_receives {s : State} {rd : Reg} {op : Operand} {c u p m : Word} {i : Fin 2} {unit : NetUnit}
    {k : Packet} {queue : List Packet} {rest : List Bool} (hcall : PeriCall s rd op c .netRecv)
    (hctl : s.control c 3 = some [u, p, m]) (hon : s.netOf u = some (i, unit)) (hqueue : unit.inq = k :: queue)
    (hhost : s.host.recvs = true :: rest) (hsource : PlainRange s p 2)
    (hdata : PlainRange s m ((k.data.length + 3) / 4))
    (hapart : p.toNat + 2 ≤ m.toNat ∨ m.toNat + (k.data.length + 3) / 4 ≤ p.toNat) :
    ∃ (v : State) (result : Word), PeriEnds s rd op result v ∧ 0 ≤ result.toInt ∧
      v.nets = s.nets.set i (some { unit with inq := queue }) ∧
      v.memWord p.toNat = k.endpoint.1 ∧ v.memWord (p.toNat + 1) = k.endpoint.2 ∧
      (∀ j : Nat, j < k.data.length → v.byteAt m j = k.data.getD j 0) ∧
      (∀ a : Nat, a ≠ p.toNat → a ≠ p.toNat + 1 → (a < m.toNat ∨ m.toNat + (k.data.length + 3) / 4 ≤ a) →
        v.memWord a = s.memWord a) ∧ OnlyMemoryAndUnits s v := by
  have hask := State.askRecv_scheduled hhost
  have hasked : MemoryChanged s { s with host := { s.host with recvs := rest } } := .of_draws_host s _ _
  obtain ⟨v, hstore, hchanged, hfirst, hsecond, hbytes, hother⟩ :=
    State.storePacket_plain (hasked.plainRange hsource) (hasked.plainRange hdata) hapart
  obtain ⟨hnets, hrest⟩ := ((hasked.trans hchanged).setNet_skip i (some { unit with inq := queue }) 1).unit_replaced
  exact ⟨_, _, hcall.ends (netRecv_done hctl hon hqueue hask hstore), v.freeNonNegative_toInt, hnets, hfirst, hsecond,
    hbytes, hother, hrest⟩

/-- Settles O58: a start of a unit that is off, without and with a port; then each call on a unit that is on. -/
theorem networkOperationsInTheirPlainCases : Obligations.NetworkOperationsInTheirPlainCases := by
  intro s rd op c u p n m i hu hplain
  refine ⟨fun hoff hcall hctl hfirst asked answer rest hasked hhost =>
      ⟨fun hanswer => ?noPort, fun chosen port hanswer hport => ?started⟩,
    fun unit hunit => ?on⟩
  case noPort =>
    subst hanswer
    obtain ⟨v, hends, hsame⟩ := hcall.ends_moving_nothing ((netSS_start hctl).trans
      (State.netStart_noPort hu hoff hplain hfirst (State.askPort_scheduled hhost _))) (.of_draws_host s _ _)
    exact ⟨v, _, hends, State.freeNegative_toInt _, hsame⟩
  case started =>
    subst hasked hanswer
    exact hcall.netStart_started hctl hu hoff hplain hfirst hhost (State.portGiven_eq_some hport)
  case on =>
    have hon := State.netOf_on hu hunit
    refine ⟨fun hcall hctl => ?inUse, fun hcall hctl => ?stopped, fun hcall hctl hn => ?badLength,
      fun hcall hctl hlow hhigh hdata rest hhost => ?sent, fun hcall hctl hempty rest hhost => ?noPacket,
      fun hcall hctl k queue hqueue rest hhost hdata hapart => ?received⟩
    case inUse =>
      exact hcall.ends_moving_nothing ((netSS_start hctl).trans (State.netStart_inUse hu hon hplain)) (.of_draws_host s _ _)
    case stopped =>
      exact ⟨_, _, hcall.ends ((netSS_stop hctl).trans (State.netStop_done hon)), s.freeNonNegative_toInt,
        State.netStopped_plain i hplain⟩
    case badLength =>
      exact hcall.ends_moving_nothing (netSend_badLength hctl hon hplain hn) (.of_draws_host s _ _)
    case sent =>
      obtain ⟨v, result, hends, hresult, hsent, hrest⟩ := hcall.netSend_sends hctl hon hplain (by omega) hdata hhost
      exact ⟨v, result, _, hends, hresult, hsent, rfl, s.bytesAt_length _ _,
        fun j hj => s.packetAt_data_getD p.toNat m hj, hrest⟩
    case noPacket =>
      exact hcall.ends_moving_nothing (netRecv_noPacket hctl hon hempty (State.askRecv_scheduled hhost) hplain)
        (.of_draws_host s _ _)
    case received => exact hcall.netRecv_receives hctl hon hqueue hhost hplain hdata hapart

end Sys2Proof.Machine
end

section
/-! System instructions (44_system_instructions.md R180 to R182): HALT in each mode, the gate SYSCALL enters, and what
IRET restores from a frame or refuses. Settles O35, O37 and O38. -/

namespace Sys2Proof.Machine

/-! ### HALT (R180, R205) -/

theorem execHalt_user {s : State} (h : s.flags.sys = false) :
    execHalt s = .next (s.raise ⟨.halt, s.pc, none⟩) := by
  simp only [execHalt, if_neg (ne_true_of_eq_false h), State.settle_trap]

theorem execHalt_system {s : State} (h : s.flags.sys = true) :
    execHalt s = .next { s with flags := { s.flags with r := false }, stopReason := some .haltInstruction }.advance := by
  simp only [execHalt, if_pos h, State.settle_ok]

/-! ### IRET (R182) -/

/-- In system mode IRET is the return from the interrupt. -/
theorem execIret_system {s : State} (h : s.flags.sys = true) : execIret s = s.settle s.returnFromInterrupt := by
  simp only [execIret, State.needSystem_ok h, Except.ok_bind]

/-- With VM off and SP at the top of a frame SYSCALL pushed, IRET is refused (92 D17). -/
theorem execIret_gateFrame {s : State} (hsys : s.flags.sys = true) (hvm : s.flags.vm = false)
    (hgate : s.sp.toNat ∈ s.gateFrames) : execIret s = .refused .returnFromGateFrame := by
  rw [execIret_system hsys]
  simp only [State.returnFromInterrupt, State.translate_vm_off hvm, Except.ok_bind,
    if_pos (List.contains_iff_mem.mpr hgate), State.settle_refuse]

theorem State.returnFromInterrupt_restores {s : State} {top : Word} {low high : List Word}
    (htop : s.translate s.sp = .ok top) (hgate : top.toNat ∉ s.gateFrames)
    (hlow : s.readAll (wordRange s.sp 8) = .ok low) (hhigh : s.readAll (wordRange (low.getD 7 0) 13) = .ok high) :
    s.returnFromInterrupt = .ok (s.restore low high) := by
  simp only [State.returnFromInterrupt, htop, Except.ok_bind, if_neg (mt List.contains_iff_mem.mp hgate), hlow, hhigh]

/-- The thirteen words popped from the saved SP are R12 first, R0 last. -/
theorem State.restore_gpr (s : State) (low high : List Word) (n : Fin 13) :
    (s.restore low high).gpr[n] = high.getD (12 - n) 0 :=
  Vector.getElem_ofFn n.isLt

/-- A return reaches no user stack register, control register, memory or device, and gives no reason to halt unless the
popped flags clear R (60 R231). -/
theorem State.restore_frame (s : State) (low high : List Word) :
    (s.restore low high).usrSp = s.usrSp ∧ (s.restore low high).usrFp = s.usrFp ∧
      ((s.restore low high).flags.r = true → (s.restore low high).stopReason = s.stopReason) ∧
      SameControl s (s.restore low high) ∧ SameMemory s (s.restore low high) ∧ SameDevices s (s.restore low high) :=
  ⟨rfl, rfl, fun hr => if_pos hr, ⟨rfl, rfl, rfl, rfl, rfl, rfl⟩, fun _ => rfl,
    ⟨rfl, rfl, rfl, rfl, rfl, rfl, rfl, rfl⟩⟩

/-! ### SYSCALL (R181) -/

theorem execSyscall_of_value {s : State} {op : Operand} {i : Word} (h : s.value op = .ok i) :
    execSyscall op s = s.settle (s.callGate i) := by
  simp only [execSyscall, h, Except.ok_bind]

/-- An index in range whose gate can be read. -/
theorem State.callGate_inRange {s : State} {i entry : Word} (hlow : 0 ≤ i.toInt) (hhigh : i.toInt < s.cglen.toInt)
    (hentry : s.physRead (s.cgbr + i) = .ok entry) :
    s.callGate i = if entry = 0 then .error (.refuse .zeroCallGate) else .ok (s.enterGate entry) := by
  have hrange : ¬ (i.toInt < 0 ∨ s.cglen.toInt ≤ i.toInt) := by omega
  simp only [State.callGate, if_neg hrange, hentry]

/-- The 18 words, first pushed first: R0 to R12, SP, FP, the return address, FLAGS, 40. -/
theorem State.gateFrame_eq (s : State) :
    s.gateFrame = s.gpr.toList ++ [s.sysSp - 13, s.sysFp, s.pc + 1, flagsWord s.flags, 40] :=
  List.append_assoc ..

/-- A complete entry whose last push was at `top` is remembered by that address (Log 56). -/
theorem State.enterGate_complete {s : State} {entry : Word} {top : Nat}
    (hcomplete : (s.enterFrame s.gateFrame entry).complete = true)
    (htop : (s.enterFrame s.gateFrame entry).touched.getLast? = some top) :
    s.enterGate entry =
      { (s.enterFrame s.gateFrame entry).state with
        gateFrames := (s.enterFrame s.gateFrame entry).state.gateFrames ++ [top] } := by
  simp only [State.enterGate, if_pos hcomplete, htop, Option.toList_some]

/-- With VM off and room for the frame, SYSCALL's entry is complete: PC at the gate's entry, SYS and IP on, the 18 words
below the old SYSSP, and the last of them, where SYSSP now is, remembered as the top of a SYSCALL frame. -/
theorem State.enterGate_plain {s : State} (entry : Word) (hvm : s.flags.vm = false) (hlow : 18 ≤ s.sysSp.toNat)
    (hhigh : s.sysSp.toNat ≤ s.params.physWords) :
    FrameBelow s (s.enterGate entry) s.sysSp s.gateFrame ∧
      ∃ (m : Memory) (g : List Nat), (s.sysSp - 18).toNat ∈ g ∧ s.enterGate entry =
        { s with pc := entry, sysSp := s.sysSp - 18, mem := m, gateFrames := g,
                 flags := { s.flags with sys := true, ip := true } } := by
  obtain ⟨hcomplete, htouched, hframe, m, g, hstate, -⟩ :=
    State.enterFrame_plain (frame := s.gateFrame) entry hvm (by simpa using hlow) hhigh
  have htop : (s.enterFrame s.gateFrame entry).touched.getLast? = some (s.sysSp - 18).toNat := by
    have hlast : (s.sysSp - 18).toNat = s.sysSp.toNat - 1 - 17 := by bv_omega
    rw [htouched, State.gateFrame_length, List.range_succ, List.map_append, hlast]
    exact List.getLast?_concat
  have hgate := State.enterGate_complete hcomplete htop
  refine ⟨hgate ▸ hframe, m, g ++ [(s.sysSp - 18).toNat], by simp, ?_⟩
  rw [hgate, hstate, State.gateFrame_length]
  rfl

/-! ### The obligations -/

/-- Settles O37: the plain entry of the gate says the next state; its SYSSP is the top that an IRET refuses. -/
theorem syscallEntersTheGate : Obligations.SyscallEntersTheGate := by
  intro s op i entry hop hlow hhigh hentry
  have hexec : exec (.syscall op) s =
      s.settle (if entry = 0 then .error (.refuse .zeroCallGate) else .ok (s.enterGate entry)) := by
    rw [exec_syscall, execSyscall_of_value hop, State.callGate_inRange hlow hhigh hentry]
  refine ⟨fun hzero => ?refused, fun hentry0 hvm hroom hphys => ?entered⟩
  case refused => rw [hexec, if_pos hzero, State.settle_refuse]
  case entered =>
    rw [if_neg hentry0, State.settle_ok] at hexec
    obtain ⟨hframe, m, g, htop, hgate⟩ := State.enterGate_plain entry hvm hroom hphys
    rw [State.gateFrame_eq, hgate] at hframe
    rw [hgate] at hexec
    exact ⟨_, hexec, rfl, rfl, rfl, rfl, rfl, rfl, rfl, rfl, ⟨rfl, rfl, rfl, rfl, rfl, rfl⟩,
      ⟨rfl, rfl, rfl, rfl, rfl, rfl, rfl, rfl⟩, hframe, execIret_gateFrame rfl hvm htop⟩

/-- Settles O38: the state restored from the two runs of words. -/
theorem iretRestoresWhatTheFrameHolds : Obligations.IretRestoresWhatTheFrameHolds := by
  intro s top low high hsys htop hgate hlow hhigh
  have hexec : exec .iret s = .next (s.restore low high) := by
    rw [exec_iret, execIret_system hsys, State.returnFromInterrupt_restores htop hgate hlow hhigh, State.settle_ok]
  exact ⟨_, hexec, rfl, rfl, rfl, rfl, s.restore_gpr low high, s.restore_frame low high⟩

/-- Settles O35: HALT in each of the two modes. -/
theorem haltByMode : Obligations.HaltByMode := fun _ =>
  ⟨execHalt_user, fun hsys => ⟨_, execHalt_system hsys, rfl, rfl, rfl, ⟨rfl, rfl, rfl, rfl, rfl⟩,
    ⟨rfl, rfl, rfl, rfl, rfl, rfl⟩, fun _ => rfl, ⟨rfl, rfl, rfl, rfl, rfl, rfl, rfl, rfl⟩⟩⟩

end Sys2Proof.Machine
end

section
/-! The general instructions (45_general_instructions_referenced.md R190 to R195): the value and the place of an
operand, what a move of SP and a push leave unchanged, and the next state of each instruction. Settles O16, O19, O20
and O22 to O24. -/

namespace Sys2Proof.Machine

/-! ### Operands (R190) -/

theorem State.value_reg (s : State) {m : Reg} (hm : m ≠ .pc) : s.value (.reg m) = .ok (s.reg m) := s.readReg_ok hm

theorem State.value_ind (s : State) {m : Reg} (hm : m ≠ .pc) : s.value (.ind m) = s.readMem (s.reg m) := by
  simp only [State.value, s.readReg_ok hm, Except.ok_bind]

theorem State.value_indOff (s : State) {m : Reg} (k : Word) (hm : m ≠ .pc) :
    s.value (.indOff m k) = s.readMem (s.reg m + k) := by
  simp only [State.value, s.readReg_ok hm, Except.ok_bind]

theorem State.place_reg (s : State) {m : Reg} (hm : m ≠ .pc) : s.place (.reg m) = .ok (.reg m) := by
  simp only [State.place, operandReg_ok hm, Except.ok_bind]

theorem State.place_ind (s : State) {m : Reg} (hm : m ≠ .pc) : s.place (.ind m) = .ok (.mem (s.reg m)) := by
  simp only [State.place, s.readReg_ok hm, Except.ok_bind]

theorem State.place_indOff (s : State) {m : Reg} (k : Word) (hm : m ≠ .pc) :
    s.place (.indOff m k) = .ok (.mem (s.reg m + k)) := by
  simp only [State.place, s.readReg_ok hm, Except.ok_bind]

/-! ### What a move of SP and a push leave unchanged (R192, R194) -/

theorem State.setSp_frame (s : State) (sp : Word) :
    MovedSp s (s.setSp sp) sp ∧ SameMemory s (s.setSp sp) ∧ SameFlags s (s.setSp sp) ∧ SameControl s (s.setSp sp) ∧
      SameDevices s (s.setSp sp) := by
  refine ⟨⟨s.setSp_gpr sp, s.setSp_sp sp, s.setSp_fp sp, s.setReg_otherStack .sp sp⟩,
    State.memWord_congr (s.setSp_mem sp), ?_, ?_, ?_⟩ <;> simp [SameFlags, SameControl, SameDevices]

/-- A store and then a move of SP: the move changes no word, the store no register, flag, control register or device. -/
theorem State.putWord_setSp_frame (s : State) (pa v sp : Word) :
    StoredAt s ((s.putWord pa.toNat v).setSp sp) pa v ∧ MovedSp s ((s.putWord pa.toNat v).setSp sp) sp ∧
      SameFlags s ((s.putWord pa.toNat v).setSp sp) ∧ SameControl s ((s.putWord pa.toNat v).setSp sp) ∧
      SameDevices s ((s.putWord pa.toNat v).setSp sp) := by
  obtain ⟨-, hmem, hflags, hcontrol, hdevices⟩ := (s.putWord pa.toNat v).setSp_frame sp
  obtain ⟨hword, hothers⟩ := s.putWord_stored pa v
  exact ⟨⟨(hmem _).trans hword, fun a ha => (hmem a).trans (hothers a ha)⟩, s.setSp_putWord_movedSp _ v sp, hflags,
    hcontrol, hdevices⟩

/-! ### INC's end (R195, 92 D41) -/

/-- What INC does after its store: Z and N become free values and PC moves on. -/
def State.finishInc (t : State) : State :=
  ({ t with flags := { t.flags with z := t.freeBit, n := (t.skip 1).freeBit } }.skip 2).advance

/-- No register is changed but PC, since SYS, which SP and FP go by, is kept. -/
theorem State.finishInc_reg (t : State) (m : Reg) : t.finishInc.reg m = t.advance.reg m := by
  cases m <;> rfl

theorem State.finishInc_flags {s t : State} (h : t.flags = s.flags) :
    { t.finishInc.flags with z := s.flags.z, n := s.flags.n } = s.flags := by
  rw [← h]; rfl

/-! ### The next state of each instruction -/

theorem execLoad_next {s : State} {rd : Reg} {op : Operand} {v : Word} (hrd : rd ≠ .pc) (hop : s.value op = .ok v) :
    execLoad rd op s = .next (s.setReg rd v).advance := by
  simp only [execLoad, operandReg_ok hrd, hop, Except.ok_bind, State.settle_ok]

theorem execStore_next {s t : State} {rs : Reg} {op : Operand} {p : Place} (hrs : rs ≠ .pc)
    (hplace : s.place op = .ok p) (hstore : s.storeAt p (s.reg rs) = .ok t) : execStore rs op s = .next t.advance := by
  simp only [execStore, s.readReg_ok hrs, hplace, hstore, Except.ok_bind, State.settle_ok]

theorem execPush_next {s t : State} {op : Operand} {v : Word} (hop : s.value op = .ok v) (hpush : s.push v = .ok t) :
    execPush op s = .next t.advance := by
  simp only [execPush, hop, hpush, Except.ok_bind, State.settle_ok]

/-- CALL's operand is read at the state after the push. -/
theorem execCall_next {s t : State} {op : Operand} {a : Word} (hpush : s.push (s.pc + 1) = .ok t)
    (hop : t.value op = .ok a) : execCall op s = .next (t.jump a) := by
  simp only [execCall, hpush, hop, Except.ok_bind, State.settle_ok]

theorem execRet_next {s : State} {a : Word} (hread : s.readMem s.sp = .ok a) :
    execRet s = .next ((s.setSp (s.sp + 1)).jump a) := by
  simp only [execRet, hread, Except.ok_bind, State.settle_ok]

theorem execInc_next {s t : State} {op : Operand} {p : Place} {v : Word} (hplace : s.place op = .ok p)
    (hwritable : p ≠ .unwritable) (hop : s.value op = .ok v) (hstore : s.storeAt p (v + 1) = .ok t) :
    execInc op s = .next t.finishInc := by
  simp only [execInc, State.finishInc, hplace, if_neg hwritable, hop, hstore, Except.ok_bind, State.settle_ok]

/-! ### The obligations -/

/-- Settles O19: LOAD is a write of one register. -/
theorem loadPutsTheOperandValueInTheRegister : Obligations.LoadPutsTheOperandValueInTheRegister :=
  fun s _ _ v hrd hop => ⟨_, execLoad_next hrd hop, s.setReg_advance_wrote v hrd⟩

/-- Settles O20: the place is the translated word, or a register. -/
theorem storeWritesTheAddressedWord : Obligations.StoreWritesTheAddressedWord := by
  refine ⟨fun s rs op a pa hrs hplace htranslate hpa => ?memory, fun s rs rd hrs hrd => ?register⟩
  case memory =>
    obtain ⟨hregs, hcontrol, hflags, hdevices, hpc⟩ := s.putWord_frame pa.toNat (s.reg rs)
    exact ⟨_, execStore_next hrs hplace (State.writeMem_ok _ htranslate hpa), s.putWord_stored pa _,
      congrArg (· + 1) hpc, hregs, hflags, hcontrol, hdevices⟩
  case register => exact ⟨_, execStore_next hrs (s.place_reg hrd) rfl, s.setReg_advance_wrote _ hrd⟩

/-- Settles O22: the operand's value is read first, then pushed. -/
theorem pushStoresBelowSp : Obligations.PushStoresBelowSp := by
  intro s op v pa hop htranslate hpa
  obtain ⟨hstored, hmoved, hflags, hcontrol, hdevices⟩ := s.putWord_setSp_frame pa v (s.sp - 1)
  have hpc := congrArg (· + 1) ((s.putWord pa.toNat v).setSp_pc (s.sp - 1))
  exact ⟨_, execPush_next hop (State.push_ok v htranslate hpa), hstored, hmoved, hpc, hflags, hcontrol, hdevices⟩

/-- Settles O23: CALL is a push and a jump, RET a read, a move of SP and a jump. -/
theorem callPushesAndRetPopsThePc : Obligations.CallPushesAndRetPopsThePc := by
  refine ⟨fun s op pa a htranslate hpa hop => ?call, fun s a hread => ?ret⟩
  case call =>
    exact ⟨_, execCall_next (State.push_ok _ htranslate hpa) hop, rfl, s.putWord_setSp_frame pa _ _⟩
  case ret => exact ⟨_, execRet_next hread, rfl, s.setSp_frame _⟩

/-- Settles O24: after the store only Z, N and PC change, so the frame is that of a written register or word. -/
theorem incAddsOneToItsOperand : Obligations.IncAddsOneToItsOperand := by
  refine ⟨fun s m hm => ?register, fun s op a pa v hplace hop htranslate hpa => ?memory⟩
  case register =>
    obtain ⟨hreg, hpc, hothers, hstack, ⟨hflags, hstop⟩, hcontrol, hmem, hdevices⟩ :=
      s.setReg_advance_wrote (s.reg m + 1) hm
    refine ⟨_, execInc_next (s.place_reg hm) nofun (s.value_reg hm) rfl, ?value, hpc, fun m' hm' hpc' => ?others,
      hstack, State.finishInc_flags hflags, hstop, hcontrol, hmem, hdevices⟩
    case value => exact (State.finishInc_reg _ m).trans hreg
    case others => exact (State.finishInc_reg _ m').trans (hothers m' hm' hpc')
  case memory =>
    obtain ⟨hregs, hcontrol, ⟨hflags, hstop⟩, hdevices, hpc⟩ := s.putWord_frame pa.toNat (v + 1)
    exact ⟨_, execInc_next hplace nofun hop (State.writeMem_ok _ htranslate hpa), s.putWord_stored pa _,
      congrArg (· + 1) hpc, hregs, State.finishInc_flags hflags, hstop, hcontrol, hdevices⟩

/-- Settles O16: a constant and a bracketed constant by definition, the register forms by the read of the register. -/
theorem operandValues : Obligations.OperandValues := fun s _ k _ =>
  ⟨rfl, rfl, rfl, rfl, fun hm => ⟨s.value_reg hm, s.place_reg hm, s.value_ind hm, s.place_ind hm,
    s.value_indOff k hm, s.place_indOff k hm⟩⟩

end Sys2Proof.Machine
end

section
/-! What an instruction can do to the mode, to the halt and to the mark of an interrupt (60_exceptions.md R223 to R226, R231,
R233), said once of every instruction; what its end, its interrupts and the points around it then keep. Settles O3, O4, O9 and
O10. -/

namespace Sys2Proof.Machine

/-! ### The ways an instruction ends in a next state -/

/-- Work either mode can do: the control registers, SYS and the mark of an interrupt are as before, and a halted CPU keeps
having a reason. -/
structure OrdinaryWork (s t : State) : Prop where
  control : SameControl s t
  mode : t.flags.sys = s.flags.sys
  mark : t.interrupted = s.interrupted
  reason : s.HaltedForReason → t.HaltedForReason

/-- Work of system mode: it raises nothing, and a CPU it halts has a reason. -/
structure PrivilegedWork (s t : State) : Prop where
  system : s.flags.sys = true
  mark : t.interrupted = s.interrupted
  reason : s.HaltedForReason → t.HaltedForReason

/-- The ways instruction `i` leads from `s` to a next state. -/
inductive Executed (i : Instr) (s : State) : State → Prop where
  | raised (q : Trap) : Executed i s (s.raise q)
  | gate {op : Operand} {n : Word} {t : State} (hi : i = .syscall op) (hop : s.value op = .ok n)
      (hgate : s.callGate n = .ok t) : Executed i s t
  | ordinary {t : State} (h : OrdinaryWork s t) : Executed i s t
  | privileged {t : State} (h : PrivilegedWork s t) : Executed i s t

/-- An update of none of these fields. -/
theorem OrdinaryWork.of_same {s t : State} (hc : SameControl s t := by exact ⟨rfl, rfl, rfl, rfl, rfl, rfl⟩)
    (hm : t.flags.sys = s.flags.sys := by rfl) (hi : t.interrupted = s.interrupted := by rfl)
    (hr : t.flags.r = s.flags.r := by rfl) (hs : t.stopReason = s.stopReason := by rfl) : OrdinaryWork s t :=
  ⟨hc, hm, hi, fun h => by rw [State.HaltedForReason, hr, hs]; exact h⟩

theorem OrdinaryWork.trans {s t u : State} : OrdinaryWork s t → OrdinaryWork t u → OrdinaryWork s u
  | ⟨⟨h1, h2, h3, h4, h5, h6⟩, hm, hi, hr⟩, ⟨⟨h1', h2', h3', h4', h5', h6'⟩, hm', hi', hr'⟩ =>
    ⟨⟨h1'.trans h1, h2'.trans h2, h3'.trans h3, h4'.trans h4, h5'.trans h5, h6'.trans h6⟩, hm'.trans hm, hi'.trans hi,
      hr' ∘ hr⟩

theorem OrdinaryWork.advance (s : State) : OrdinaryWork s s.advance := .of_same

theorem OrdinaryWork.jump (s : State) (a : Word) : OrdinaryWork s (s.jump a) := .of_same

theorem OrdinaryWork.putWord (s : State) (a : Nat) (v : Word) : OrdinaryWork s (s.putWord a v) := .of_same

theorem OrdinaryWork.setReg (s : State) (m : Reg) (v : Word) : OrdinaryWork s (s.setReg m v) := by
  refine .of_same ?_ ?_ ?_ ?_ ?_ <;> simp [SameControl]

theorem OrdinaryWork.setSp (s : State) (v : Word) : OrdinaryWork s (s.setSp v) := .setReg s .sp v

theorem State.writeReg_ordinary {s t : State} {m : Reg} {v : Word} (h : s.writeReg m v = .ok t) : OrdinaryWork s t := by
  obtain ⟨-, -, h⟩ := Except.bind_ok h
  cases h
  exact .setReg s m v

theorem State.writeMem_ordinary {s t : State} {a v : Word} (h : s.writeMem a v = .ok t) : OrdinaryWork s t := by
  obtain ⟨pa, -, -, rfl⟩ := State.writeMem_cases h
  exact .putWord s _ v

theorem State.push_ordinary {s t : State} {v : Word} (h : s.push v = .ok t) : OrdinaryWork s t := by
  obtain ⟨pa, -, -, rfl⟩ := State.push_cases h
  exact (OrdinaryWork.putWord s _ v).trans (.setSp _ _)

theorem State.storeAt_ordinary {s t : State} {p : Place} {v : Word} (h : s.storeAt p v = .ok t) : OrdinaryWork s t := by
  cases p with
  | reg m => cases h; exact .setReg s m v
  | mem a => exact State.writeMem_ordinary h
  | unwritable => cases h

/-- INC's end writes Z and N. -/
theorem State.finishInc_ordinary (t : State) : OrdinaryWork t t.finishInc := .of_same

theorem PeriChange.ordinary {s u : State} (h : PeriChange s u) : OrdinaryWork s u := by
  obtain ⟨⟨m, g, d, kb, sc, di, ta, ne, se, ho, rfl⟩, -⟩ := h
  exact .of_same

/-- The end of a call writes the register and ERR. -/
theorem State.periResult_ordinary (u : State) (rd : Reg) (result : Word) :
    OrdinaryWork u (u.periResult rd result).advance :=
  have h := OrdinaryWork.setReg u rd result
  ⟨h.control, h.mode, h.mark, h.reason⟩

/-! ### Work of system mode -/

/-- A write of all flags that clears R records the reason (R231, 92 D31). -/
theorem State.setFlags_haltedForReason (s : State) (f : Flags) : (s.setFlags f).HaltedForReason := by
  intro hr
  have hf : f.r = false := hr
  simp [State.setFlags, hf]

theorem State.setSpecial_haltedForReason {s : State} (h : s.HaltedForReason) (k : SReg) (v : Word) :
    (s.setSpecial k v).HaltedForReason := by
  cases k with
  | flags => exact State.setFlags_haltedForReason s _
  | _ => exact h

theorem State.setSpecial_interrupted (s : State) (k : SReg) (v : Word) :
    (s.setSpecial k v).interrupted = s.interrupted := by
  cases k <;> rfl

theorem State.needSystem_cases {s : State} {u : Unit} (h : s.needSystem = .ok u) : s.flags.sys = true := by
  unfold State.needSystem at h
  split at h
  · assumption
  · cases h

theorem State.returnFromInterrupt_privileged {s t : State} (hsys : s.flags.sys = true)
    (h : s.returnFromInterrupt = .ok t) : PrivilegedWork s t := by
  obtain ⟨top, -, h⟩ := Except.bind_ok h
  split at h
  · cases h
  · obtain ⟨low, -, h⟩ := Except.bind_ok h
    obtain ⟨high, -, h⟩ := Except.bind_ok h
    cases h
    exact ⟨hsys, rfl, fun _ => State.setFlags_haltedForReason _ _⟩

/-! ### Every instruction -/

/-- The outcome of work each of whose ends is one of the ways. -/
theorem State.settle_executed {i : Instr} {s t : State} {r : Except Stop State} (h : s.settle r = .next t)
    (hr : WorkEnds (Executed i s) r) : Executed i s t := by
  rcases State.settle_next h with rfl | ⟨q, -, rfl⟩
  · exact hr t rfl
  · exact .raised q

/-- The ends of work that is ordinary. -/
theorem WorkEnds.ordinary {i : Instr} {s t : State} (h : OrdinaryWork s t) : WorkEnds (Executed i s) (.ok t) :=
  .ok (.ordinary h)

/-- The ends of work behind the test for system mode. -/
theorem WorkEnds.privileged {i : Instr} {s : State} {f : Unit → Except Stop State}
    (h : s.flags.sys = true → WorkEnds (PrivilegedWork s) (f ())) :
    WorkEnds (Executed i s) (s.needSystem >>= f) :=
  .bind fun _ hsys t ht => .privileged (h (State.needSystem_cases hsys) t ht)

/-- A flag that user mode may write is not SYS (R36). -/
theorem putFlag_sys {name : FlagName} (h : ¬ isProtected name = true) (f : Flags) (b : Bool) :
    (putFlag f b name).sys = f.sys := by
  cases name with
  | z | n | err => rfl
  | r | sys | ip | vm => exact absurd rfl h

/-- SETFL writes a protected flag in system mode only (R93, 92 D40). -/
theorem execSetfl_executed {i : Instr} {rs : Reg} {f : Word} {s t : State} (h : execSetfl rs f s = .next t) :
    Executed i s t := by
  refine State.settle_executed h (.bind fun name _ => ?_)
  dsimp only
  split
  case isTrue =>
    exact .privileged fun hsys => .bind fun v _ => .ok ⟨hsys, rfl, fun _ => State.setFlags_haltedForReason _ _⟩
  case isFalse hname =>
    exact .bind fun _ _ => .bind fun v _ => .ordinary
      ⟨⟨rfl, rfl, rfl, rfl, rfl, rfl⟩, putFlag_sys hname s.flags _, rfl, fun _ => State.setFlags_haltedForReason _ _⟩

theorem execJcond_executed {i : Instr} {c : Cond} {target : Operand} {s t : State} (h : execJcond c target s = .next t) :
    Executed i s t := by
  refine State.settle_executed h ?_
  cases c with
  | unlisted code => exact .error _ _
  | err => exact .ite (.bind fun a _ => .ordinary (.jump s a)) (.ordinary (.advance s))

theorem execHalt_executed {i : Instr} {s t : State} (h : execHalt s = .next t) : Executed i s t := by
  refine State.settle_executed h ?_
  split
  case isTrue hsys => exact .ok (.privileged ⟨hsys, rfl, fun _ _ => nofun⟩)
  case isFalse => exact .error _ _

theorem execPeri_executed {i : Instr} {rd : Reg} {control : Operand} {s t : State} (h : execPeri rd control s = .next t) :
    Executed i s t := by
  refine State.settle_executed h (.bind fun _ _ => .bind fun _ _ => .bind fun c _ => ?_)
  cases hp : s.periAt c with
  | done result u => exact .ordinary ((State.periAt_change hp).ordinary.trans (u.periResult_ordinary rd result))
  | refuse r => exact .error _ _

/-- Every instruction's next state is reached in one of the four ways. -/
theorem exec_executed {i : Instr} {s t : State} (h : exec i s = .next t) : Executed i s t := by
  cases i with
  | getsr rd k | getfl rd f =>
    exact State.settle_executed h (.bind fun _ _ => .bind fun u hu =>
      .ordinary ((State.writeReg_ordinary hu).trans (.advance u)))
  | setsr rs k =>
    exact State.settle_executed h (.privileged fun hsys => .bind fun r _ => .bind fun v _ =>
      .ok ⟨hsys, s.setSpecial_interrupted r v, fun hs => State.setSpecial_haltedForReason hs r v⟩)
  | setfl rs f => exact execSetfl_executed h
  | flagsj rs target =>
    exact State.settle_executed h (.privileged fun hsys => .bind fun w _ => .bind fun a _ =>
      .ok ⟨hsys, rfl, fun _ => State.setFlags_haltedForReason s _⟩)
  | comp rn op => exact State.settle_executed h (.bind fun a _ => .bind fun b _ => .ordinary .of_same)
  | compz op => exact State.settle_executed h (.bind fun v _ => .ordinary .of_same)
  | jcond c target => exact execJcond_executed h
  | exbr bits | dpbr bits | exbrv bits | dpbrv bits => exact nomatch h
  | sbit rd b | cbit rd b =>
    exact State.settle_executed h (.bind fun n _ => .bind fun v _ =>
      .ordinary ((OrdinaryWork.setReg s rd _).trans (.advance _)))
  | peri rd control => exact execPeri_executed h
  | halt => exact execHalt_executed h
  | syscall index =>
    exact State.settle_executed h (.bind fun n hn => fun u hu => .gate rfl hn hu)
  | iret =>
    exact State.settle_executed h (.privileged fun hsys _ hu => State.returnFromInterrupt_privileged hsys hu)
  | phload bits | phstore bits | clrpp bits => exact State.settle_executed h (.bind fun _ _ => .error _ _)
  | load rd op =>
    exact State.settle_executed h (.bind fun _ _ => .bind fun v _ =>
      .ordinary ((OrdinaryWork.setReg s rd v).trans (.advance _)))
  | store rs op =>
    exact State.settle_executed h (.bind fun v _ => .bind fun p _ => .bind fun u hu =>
      .ordinary ((State.storeAt_ordinary hu).trans (.advance u)))
  | push op =>
    exact State.settle_executed h (.bind fun v _ => .bind fun u hu =>
      .ordinary ((State.push_ordinary hu).trans (.advance u)))
  | call target =>
    exact State.settle_executed h (.bind fun u hu => .bind fun a _ =>
      .ordinary ((State.push_ordinary hu).trans (.jump u a)))
  | ret =>
    exact State.settle_executed h (.bind fun a _ => .ordinary ((OrdinaryWork.setSp s _).trans (.jump _ a)))
  | inc op =>
    exact State.settle_executed h (.bind fun p _ => .ite (.error _ _) (.bind fun _ _ => .bind fun v _ =>
      .bind fun u hu => .ordinary ((State.storeAt_ordinary hu).trans u.finishInc_ordinary)))

/-! ### Where an interrupt and a gate lead -/

theorem EntryChange.control {s t : State} (h : EntryChange s t) : SameControl s t := by
  obtain ⟨pc, sp, f, m, g, d, r, b, rfl, -⟩ := h
  exact ⟨rfl, rfl, rfl, rfl, rfl, rfl⟩

/-- An entry that halts the CPU anew gives a reason. -/
theorem EntryChange.haltedForReason {s t : State} (h : EntryChange s t) (hs : s.HaltedForReason) : t.HaltedForReason := by
  obtain ⟨pc, sp, f, m, g, d, r, b, rfl, -, ⟨hr, hreason⟩ | ⟨-, hreason⟩, -⟩ := h
  · intro hhalted
    exact fun hnone => hs (hr.symm.trans hhalted) (hreason.symm.trans hnone)
  · exact fun _ => hreason

/-- `t`, if it runs in system mode, is at the handler of an entry of the interrupt vector of `s`. -/
def AtHandler (s t : State) : Prop :=
  t.flags.sys = true → t.flags.r = true → ∃ c : IntCode, s.physRead (s.intvec + intNumber c) = .ok t.pc

/-- From user mode an interrupt leads to a handler of the vector, to a stop, or, ignored, back to user mode. -/
theorem State.raise_atHandler {s : State} (q : Trap) (husr : s.flags.sys = false) : AtHandler s (s.raise q) := by
  intro hsys hr
  unfold State.raise at hsys hr ⊢
  dsimp only at hsys hr ⊢
  rcases (s.skip 1).deliver_outcome ⟨q.code, q.address, q.info.getD s.free, s.pc⟩ with
    ⟨u, hu, c, hc⟩ | ⟨u, hu, hstop⟩ | hignored
  · rw [hu]
    exact ⟨c, hc⟩
  · rw [hu] at hr
    exact absurd (hstop.symm.trans hr) (by decide)
  · rw [hignored] at hsys
    exact absurd (husr.symm.trans hsys) (by decide)

/-- A SYSCALL that goes on has an index in range, and its gate cannot be read or holds an entry. -/
theorem State.callGate_cases {s t : State} {n : Word} (h : s.callGate n = .ok t) :
    0 ≤ n.toInt ∧ n.toInt < s.cglen.toInt ∧
      ((∃ e, s.physRead (s.cgbr + n) = .error e ∧ t = s.gateFault false [] (s.pc + 1)) ∨
        ∃ entry, s.physRead (s.cgbr + n) = .ok entry ∧ t = s.enterGate entry) := by
  unfold State.callGate at h
  split at h
  case isTrue => cases h
  case isFalse hrange =>
    refine ⟨by omega, by omega, ?_⟩
    split at h
    case h_1 e he => cases h; exact .inl ⟨e, he, rfl⟩
    case h_2 entry hentry =>
      split at h
      · cases h
      · cases h; exact .inr ⟨entry, hentry, rfl⟩

/-- A gate that cannot be read leads to the handler of INTRFAULT, or to a stop (92 D17). -/
theorem State.gateFault_unread_atHandler (s : State) (returnPc : Word) :
    AtHandler s (s.gateFault false [] returnPc) := by
  intro hsys hr
  unfold State.gateFault at hr ⊢
  rcases (s.skip 2).intrFault_outcome false [] s.free (s.skip 1).free returnPc with ⟨u, hu, hpc⟩ | ⟨u, hu, hstop⟩
  · rw [hu]
    exact ⟨.intrfault, hpc⟩
  · rw [hu] at hr
    exact absurd (hstop.symm.trans hr) (by decide)

theorem State.enterGate_of_complete {s : State} {entry : Word} (h : (s.enterFrame s.gateFrame entry).complete = true) :
    s.enterGate entry = { (s.enterFrame s.gateFrame entry).state with
      gateFrames := (s.enterFrame s.gateFrame entry).state.gateFrames ++
        (s.enterFrame s.gateFrame entry).touched.getLast?.toList } := by
  simp only [State.enterGate, if_pos h]

/-- A frame of SYSCALL that cannot be pushed stops the CPU (70_reset_and_hazards.md R249). -/
theorem State.enterGate_incomplete_stops {s : State} {entry : Word}
    (h : (s.enterFrame s.gateFrame entry).complete = false) : (s.enterGate entry).flags.r = false := by
  obtain ⟨u, hu, hstop, -⟩ := State.intrFault_after_entry 2 h true (s.enterFrame s.gateFrame entry).touched
    (s.enterFrame s.gateFrame entry).state.free ((s.enterFrame s.gateFrame entry).state.skip 1).free (s.pc + 1)
  simp only [State.enterGate, if_neg (ne_true_of_eq_false h), State.gateFault, hu]
  exact hstop

/-- A gate that is entered with the CPU running has PC at its entry. -/
theorem State.enterGate_pc {s : State} {entry : Word} (h : (s.enterGate entry).flags.r = true) :
    (s.enterGate entry).pc = entry := by
  cases hc : (s.enterFrame s.gateFrame entry).complete with
  | true =>
    obtain ⟨sp, m, g, hstate, -⟩ := State.enterFrame_shape s s.gateFrame entry
    rw [State.enterGate_of_complete hc, hstate, if_pos hc]
  | false => exact absurd ((State.enterGate_incomplete_stops hc).symm.trans h) (by decide)

/-- A gate whose whole frame is pushed raises nothing. -/
theorem State.enterGate_mark {s : State} {entry : Word} (h : (s.enterFrame s.gateFrame entry).complete = true) :
    (s.enterGate entry).interrupted = s.interrupted := by
  obtain ⟨sp, m, g, hstate, -⟩ := State.enterFrame_shape s s.gateFrame entry
  rw [State.enterGate_of_complete h, hstate]

/-- Settles O10: user mode leaves the control registers alone in every way an instruction ends, and leaves itself only by
an interrupt or a gate. -/
theorem userModeReachesSystemModeOnlyThroughVectors : Obligations.UserModeReachesSystemModeOnlyThroughVectors := by
  intro i s t husr hexec
  cases exec_executed hexec with
  | raised q => exact ⟨(s.raise_change q).control, fun hsys hr => .inl (State.raise_atHandler q husr hsys hr)⟩
  | @gate op n _ hi hop hgate =>
    refine ⟨(State.callGate_change hgate).control, fun hsys hr => ?_⟩
    obtain ⟨hlow, hhigh, ⟨e, -, rfl⟩ | ⟨entry, hentry, rfl⟩⟩ := State.callGate_cases hgate
    · exact .inl (s.gateFault_unread_atHandler _ hsys hr)
    · exact .inr ⟨op, n, hi, hop, hlow, hhigh, by rw [State.enterGate_pc hr]; exact hentry⟩
  | ordinary h => exact ⟨h.control, fun hsys => absurd ((h.mode.trans husr).symm.trans hsys) (by decide)⟩
  | privileged h => exact absurd (husr.symm.trans h.system) (by decide)

/-! ### The reason for a halt (R231) -/

/-- A delivery that leads to a next state, entered or stopped, is an entry's change. -/
theorem State.deliver_change {s t : State} {q : Request} (h : s.deliver q = .entered t ∨ s.deliver q = .stopped t) :
    EntryChange s t := by
  have hfrom := State.deliver_from s q
  rcases h with hentered | hstopped
  · rwa [hentered] at hfrom
  · rw [hstopped] at hfrom
    exact hfrom.1

theorem State.debugPoint_change {s t : State} (h : s.debugPoint = some t) : EntryChange s t := by
  unfold State.debugPoint at h
  split at h
  · split at h
    case h_1 u hu => cases h; exact (EntryChange.skip s 1).trans (State.deliver_change (.inl hu))
    case h_2 u hu => cases h; exact (EntryChange.skip s 1).trans (State.deliver_change (.inr hu))
    case h_3 => cases h
  · cases h

theorem State.keyboardPoint_change {s t : State} (h : s.keyboardPoint = some t) : EntryChange s t := by
  unfold State.keyboardPoint at h
  split at h
  · cases h
  · split at h
    case h_1 u hu => cases h; exact (EntryChange.skip s 2).trans (State.deliver_change (.inl hu))
    case h_2 u hu => cases h; exact (EntryChange.skip s 2).trans (State.deliver_change (.inr hu))
    case h_3 => cases h

theorem State.beforeFetch_change {s t : State} (h : s.beforeFetch = some t) : EntryChange s t := by
  unfold State.beforeFetch at h
  split at h
  case h_1 u hu => cases h; exact State.debugPoint_change hu
  case h_2 => exact State.keyboardPoint_change h

/-- The TIMER point is a count and, where TIMER is signalled, an entry's change after it. -/
theorem State.timerPoint_change (s : State) :
    s.timerPoint = s ∨ EntryChange { s with timer := s.timer - 1 } s.timerPoint := by
  unfold State.timerPoint
  dsimp only
  split
  · exact .inl rfl
  · refine .inr ?_
    split
    · split
      case h_1 u hu => exact (EntryChange.skip _ 2).trans (State.deliver_change (.inl hu))
      case h_2 u hu => exact (EntryChange.skip _ 2).trans (State.deliver_change (.inr hu))
      case h_3 => exact .refl _
    · exact .refl _

theorem State.endStep_haltedForReason {s : State} (h : s.HaltedForReason) : s.endStep.HaltedForReason := by
  unfold State.endStep
  split
  · exact h
  · rcases s.timerPoint_change with hsame | hchange
    · rwa [hsame]
    · exact hchange.haltedForReason h

/-- The host's arrivals are no business of the flags and of the reason for a halt. -/
theorem State.beginStep_haltedForReason {s : State} (h : s.HaltedForReason) : s.beginStep.HaltedForReason := by
  cases harrivals : s.host.arrivals with
  | nil => rw [State.beginStep_quiet harrivals]; exact h
  | cons a rest =>
    obtain ⟨kb, d, ne, hbegin, -⟩ := State.beginStep_shape harrivals
    rw [hbegin]
    exact h

theorem exec_haltedForReason {i : Instr} {s t : State} (h : exec i s = .next t) (hs : s.HaltedForReason) :
    t.HaltedForReason := by
  cases exec_executed h with
  | raised q => exact (s.raise_change q).haltedForReason hs
  | gate _ _ hgate => exact (State.callGate_change hgate).haltedForReason hs
  | ordinary hwork => exact hwork.reason hs
  | privileged hwork => exact hwork.reason hs

theorem step_haltedForReason {s t : State} (h : step s = .next t) (hs : s.HaltedForReason) : t.HaltedForReason := by
  have hbegin := State.beginStep_haltedForReason hs
  rcases step_cases h with ⟨-, rfl⟩ | ⟨-, hpoint | ⟨-, ⟨e, -, hsettle⟩ | ⟨i, u, -, hexec, rfl⟩⟩⟩
  · exact hs
  · exact (State.beforeFetch_change hpoint).haltedForReason hbegin
  · rcases State.settle_next hsettle with hok | ⟨q, -, rfl⟩
    · cases hok
    · exact (s.beginStep.raise_change q).haltedForReason hbegin
  · exact State.endStep_haltedForReason (exec_haltedForReason hexec hbegin)

/-- A halted CPU changes no state. -/
theorem step_halted {s : State} (h : s.flags.r = false) : step s = .next s := if_pos h

/-- Settles O9: a step of a halted CPU is no step, and every way a step can end keeps the invariant. -/
theorem stepKeepsHaltReasons : Obligations.StepKeepsHaltReasons := by
  refine fun s t hstep => ⟨fun hhalted => ?halted, step_haltedForReason hstep⟩
  case halted =>
    rw [step_halted hhalted] at hstep
    cases hstep
    rfl

/-! ### The fetch and what follows it (R223) -/

theorem State.fetch_unreadable {s : State} {e : Stop} (h : s.readMem s.pc = .error e) : s.fetch = .error e := by
  simp only [State.fetch, h, Except.error_bind]

theorem State.fetch_instr {s : State} {w : Word} {i : Instr} (h : s.readMem s.pc = .ok w)
    (hw : decodeWord s.params w = some (.instr i)) : s.fetch = .ok i := by
  simp only [State.fetch, h, Except.ok_bind, hw]

theorem State.fetch_unimplemented {s : State} {w : Word} (h : s.readMem s.pc = .ok w)
    (hw : decodeWord s.params w = some .unimplemented) : s.fetch = .error (.trap ⟨.unimpop, s.pc, none⟩) := by
  simp only [State.fetch, h, Except.ok_bind, hw]

theorem State.fetch_notInSource {s : State} {w : Word} (h : s.readMem s.pc = .ok w)
    (hw : decodeWord s.params w = some .notInSource) : s.fetch = .error (.refuse .instructionNotInSource) := by
  simp only [State.fetch, h, Except.ok_bind, hw]

theorem State.fetch_unknown {s : State} {w : Word} (h : s.readMem s.pc = .ok w) (hw : decodeWord s.params w = none) :
    s.fetch = .error (.refuse .wordOfUnknownStatus) := by
  simp only [State.fetch, h, Except.ok_bind, hw]

section
variable {s : State} (hruns : s.flags.r = true) (hpoint : s.beginStep.beforeFetch = none)
include hruns hpoint

theorem step_of_fetch_error {e : Stop} (h : s.beginStep.fetch = .error e) : step s = s.beginStep.settle (.error e) := by
  simp only [step, hruns, hpoint, h, Bool.true_eq_false, if_false]

theorem step_of_exec_next {i : Instr} {t : State} (h : s.beginStep.fetch = .ok i) (hexec : exec i s.beginStep = .next t) :
    step s = .next t.endStep := by
  simp only [step, hruns, hpoint, h, hexec, Bool.true_eq_false, if_false]

theorem step_of_exec_refused {i : Instr} {r : Refusal} (h : s.beginStep.fetch = .ok i)
    (hexec : exec i s.beginStep = .refused r) : step s = .refused r := by
  simp only [step, hruns, hpoint, h, hexec, Bool.true_eq_false, if_false]

end

theorem State.endStep_of_mark {s : State} (h : s.interrupted = true) : s.endStep = s := if_pos h

theorem State.endStep_of_no_mark {s : State} (h : s.interrupted = false) : s.endStep = s.timerPoint :=
  if_neg (ne_true_of_eq_false h)

/-- Only a raised interrupt and a gate that fails (92 D17) set the mark. -/
theorem exec_marked {i : Instr} {s t : State} (hs : s.interrupted = false) (h : exec i s = .next t)
    (ht : t.interrupted = true) :
    (∃ q : Trap, t = s.raise q) ∨
      ∃ (op : Operand) (n : Word), i = .syscall op ∧ s.value op = .ok n ∧
        ∀ entry : Word, s.physRead (s.cgbr + n) = .ok entry → (s.enterFrame s.gateFrame entry).complete = false := by
  cases exec_executed h with
  | raised q => exact .inl ⟨q, rfl⟩
  | @gate op n _ hi hop hgate =>
    refine .inr ⟨op, n, hi, hop, fun entry hentry => ?_⟩
    obtain ⟨-, -, ⟨e, he, -⟩ | ⟨entry', hentry', rfl⟩⟩ := State.callGate_cases hgate
    · cases he.symm.trans hentry
    · cases hentry'.symm.trans hentry
      refine Bool.eq_false_iff.mpr fun hcomplete => ?_
      exact absurd (((State.enterGate_mark hcomplete).trans hs).symm.trans ht) (by decide)
  | ordinary hwork => exact absurd ((hwork.mark.trans hs).symm.trans ht) (by decide)
  | privileged hwork => exact absurd ((hwork.mark.trans hs).symm.trans ht) (by decide)

/-- Settles O3: the outcome of the fetch decides the step, and the mark on the next state its end. -/
theorem stepExecutesTheDecodedInstruction : Obligations.StepExecutesTheDecodedInstruction := by
  intro s hruns hpoint
  refine ⟨fun w i hw hi => ?fetched, fun q hq => ?unreadable, s.raise_interrupted⟩
  case fetched =>
    have hfetch := State.fetch_instr hw hi
    exact ⟨fun t hexec => ⟨step_of_exec_next hruns hpoint hfetch hexec, State.endStep_of_mark, State.endStep_of_no_mark,
      exec_marked rfl hexec⟩, fun r hexec => step_of_exec_refused hruns hpoint hfetch hexec⟩
  case unreadable =>
    obtain ⟨q', hq', -, hcode⟩ := State.readMem_error hq
    cases hq'
    exact ⟨step_of_fetch_error hruns hpoint (State.fetch_unreadable hq), hcode⟩

/-- Settles O4: each of the three meanings ends the fetch, and so the step. -/
theorem unimplementedWordRaisesUnimpop : Obligations.UnimplementedWordRaisesUnimpop := fun _ _ hruns hpoint hw =>
  ⟨fun h => step_of_fetch_error hruns hpoint (State.fetch_unimplemented hw h),
    fun h => step_of_fetch_error hruns hpoint (State.fetch_unknown hw h),
    fun h => step_of_fetch_error hruns hpoint (State.fetch_notInSource hw h)⟩

end Sys2Proof.Machine
end

section
/-! The entry of an interrupt (60_exceptions.md R200, R201, R213 to R218, R226, R227): the frame of a completed entry and what
it leaves unchanged, interrupts that are not handled, deliveries that fail, the points of a step that signal TIMER, DEBUG and
KEYBD, and the IRET that undoes an entry (R220). Settles O39 to O45. -/

namespace Sys2Proof.Machine

theorem SameDevices.params {s t : State} (h : SameDevices s t) : t.params = s.params := by
  obtain ⟨-, -, -, -, -, -, -, hparams⟩ := h
  exact hparams

/-! ### A completed entry (R217, R218) -/

/-- `t` is `s` with SYS and IP on, PC at `entry` and `n` words more on the system stack, but for memory and the model's own
fields. -/
def EntersAt (s t : State) (entry n : Word) : Prop :=
  t.pc = entry ∧ t.flags = { s.flags with sys := true, ip := true } ∧ t.stopReason = s.stopReason ∧
    t.sysSp = s.sysSp - n ∧ t.sysFp = s.sysFp ∧ t.usrSp = s.usrSp ∧ t.usrFp = s.usrFp ∧ t.gpr = s.gpr ∧
    SameControl s t ∧ SameDevices s t

theorem State.enterFrame_entersAt {s : State} {frame : List Word} {entry : Word}
    (h : (s.enterFrame frame entry).complete = true) :
    EntersAt s (s.enterFrame frame entry).state entry (BitVec.ofNat 32 frame.length) ∧
      ∀ a : Nat, a ∉ (s.enterFrame frame entry).touched →
        (s.enterFrame frame entry).state.memWord a = s.memWord a := by
  obtain ⟨sp, m, g, hstate, hmem, -, -, -, hsp⟩ := State.enterFrame_shape s frame entry
  refine ⟨?shape, fun a ha => ?memory⟩
  case shape =>
    rw [hstate]
    exact ⟨if_pos h, rfl, rfl, hsp h, rfl, rfl, rfl, rfl, ⟨rfl, rfl, rfl, rfl, rfl, rfl⟩,
      ⟨rfl, rfl, rfl, rfl, rfl, rfl, rfl, rfl⟩⟩
  case memory => simp only [hstate, State.memWord, hmem a ha]

/-- Settles O41: the shape of a run of pushes, complete, with PC at the entry point. -/
theorem completedEntryChangesOnlyTheSystemStack : Obligations.CompletedEntryChangesOnlyTheSystemStack := by
  intro s frame entry hcomplete
  obtain ⟨⟨hpc, hflags, hreason, hsp, hfp, husp, hufp, hgpr, hcontrol, hdevices⟩, hmem⟩ :=
    State.enterFrame_entersAt hcomplete
  exact ⟨_, rfl, hpc, hflags, hreason, hsp, hfp, husp, hufp, hgpr, hcontrol, hdevices, hmem⟩

/-- The 21 words, first pushed first: R0 to R12, SP, FP, PC, information, address, code, oldflags, 40. -/
theorem State.interruptFrame_eq (s : State) (q : Request) (oldflags savedSp : Word) :
    s.interruptFrame q oldflags savedSp =
      s.gpr.toList ++ [savedSp, s.sysFp, q.savedPc, q.info, q.address, intNumber q.code, oldflags, 40] :=
  List.append_assoc ..

/-- `t` is `s` with the handler `h` of the interrupt `q` entered and its 21 words below the old SYSSP, none of them taken for
the top of a SYSCALL frame. -/
structure EntersHandler (s t : State) (h : Word) (q : Request) (oldflags savedSp : Word) : Prop where
  enters : EntersAt s t h 21
  frame : FrameBelow s t s.sysSp
    (s.gpr.toList ++ [savedSp, s.sysFp, q.savedPc, q.info, q.address, intNumber q.code, oldflags, 40])
  fresh : ∀ j < 21, s.sysSp.toNat - 1 - j ∉ t.gateFrames

theorem State.enterFrame_entersHandler {s : State} (h : Word) (q : Request) (oldflags savedSp : Word)
    (hvm : s.flags.vm = false) (hlow : 21 ≤ s.sysSp.toNat) (hhigh : s.sysSp.toNat ≤ s.params.physWords) :
    (s.enterFrame (s.interruptFrame q oldflags savedSp) h).complete = true ∧
      EntersHandler s (s.enterFrame (s.interruptFrame q oldflags savedSp) h).state h q oldflags savedSp := by
  obtain ⟨hcomplete, htouched, hframe, m, g, hstate, hfresh⟩ :=
    State.enterFrame_plain (frame := s.interruptFrame q oldflags savedSp) h hvm (by simpa using hlow) hhigh
  refine ⟨hcomplete, ?enters, ?frame, fun j hj hmem => ?fresh⟩
  case enters => simpa using (State.enterFrame_entersAt hcomplete).1
  case frame => rwa [State.interruptFrame_eq] at hframe ⊢
  case fresh =>
    rw [hstate] at hmem
    refine hfresh _ hmem ?_
    rw [htouched, State.interruptFrame_length]
    exact List.mem_map_of_mem (List.mem_range.mpr hj)

theorem getD_registers_append (v : Vector Word 13) (l : List Word) (n : Fin 13) :
    (v.toList ++ l).getD n 0 = v[n] := by
  simp [List.getD, List.getElem?_append_left]

theorem getD_append_registers (v : Vector Word 13) (l : List Word) (k : Nat) :
    (v.toList ++ l).getD (13 + k) 0 = l.getD k 0 := by
  simp [List.getD, List.getElem?_append_right]

section
variable {s t : State} {h oldflags savedSp : Word} {q : Request} (ht : EntersHandler s t h q oldflags savedSp)
include ht

/-- The first thirteen words of the frame are R0 to R12. -/
theorem EntersHandler.register (n : Fin 13) : t.memWord (s.sysSp.toNat - 1 - n) = s.gpr[n] := by
  have hn := n.isLt
  rw [ht.frame.1 n (by simp; omega), getD_registers_append]

/-- The eight words of the frame after the registers. -/
theorem EntersHandler.word {k : Nat} (hk : k < 8) :
    t.memWord (s.sysSp.toNat - (14 + k)) =
      [savedSp, s.sysFp, q.savedPc, q.info, q.address, intNumber q.code, oldflags, 40].getD k 0 := by
  have hplace : s.sysSp.toNat - (14 + k) = s.sysSp.toNat - 1 - (13 + k) := by omega
  rw [hplace, ht.frame.1 (13 + k) (by simp; omega), getD_append_registers]

end

/-- What a delivery from `s` needs to be an entry: IP = 0, VM off, handler `h` in the vector, room for the 21 words. -/
structure CanEnter (s : State) (c : IntCode) (h : Word) : Prop where
  ip : s.flags.ip = false
  vm : s.flags.vm = false
  handler : s.physRead (s.intvec + intNumber c) = .ok h
  nonzero : h ≠ 0
  low : 21 ≤ s.sysSp.toNat
  high : s.sysSp.toNat ≤ s.params.physWords

/-- Such a delivery enters the handler; the free values used before it change nothing of that. -/
theorem CanEnter.deliver {s : State} {q : Request} {h : Word} (hs : CanEnter s q.code h) (n : Nat) :
    ∃ t, (s.skip n).deliver q = .entered t ∧ EntersHandler s t h q (flagsWord s.flags) (s.sysSp - 13) := by
  obtain ⟨-, henters, hframe, hfresh⟩ := State.enterFrame_entersHandler (s := s.skip n) h q (flagsWord s.flags)
    (s.sysSp - 13) hs.vm hs.low hs.high
  exact ⟨_, State.deliver_plain (s := s.skip n) hs.ip hs.vm hs.handler hs.nonzero hs.low hs.high, henters, hframe, hfresh⟩

/-- An interrupt raised by an instruction is delivered with the instruction's address as the saved PC. -/
theorem CanEnter.raise {s : State} {q : Trap} {h : Word} (hs : CanEnter s q.code h) :
    EntersHandler s (s.raise q) h ⟨q.code, q.address, q.info.getD s.free, s.pc⟩ (flagsWord s.flags) (s.sysSp - 13) := by
  obtain ⟨t, hdeliver, henters, hframe, hfresh⟩ :=
    hs.deliver (q := ⟨q.code, q.address, q.info.getD s.free, s.pc⟩) 1
  have hraise : s.raise q = { t with interrupted := true } := by
    simp only [State.raise, hdeliver, Delivered.raised]
  rw [hraise]
  exact ⟨henters, hframe, hfresh⟩

/-- Settles O40: the handler entered by an interrupt that is raised. -/
theorem interruptEntryPushesTheFrame : Obligations.InterruptEntryPushesTheFrame := by
  intro s q h hip hvm hh h0 hlow hhigh
  obtain ⟨⟨hpc, hflags, hreason, hsp, hfp, husp, hufp, hgpr, hcontrol, hdevices⟩, hframe, -⟩ :=
    CanEnter.raise ⟨hip, hvm, hh, h0, hlow, hhigh⟩
  exact ⟨_, q.info.getD s.free, rfl, fun x hx => by rw [hx]; rfl, hpc, hflags, hreason, hsp, hfp, husp, hufp, hgpr,
    hcontrol, hdevices, hframe⟩

/-! ### IRET undoes an entry (R220) -/

/-- FLAGS holds every flag. -/
theorem flagsOfWord_flagsWord (f : Flags) : flagsOfWord (flagsWord f) = f := by
  have hflag : ∀ name, getFlag (flagsOfWord (flagsWord f)) name = getFlag f name := fun name => by
    rw [getFlag_flagsOfWord, flagsWord_getLsbD]
  exact (Flags.mk.injEq ..).mpr
    ⟨hflag .r, hflag .z, hflag .n, hflag .err, hflag .sys, hflag .ip, hflag .vm⟩

theorem State.wordsAt_getD (s : State) (a : Nat) {n i : Nat} (hi : i < n) : (s.wordsAt a n).getD i 0 = s.memWord (a + i) := by
  simp [State.wordsAt, List.getD, hi]

/-- Words of a plain range read one after the other. -/
theorem State.readAll_wordRange {s : State} {a : Word} {n : Nat} (h : PlainRange s a n) :
    s.readAll (wordRange a n) = .ok (s.wordsAt a.toNat n) := by
  obtain ⟨hvm, hphys, hspace⟩ := h
  have htoNat : ∀ i ∈ List.range n, (a + BitVec.ofNat 32 i).toNat = a.toNat + i := fun i hi => by
    have := List.mem_range.mp hi
    rw [BitVec.toNat_add, BitVec.toNat_ofNat]
    omega
  rw [State.readAll_plain s hvm]
  · rw [wordRange, List.map_map, State.wordsAt]
    exact congrArg _ (List.map_congr_left fun i hi => congrArg s.memWord (htoNat i hi))
  · intro b hb
    obtain ⟨i, hi, rfl⟩ := List.mem_map.mp hb
    have := List.mem_range.mp hi
    rw [htoNat i hi]
    omega

section
variable {s t : State} {h oldflags savedSp : Word} {q : Request} (ht : EntersHandler s t h q oldflags savedSp)
  (hlow : 21 ≤ s.sysSp.toNat)
include ht hlow

/-- Read upward from SP, the words after the registers come last first. -/
theorem EntersHandler.low_words {k : Nat} (hk : k < 8) : (t.wordsAt (s.sysSp.toNat - 21) 8).getD k 0 =
    [savedSp, s.sysFp, q.savedPc, q.info, q.address, intNumber q.code, oldflags, 40].getD (7 - k) 0 := by
  have hplace : s.sysSp.toNat - 21 + k = s.sysSp.toNat - (14 + (7 - k)) := by omega
  rw [State.wordsAt_getD _ _ hk, hplace, ht.word (by omega)]

/-- So do the registers, read upward from the saved SP. -/
theorem EntersHandler.high_words (n : Fin 13) : (t.wordsAt (s.sysSp.toNat - 13) 13).getD (12 - n) 0 = s.gpr[n] := by
  have hn := n.isLt
  have hplace : s.sysSp.toNat - 13 + (12 - n) = s.sysSp.toNat - 1 - n := by omega
  rw [State.wordsAt_getD _ _ (by omega), hplace, ht.register n]

/-- With VM off, words of physical memory up to the old SYSSP can be read. -/
theorem EntersHandler.readAll (hvm : s.flags.vm = false) (hhigh : s.sysSp.toNat ≤ s.params.physWords) {a : Word}
    {n : Nat} (ha : a.toNat + n ≤ s.sysSp.toNat) : t.readAll (wordRange a n) = .ok (t.wordsAt a.toNat n) := by
  obtain ⟨-, hflags, -, -, -, -, -, -, -, hdevices⟩ := ht.enters
  have hparams := hdevices.params
  have hspace := s.sysSp.isLt
  exact State.readAll_wordRange ⟨by rw [hflags]; exact hvm, by rw [hparams]; omega, by omega⟩

end

/-- An address less a number no greater. -/
theorem toNat_sub_of_le {a : Word} {n : Nat} (h : n ≤ a.toNat) : (a - BitVec.ofNat 32 n).toNat = a.toNat - n := by
  have := a.isLt
  rw [BitVec.toNat_sub_of_le (by rw [BitVec.le_def, BitVec.toNat_ofNat]; omega), BitVec.toNat_ofNat]
  omega

/-- IRET from a handler just entered pops the words of the frame. -/
theorem EntersHandler.iret {s t : State} {h : Word} {q : Request}
    (ht : EntersHandler s t h q (flagsWord s.flags) (s.sysSp - 13)) (hvm : s.flags.vm = false)
    (hlow : 21 ≤ s.sysSp.toNat) (hhigh : s.sysSp.toNat ≤ s.params.physWords) :
    exec .iret t = .next (t.restore (t.wordsAt (s.sysSp.toNat - 21) 8) (t.wordsAt (s.sysSp.toNat - 13) 13)) := by
  obtain ⟨-, hflags, -, hsp, -⟩ := ht.enters
  have hsys : t.flags.sys = true := by rw [hflags]
  have htvm : t.flags.vm = false := by rw [hflags]; exact hvm
  have hframe : (s.sysSp - 21).toNat = s.sysSp.toNat - 21 := toNat_sub_of_le hlow
  have hsaved : (s.sysSp - 13).toNat = s.sysSp.toNat - 13 := toNat_sub_of_le (Nat.le_trans (by decide) hlow)
  have hsavedSp : (t.wordsAt (s.sysSp.toNat - 21) 8).getD 7 0 = s.sysSp - 13 := ht.low_words hlow (by decide)
  have htop : t.sp = s.sysSp - 21 := (State.sp_of_system hsys).trans hsp
  rw [exec_iret, execIret_system hsys, State.returnFromInterrupt_restores (State.translate_vm_off htvm _) ?fresh ?low
    ?high, State.settle_ok]
  case fresh => rw [htop, hframe]; exact ht.fresh 20 (by decide)
  case low => rw [htop, ht.readAll hlow hvm hhigh (by omega), hframe]
  case high => rw [hsavedSp, ht.readAll hlow hvm hhigh (by omega), hsaved]

/-- Settles O39: the words IRET pops are those the entry pushed. -/
theorem iretUndoesInterruptEntry : Obligations.IretUndoesInterruptEntry := by
  intro s q h hip hr hvm hh h0 hlow hhigh
  have hentry := CanEnter.raise (q := q) ⟨hip, hvm, hh, h0, hlow, hhigh⟩
  obtain ⟨-, -, hreason, -, -, husp, hufp, -, hcontrol, hdevices⟩ := hentry.enters
  have hflags := (congrArg flagsOfWord (hentry.low_words hlow (k := 1) (by decide))).trans (flagsOfWord_flagsWord _)
  have hpc := hentry.low_words hlow (k := 5) (by decide)
  have hfp := hentry.low_words hlow (k := 6) (by decide)
  have hsavedSp := hentry.low_words hlow (k := 7) (by decide)
  refine ⟨_, hentry.iret hvm hlow hhigh, ?gpr, hflags, hpc, ⟨?gpr, ?sysSp, hfp, husp, hufp⟩, ?reason, hcontrol, hdevices⟩
  case gpr =>
    refine Vector.ext fun n hn => ?_
    exact (State.restore_gpr _ _ _ ⟨n, hn⟩).trans (hentry.high_words hlow ⟨n, hn⟩)
  case sysSp => exact (congrArg (· + 13) hsavedSp).trans (BitVec.sub_add_cancel s.sysSp 13)
  case reason => exact (if_pos ((congrArg Flags.r hflags).trans hr)).trans hreason

/-! ### Interrupts that are not handled (R200, R201, R215) -/

/-- With IP = 1 or a zero vector entry an interrupt is not handled. -/
theorem State.deliver_unhandled {s : State} {q : Request}
    (h : s.flags.ip = true ∨ s.physRead (s.intvec + intNumber q.code) = .ok 0) : s.deliver q = s.unhandled q.code := by
  unfold State.deliver
  split
  case isTrue => rfl
  case isFalse hip =>
    rw [h.resolve_left hip]
    exact if_pos rfl

/-- A stopped CPU: R off, the interrupt as the reason, all else as before. -/
theorem State.stop_frame (s : State) (c : IntCode) :
    (s.stop c).flags = { s.flags with r := false } ∧ (s.stop c).stopReason = some (.fatalInterrupt c) ∧
      (s.stop c).pc = s.pc ∧ SameRegisters s (s.stop c) ∧ SameControl s (s.stop c) ∧ SameMemory s (s.stop c) ∧
      SameDevices s (s.stop c) :=
  ⟨rfl, rfl, rfl, ⟨rfl, rfl, rfl, rfl, rfl⟩, ⟨rfl, rfl, rfl, rfl, rfl, rfl⟩, fun _ => rfl,
    ⟨rfl, rfl, rfl, rfl, rfl, rfl, rfl, rfl⟩⟩

/-- Every interrupt that is raised is fatal, but for the notifications and DEBUG (R201). -/
theorem isFatal_of_ne (p : Params) {c : IntCode} (htimer : c ≠ .timer) (hkeybd : c ≠ .keybd) (hdebug : c ≠ .debug) :
    isFatal p c = true := by
  cases c with
  | timer => exact absurd rfl htimer
  | keybd => exact absurd rfl hkeybd
  | debug => exact absurd rfl hdebug
  | _ => rfl

/-- Settles O42: the class of an interrupt that is not handled decides between a stop and nothing. -/
theorem unhandledInterruptStopsOrIsIgnored : Obligations.UnhandledInterruptStopsOrIsIgnored := by
  refine ⟨rfl, fun p => ⟨rfl, rfl, rfl, fun c _ => isFatal_of_ne p⟩, fun s q h => ?outcome⟩
  case outcome =>
    rw [State.deliver_unhandled h]
    exact ⟨fun hfatal => ⟨_, if_pos hfatal, s.stop_frame q.code⟩, fun hnot => if_neg (ne_true_of_eq_false hnot)⟩

/-! ### Deliveries that fail (R214, 70_reset_and_hazards.md R249) -/

theorem State.deliver_unreadable {s : State} {q : Request} (hip : s.flags.ip = false)
    (h : s.params.physWords ≤ (s.intvec + intNumber q.code).toNat) :
    s.deliver q = s.intrFault false [] q.address (intNumber q.code) q.savedPc := by
  simp only [State.deliver, if_neg (ne_true_of_eq_false hip), State.physRead_fails h]

/-- INTRFAULT with its handler in the vector, VM off and room for the frame; its oldflags word is below 128 (R35). -/
theorem State.intrFault_enters {s : State} {h : Word} (begun : Bool) (touched : List Nat) (address info savedPc : Word)
    (hvm : s.flags.vm = false) (hh : s.physRead (s.intvec + 13) = .ok h) (h0 : h ≠ 0) (hlow : 21 ≤ s.sysSp.toNat)
    (hhigh : s.sysSp.toNat ≤ s.params.physWords) :
    ∃ t, s.intrFault begun touched address info savedPc = .entered t ∧
      EntersHandler s t h ⟨.intrfault, address, info, savedPc⟩ (s.free &&& 0x7F) (s.skip 1).free := by
  obtain ⟨hcomplete, henters, hframe, hfresh⟩ := State.enterFrame_entersHandler (s := s.skip 2) h
    ⟨.intrfault, address, info, savedPc⟩ (s.free &&& 0x7F) (s.skip 1).free hvm hlow hhigh
  refine ⟨_, ?_, henters, hframe, hfresh⟩
  have hh' : s.physRead (s.intvec + intNumber .intrfault) = .ok h := hh
  simp only [State.intrFault, hh', if_neg h0, if_pos hcomplete]

/-- INTRFAULT without a handler. -/
theorem State.intrFault_unhandled {s : State} (begun : Bool) (touched : List Nat) (address info savedPc : Word)
    (h : s.params.physWords ≤ (s.intvec + 13).toNat ∨ s.physRead (s.intvec + 13) = .ok 0) :
    s.intrFault begun touched address info savedPc = .stopped (s.stopInDelivery begun touched) := by
  unfold State.intrFault
  rcases h with hhigh | hzero
  · have hread : s.physRead (s.intvec + intNumber .intrfault) = _ := State.physRead_fails hhigh
    rw [hread]
  · have hread : s.physRead (s.intvec + intNumber .intrfault) = .ok 0 := hzero
    rw [hread]
    exact if_pos rfl

/-- Memory outside the given addresses is not scrambled. -/
theorem State.scramble_shape (as : List Nat) (s : State) :
    ∃ (m : Memory) (g : List Nat) (d : Nat), s.scramble as = { s with mem := m, gateFrames := g, draws := d } ∧
      ∀ a, a ∉ as → Memory.read m a = Memory.read s.mem a := by
  induction as generalizing s with
  | nil => exact ⟨_, _, _, rfl, fun _ _ => rfl⟩
  | cons b as ih =>
    obtain ⟨m, g, d, hstate, hmem⟩ := ih ((s.putWord b s.free).skip 1)
    refine ⟨m, g, d, hstate, fun a ha => ?_⟩
    obtain ⟨hab, has⟩ := not_or.mp (mt List.mem_cons.mpr ha)
    exact (hmem a has).trans (Memory.read_write_other s.mem s.free hab)

/-- `t` is `s` stopped by INTRFAULT after pushes to the addresses `touched`: beside those words, SYSSP and the flags it is as
`s`. -/
def StoppedInEntry (s t : State) (touched : List Nat) : Prop :=
  t.flags.r = false ∧ t.stopReason = some (.fatalInterrupt .intrfault) ∧ t.pc = s.pc ∧ t.gpr = s.gpr ∧
    t.sysFp = s.sysFp ∧ t.usrSp = s.usrSp ∧ t.usrFp = s.usrFp ∧ SameControl s t ∧
    (∀ a : Nat, a ∉ touched → t.memWord a = s.memWord a) ∧ SameDevices s t

theorem State.stopInDelivery_stopped (s : State) (touched : List Nat) :
    StoppedInEntry s (s.stopInDelivery true touched) touched := by
  obtain ⟨m, g, d, hstate, hmem⟩ := s.scramble_shape touched
  simp only [State.stopInDelivery, if_true, hstate]
  exact ⟨rfl, rfl, rfl, rfl, rfl, rfl, rfl, ⟨rfl, rfl, rfl, rfl, rfl, rfl⟩,
    fun a ha => congrArg (Option.getD · _) (hmem a ha), ⟨rfl, rfl, rfl, rfl, rfl, rfl, rfl, rfl⟩⟩

/-- In system mode with IP on, an entry whose first push cannot be done changes nothing. -/
theorem State.enterFrame_cannot {s : State} {frame : List Word} (entry : Word) (hsys : s.flags.sys = true)
    (hip : s.flags.ip = true) (hpush : s.CannotPush) (hf : frame ≠ []) : s.enterFrame frame entry = ⟨s, [], false⟩ := by
  obtain ⟨v, vs, rfl⟩ := List.exists_cons_of_ne_nil hf
  have hflags : { s.flags with sys := true, ip := true } = s.flags := (Flags.mk.injEq ..).mpr
    ⟨rfl, rfl, rfl, rfl, hsys.symm, hip.symm, rfl⟩
  simp only [State.enterFrame, hflags, pushAll_cannot hpush]
  rfl

/-- Where an entry failed, SYS and IP are on and no push can be done. -/
theorem State.enterFrame_failed {s : State} {frame : List Word} {entry : Word}
    (h : (s.enterFrame frame entry).complete = false) :
    (s.enterFrame frame entry).state.flags.sys = true ∧ (s.enterFrame frame entry).state.flags.ip = true ∧
      (s.enterFrame frame entry).state.CannotPush := by
  obtain ⟨sp, m, g, hstate, -⟩ := State.enterFrame_shape s frame entry
  refine ⟨by rw [hstate], by rw [hstate], ?_⟩
  unfold State.enterFrame at h ⊢
  dsimp only at h ⊢
  split at h
  case isTrue => cases h
  case isFalse hincomplete =>
    rw [if_neg hincomplete]
    exact pushAll_incomplete _ _ h

/-- INTRFAULT after an entry that failed stops the CPU: with a handler, its own first push fails too. -/
theorem State.intrFault_after_failed {s : State} {frame : List Word} {entry : Word} (touched : List Nat)
    (address info savedPc : Word) (h : (s.enterFrame frame entry).complete = false) :
    ∃ t, (s.enterFrame frame entry).state.intrFault true touched address info savedPc = .stopped t ∧
      StoppedInEntry (s.enterFrame frame entry).state t touched := by
  obtain ⟨hsys, hip, hpush⟩ := State.enterFrame_failed h
  generalize (s.enterFrame frame entry).state = u at *
  have hagain : ∀ handler, (u.skip 2).enterFrame ((u.skip 2).interruptFrame ⟨.intrfault, address, info, savedPc⟩
      (u.free &&& 0x7F) (u.skip 1).free) handler = ⟨u.skip 2, [], false⟩ := fun handler =>
    State.enterFrame_cannot handler hsys hip (hpush.congr rfl rfl rfl rfl rfl rfl) (by simp [State.interruptFrame])
  unfold State.intrFault
  split
  · exact ⟨_, rfl, u.stopInDelivery_stopped touched⟩
  · split
    · exact ⟨_, rfl, u.stopInDelivery_stopped touched⟩
    · simp only [hagain, Bool.false_eq_true, if_false, List.append_nil]
      exact ⟨_, rfl, (u.skip 2).stopInDelivery_stopped touched⟩

/-- An entry that failed has touched the words it pushed, SYSSP and the flags. -/
theorem StoppedInEntry.of_failed {s t : State} {frame : List Word} {entry : Word}
    (h : (s.enterFrame frame entry).complete = false)
    (ht : StoppedInEntry (s.enterFrame frame entry).state t (s.enterFrame frame entry).touched) :
    StoppedInEntry s t (s.enterFrame frame entry).touched := by
  obtain ⟨sp, m, g, hstate, hread, -⟩ := State.enterFrame_shape s frame entry
  rw [h] at hstate
  rw [hstate] at ht
  obtain ⟨hr, hreason, hpc, hgpr, hfp, husp, hufp, hcontrol, hmem, hdevices⟩ := ht
  exact ⟨hr, hreason, hpc, hgpr, hfp, husp, hufp, hcontrol,
    fun a ha => (hmem a ha).trans (congrArg (Option.getD · _) (hread a ha)), hdevices⟩

/-- The delivery of an interrupt whose entry fails. -/
theorem State.deliver_failed {s : State} {q : Request} {h : Word} (hip : s.flags.ip = false)
    (hh : s.physRead (s.intvec + intNumber q.code) = .ok h) (h0 : h ≠ 0)
    (hfails : (s.enterFrame (s.interruptFrame q (flagsWord s.flags) (s.sysSp - 13)) h).complete = false) :
    ∃ t, s.deliver q = .stopped t ∧
      StoppedInEntry s t (s.enterFrame (s.interruptFrame q (flagsWord s.flags) (s.sysSp - 13)) h).touched := by
  obtain ⟨t, hstopped, ht⟩ := State.intrFault_after_failed
    (s.enterFrame (s.interruptFrame q (flagsWord s.flags) (s.sysSp - 13)) h).touched q.address (intNumber q.code)
    q.savedPc hfails
  refine ⟨t, ?_, ht.of_failed hfails⟩
  simp only [State.deliver, hip, hh, h0, hfails, Bool.false_eq_true, if_false, hstopped]

/-- Settles O43: INTRFAULT with and without a handler, a push that fails, and the first push with no memory below SYSSP. -/
theorem failedDeliveryRaisesIntrfault : Obligations.FailedDeliveryRaisesIntrfault := by
  refine ⟨fun s q h hip hvm hunread hh h0 hlow hhigh => ?handled, fun s q hip hunread h13 => ?unhandled,
    fun s q h entry hip hh h0 hentry hfails => ?push, fun s q h entry hvm hroom hentry => ?first⟩
  case handled =>
    obtain ⟨t, hentered, ⟨hpc, hflags, hreason, hsp, hfp, husp, hufp, hgpr, hcontrol, hdevices⟩, hframe, -⟩ :=
      s.intrFault_enters false [] q.address (intNumber q.code) q.savedPc hvm hh h0 hlow hhigh
    have holdflags : (s.free &&& 0x7F).toNat < 128 :=
      (toNat_and_two_pow_sub_one s.free (n := 7) (by decide)).trans_lt (Nat.mod_lt _ (by decide))
    exact ⟨t, _, _, (State.deliver_unreadable hip hunread).trans hentered, hpc, holdflags, hflags, hreason, hsp, hfp,
      husp, hufp, hgpr, hcontrol, hdevices, hframe⟩
  case unhandled =>
    exact ⟨_, (State.deliver_unreadable hip hunread).trans (State.intrFault_unhandled false [] _ _ _ h13),
      s.stop_frame .intrfault⟩
  case push =>
    subst hentry
    obtain ⟨t, hstopped, ht⟩ := State.deliver_failed hip hh h0 hfails
    exact ⟨t, hstopped, ht⟩
  case first =>
    rw [hentry, State.enterFrame_fails h hvm (by simp [State.interruptFrame]) hroom]
    exact ⟨rfl, rfl⟩

/-! ### TIMER (R226) -/

/-- The state after TIMER has counted an instruction. -/
def State.counted (s : State) : State := { s with timer := s.timer - 1 }

/-- The delivery of TIMER between two instructions: the saved PC is the address of the next one (92 D8). -/
def State.signalTimer (s : State) : Delivered := (s.skip 2).deliver ⟨.timer, s.free, (s.skip 1).free, s.pc⟩

theorem State.timerPoint_counts {s : State} (h0 : s.timer ≠ 0) (h : ¬ (s.timer - 1 = 0 ∧ s.flags.r = true)) :
    s.timerPoint = s.counted := by
  simp only [State.timerPoint, if_neg h0, if_neg h, State.counted]

theorem State.timerPoint_entered {s t : State} (h1 : s.timer = 1) (hr : s.flags.r = true)
    (h : s.counted.signalTimer = .entered t) : s.timerPoint = t := by
  have h0 : s.timer ≠ 0 := by rw [h1]; decide
  have hsignalled : s.timer - 1 = 0 ∧ s.flags.r = true := ⟨by rw [h1]; rfl, hr⟩
  simp only [State.signalTimer, State.counted] at h
  simp only [State.timerPoint, if_neg h0, if_pos hsignalled, h]

theorem State.timerPoint_ignored {s : State} (h1 : s.timer = 1) (hr : s.flags.r = true)
    (h : s.counted.signalTimer = .ignored) : s.timerPoint = s.counted := by
  have h0 : s.timer ≠ 0 := by rw [h1]; decide
  have hsignalled : s.timer - 1 = 0 ∧ s.flags.r = true := ⟨by rw [h1]; rfl, hr⟩
  simp only [State.signalTimer, State.counted] at h ⊢
  simp only [State.timerPoint, if_neg h0, if_pos hsignalled, h]

/-- TIMER is a notification: with IP = 1 it is lost. -/
theorem State.signalTimer_lost {s : State} (hip : s.flags.ip = true) : s.signalTimer = .ignored :=
  (State.deliver_unhandled (s := s.skip 2) (.inl hip)).trans (if_neg Bool.false_ne_true)

/-- TIMER signals nothing if it does not reach 0, if IP = 1, or if the CPU is halted. -/
theorem State.timerPoint_silent {s : State} (h0 : s.timer ≠ 0)
    (h : s.timer ≠ 1 ∨ s.flags.ip = true ∨ s.flags.r = false) : s.timerPoint = s.counted := by
  by_cases hsignalled : s.timer - 1 = 0 ∧ s.flags.r = true
  · obtain ⟨hzero, hr⟩ := hsignalled
    have h1 : s.timer = 1 := by bv_omega
    have hip : s.flags.ip = true := (h.resolve_left (not_not_intro h1)).resolve_right (ne_false_of_eq_true hr)
    exact State.timerPoint_ignored h1 hr (State.signalTimer_lost hip)
  · exact State.timerPoint_counts h0 hsignalled

/-- Settles O44: TIMER at 0, TIMER counting in silence, and TIMER's handler entered. -/
theorem timerCountsAndSignalsOnce : Obligations.TimerCountsAndSignalsOnce := by
  refine fun s => ⟨fun h0 => if_pos h0, State.timerPoint_silent, fun h1 hr hip hvm h hh h0 hlow hhigh => ?entered⟩
  case entered =>
    have hcan : CanEnter s.counted .timer h := ⟨hip, hvm, hh, h0, hlow, hhigh⟩
    obtain ⟨t, hentered, ht⟩ :=
      hcan.deliver (q := ⟨.timer, s.counted.free, (s.counted.skip 1).free, s.pc⟩) 2
    obtain ⟨hpc, -, -, hsp, -, -, -, -, ⟨-, -, -, -, -, htimer⟩, -⟩ := ht.enters
    rw [State.timerPoint_entered h1 hr hentered]
    have hzero : s.timer - 1 = 0 := by rw [h1]; rfl
    exact ⟨hpc, htimer.trans hzero, hsp, ht.word (k := 2) (by decide), ht.word (k := 5) (by decide)⟩

/-! ### DEBUG and KEYBD (R213, R227) -/

theorem State.debugPoint_entered {s t : State} (hpc : s.pc = s.debug)
    (h : (s.skip 1).deliver ⟨.debug, s.pc, s.free, s.pc⟩ = .entered t) : s.debugPoint = some t := by
  simp only [State.debugPoint, if_pos hpc, h]

theorem State.debugPoint_elsewhere {s : State} (hpc : s.pc ≠ s.debug) : s.debugPoint = none := if_neg hpc

theorem State.keyboardPoint_entered {s t : State} (hkeys : s.kbuf ≠ [])
    (h : (s.skip 2).deliver ⟨.keybd, s.free, (s.skip 1).free, s.pc⟩ = .entered t) : s.keyboardPoint = some t := by
  simp only [State.keyboardPoint, if_neg (mt List.isEmpty_iff.mp hkeys), h]

/-- DEBUG comes first (92 D20). -/
theorem State.beforeFetch_of_debug {s t : State} (h : s.debugPoint = some t) : s.beforeFetch = some t := by
  simp only [State.beforeFetch, h]

theorem State.beforeFetch_of_keyboard {s t : State} (hdebug : s.debugPoint = none) (h : s.keyboardPoint = some t) :
    s.beforeFetch = some t := by
  simp only [State.beforeFetch, hdebug, h]

/-- An interrupt before the fetch is the whole step. -/
theorem step_of_beforeFetch {s t : State} (hruns : s.flags.r = true) (h : s.beginStep.beforeFetch = some t) :
    step s = .next t := by
  simp only [step, hruns, h, Bool.true_eq_false, if_false]

/-- Settles O45: each of the two interrupts is delivered before the fetch, DEBUG first. -/
theorem debugAndKeyboardComeBeforeTheFetch : Obligations.DebugAndKeyboardComeBeforeTheFetch := by
  refine fun s h hruns hip hvm h0 hlow hhigh => ⟨fun hpc hh => ?debug, fun hpc hkeys hh => ?keyboard⟩
  case debug =>
    have hcan : CanEnter s.beginStep .debug h := ⟨hip, hvm, hh, h0, hlow, hhigh⟩
    obtain ⟨t, hentered, ht⟩ :=
      hcan.deliver (q := ⟨.debug, s.beginStep.pc, s.beginStep.free, s.beginStep.pc⟩) 1
    obtain ⟨htpc, -⟩ := ht.enters
    exact ⟨t, step_of_beforeFetch hruns (State.beforeFetch_of_debug (State.debugPoint_entered hpc hentered)), htpc,
      ht.word (k := 5) (by decide), ht.word (k := 4) (by decide), ht.word (k := 2) (by decide)⟩
  case keyboard =>
    have hcan : CanEnter s.beginStep .keybd h := ⟨hip, hvm, hh, h0, hlow, hhigh⟩
    obtain ⟨t, hentered, ht⟩ :=
      hcan.deliver (q := ⟨.keybd, s.beginStep.free, (s.beginStep.skip 1).free, s.beginStep.pc⟩) 2
    obtain ⟨htpc, -, -, -, -, -, -, -, -, hkbuf, -⟩ := ht.enters
    exact ⟨t, step_of_beforeFetch hruns (State.beforeFetch_of_keyboard (State.debugPoint_elsewhere hpc)
      (State.keyboardPoint_entered hkeys hentered)), htpc, ht.word (k := 5) (by decide), ht.word (k := 2) (by decide),
      hkbuf⟩

end Sys2Proof.Machine
end

section
/-! Instructions that end in an interrupt (60_exceptions.md R207, R209, R211, R228): work that fails raises at the state it
began in. Settles O18, O21, O34 and O36. -/

namespace Sys2Proof.Machine

/-! ### Work that fails (R228) -/

/-- A failing step of an instruction's work ends it with that interrupt, at the state before the instruction. -/
theorem State.settle_bind_trap {α : Type} {s : State} {x : Except Stop α} {q : Trap} (f : α → Except Stop State)
    (h : x = .error (.trap q)) : s.settle (x >>= f) = .next (s.raise q) := by
  rw [h, Except.error_bind, State.settle_trap]

/-- A step that succeeds leaves the outcome to the rest of the work. -/
theorem State.settle_bind_ok {α : Type} {s : State} {x : Except Stop α} {a : α} (f : α → Except Stop State)
    (h : x = .ok a) : s.settle (x >>= f) = s.settle (f a) := by
  rw [h, Except.ok_bind]

/-! ### Operands that cannot be read -/

/-- An operand whose read ends in an interrupt is in memory: a constant and a register can be read, and PC is refused. -/
theorem State.place_of_value_trap {s : State} {op : Operand} {q : Trap} (h : s.value op = .error (.trap q)) :
    ∃ a, s.place op = .ok (.mem a) := by
  cases op with
  | num c => cases h
  | abs a => exact ⟨a, rfl⟩
  | reg m =>
    by_cases hm : m = .pc
    · subst hm; cases h
    · cases (s.value_reg hm).symm.trans h
  | ind m => exact ⟨_, s.place_ind (by rintro rfl; cases h)⟩
  | indOff m k => exact ⟨_, s.place_indOff k (by rintro rfl; cases h)⟩

section
variable {s : State} {m : Reg} {op : Operand} {q : Trap} (hop : s.value op = .error (.trap q))
include hop

theorem execLoad_trap (hm : m ≠ .pc) : execLoad m op s = .next (s.raise q) :=
  (State.settle_bind_ok _ (operandReg_ok hm)).trans (State.settle_bind_trap _ hop)

theorem execComp_trap (hm : m ≠ .pc) : execComp m op s = .next (s.raise q) :=
  (State.settle_bind_ok _ (s.readReg_ok hm)).trans (State.settle_bind_trap _ hop)

theorem execJcond_trap (herr : s.flags.err = true) : execJcond .err op s = .next (s.raise q) := by
  rw [execJcond, if_pos herr]
  exact State.settle_bind_trap _ hop

theorem execFlagsj_trap (hsys : s.flags.sys = true) (hm : m ≠ .pc) : execFlagsj m op s = .next (s.raise q) :=
  (State.settle_bind_ok _ (State.needSystem_ok hsys)).trans
    ((State.settle_bind_ok _ (s.readReg_ok hm)).trans (State.settle_bind_trap _ hop))

theorem execPeri_trap (hsys : s.flags.sys = true) (hm : m ≠ .pc) : execPeri m op s = .next (s.raise q) :=
  (State.settle_bind_ok _ (State.needSystem_ok hsys)).trans
    ((State.settle_bind_ok _ (operandReg_ok hm)).trans (State.settle_bind_trap _ hop))

theorem execInc_trap : execInc op s = .next (s.raise q) := by
  obtain ⟨a, hplace⟩ := State.place_of_value_trap hop
  refine (State.settle_bind_ok _ hplace).trans ?_
  rw [if_neg nofun]
  exact (State.settle_bind_ok _ rfl).trans (State.settle_bind_trap _ hop)

end

/-! ### Words that cannot be written, and words of the stack that cannot be read -/

theorem State.push_trap {s : State} {v : Word} {q : Trap} (h : s.writeMem (s.sp - 1) v = .error (.trap q)) :
    s.push v = .error (.trap q) := by
  simp only [State.push, h, Except.error_bind]

theorem execStore_trap {s : State} {m : Reg} {op : Operand} {p : Place} {q : Trap} (hm : m ≠ .pc)
    (hplace : s.place op = .ok p) (hstore : s.storeAt p (s.reg m) = .error (.trap q)) :
    execStore m op s = .next (s.raise q) :=
  (State.settle_bind_ok _ (s.readReg_ok hm)).trans
    ((State.settle_bind_ok _ hplace).trans (State.settle_bind_trap _ hstore))

theorem execPush_trap {s : State} {op : Operand} {v : Word} {q : Trap} (hop : s.value op = .ok v)
    (hpush : s.push v = .error (.trap q)) : execPush op s = .next (s.raise q) :=
  (State.settle_bind_ok _ hop).trans (State.settle_bind_trap _ hpush)

/-- CALL's push is done, its operand behind it fails: the push is undone with the rest. -/
theorem execCall_operand_trap {s t : State} {op : Operand} {q : Trap} (hpush : s.push (s.pc + 1) = .ok t)
    (hop : t.value op = .error (.trap q)) : execCall op s = .next (s.raise q) :=
  (State.settle_bind_ok _ hpush).trans (State.settle_bind_trap _ hop)

section
variable {s : State} {q : Trap}

theorem execIret_trap (hsys : s.flags.sys = true) (h : s.returnFromInterrupt = .error (.trap q)) :
    execIret s = .next (s.raise q) := by
  rw [execIret_system hsys, h, State.settle_trap]

theorem State.returnFromInterrupt_top_trap (h : s.translate s.sp = .error (.trap q)) :
    s.returnFromInterrupt = .error (.trap q) := by
  simp only [State.returnFromInterrupt, h, Except.error_bind]

/-- On no SYSCALL frame, the eight words from SP are read first. -/
theorem State.returnFromInterrupt_low_trap {top : Word} (htop : s.translate s.sp = .ok top)
    (hgate : top.toNat ∉ s.gateFrames) (hlow : s.readAll (wordRange s.sp 8) = .error (.trap q)) :
    s.returnFromInterrupt = .error (.trap q) := by
  simp only [State.returnFromInterrupt, htop, Except.ok_bind, if_neg (mt List.contains_iff_mem.mp hgate), hlow,
    Except.error_bind]

theorem State.returnFromInterrupt_high_trap {top : Word} {low : List Word} (htop : s.translate s.sp = .ok top)
    (hgate : top.toNat ∉ s.gateFrames) (hlow : s.readAll (wordRange s.sp 8) = .ok low)
    (hhigh : s.readAll (wordRange (low.getD 7 0) 13) = .error (.trap q)) :
    s.returnFromInterrupt = .error (.trap q) := by
  simp only [State.returnFromInterrupt, htop, Except.ok_bind, if_neg (mt List.contains_iff_mem.mp hgate), hlow, hhigh,
    Except.error_bind]

end

/-- Settles O18: each access is a step of the instruction's work before any write. -/
theorem failedAccessRaisesItsInterrupt : Obligations.FailedAccessRaisesItsInterrupt := by
  intro s m op q hm
  refine ⟨fun hop => ?operand, fun _ => execCall_operand_trap, fun a => execStore_trap hm,
    fun v hop hwrite => execPush_trap hop (State.push_trap hwrite),
    fun hwrite => State.settle_bind_trap _ (State.push_trap hwrite), State.settle_bind_trap _,
    fun hsys htop => execIret_trap hsys (State.returnFromInterrupt_top_trap htop),
    fun top hsys htop hgate => ⟨fun hlow => ?low, fun low hlow hhigh => ?high⟩⟩
  case operand =>
    exact ⟨execLoad_trap hop hm, State.settle_bind_trap _ hop, execComp_trap hop hm, State.settle_bind_trap _ hop,
      execInc_trap hop, State.settle_bind_trap _ hop, execJcond_trap hop,
      fun hsys => ⟨execFlagsj_trap hop hsys hm, execPeri_trap hop hsys hm⟩⟩
  case low => exact execIret_trap hsys (State.returnFromInterrupt_low_trap htop hgate hlow)
  case high => exact execIret_trap hsys (State.returnFromInterrupt_high_trap htop hgate hlow hhigh)

/-! ### Operands that cannot be written (R207) -/

/-- INC looks at the place before the value. -/
theorem execInc_unwritable {s : State} {op : Operand} (hplace : s.place op = .ok .unwritable) :
    execInc op s = .next (s.raise ⟨.unwrop, s.pc, none⟩) := by
  refine (State.settle_bind_ok _ hplace).trans ?_
  rw [if_pos rfl]
  exact State.settle_bind_trap _ rfl

/-- Settles O21: a constant has no place. -/
theorem unwritableOperandRaisesUnwrop : Obligations.UnwritableOperandRaisesUnwrop := fun _ _ _ =>
  ⟨fun hrs => execStore_trap hrs rfl rfl, execInc_unwritable rfl⟩

/-! ### Privilege (R209, R225) -/

/-- Work that starts with the test for system mode raises PRIVOP in user mode. -/
theorem State.settle_needSystem {s : State} (husr : s.flags.sys = false) (f : Unit → Except Stop State) :
    s.settle (s.needSystem >>= f) = .next (s.raise ⟨.privop, s.pc, none⟩) :=
  State.settle_bind_trap f (State.needSystem_fails husr)

theorem execSetfl_protected {s : State} {m : Reg} {k : Word} {name : FlagName} (husr : s.flags.sys = false)
    (hname : flagOfNumber k = some name) (hprotected : isProtected name = true) :
    execSetfl m k s = .next (s.raise ⟨.privop, s.pc, none⟩) := by
  refine (State.settle_bind_ok _ (flagNamed_ok hname)).trans ?_
  rw [if_pos hprotected]
  exact State.settle_needSystem husr _

/-- Settles O34: seven instructions test the mode first, and SETFL does for R, SYS, IP and VM. -/
theorem privilegedOperationRaisesPrivop : Obligations.PrivilegedOperationRaisesPrivop := by
  intro s m k op b i husr hi
  rcases hi with hlisted | ⟨rfl, hflag⟩
  case inl =>
    simp only [List.mem_cons, List.not_mem_nil, or_false] at hlisted
    rcases hlisted with rfl | rfl | rfl | rfl | rfl | rfl | rfl
    all_goals exact State.settle_needSystem husr _
  case inr =>
    rcases hflag with rfl | rfl | rfl | rfl
    · exact execSetfl_protected husr (name := .r) rfl rfl
    · exact execSetfl_protected husr (name := .sys) rfl rfl
    · exact execSetfl_protected husr (name := .ip) rfl rfl
    · exact execSetfl_protected husr (name := .vm) rfl rfl

/-! ### The index of a SYSCALL (R211) -/

theorem State.callGate_badIndex {s : State} {i : Word} (h : i.toInt < 0 ∨ s.cglen.toInt ≤ i.toInt) :
    s.callGate i = .error (.trap ⟨.badcall, s.pc, some i⟩) := if_pos h

/-- Settles O36: the index is tested before the gate is read. -/
theorem badIndexRaisesBadcall : Obligations.BadIndexRaisesBadcall := by
  intro s op i hop hindex
  rw [exec_syscall, execSyscall_of_value hop, State.callGate_badIndex hindex, State.settle_trap]

end Sys2Proof.Machine
end

section
/-! What start-up leaves (70_reset_and_hazards.md R240): the flags of the reset state and the FLAGS word they make.
Settles O5. -/

namespace Sys2Proof.Machine

/-- R27's bits of 49 = 2^0 + 2^4 + 2^5 are R, SYS and IP: the flags R240 sets, once Z, N and ERR are 0. -/
theorem State.reset_flags_eq_flagsOfWord :
    { State.reset.flags with z := false, n := false, err := false } = flagsOfWord 49 := by
  decide

/-- Settles O5: each mode flag is read off the reset state, and the word 49 lies in the seven bits that FLAGS keeps. -/
theorem resetModeAndFlags : Obligations.ResetModeAndFlags := by
  refine ⟨rfl, rfl, rfl, rfl, ?word⟩
  case word =>
    calc flagsWord { State.reset.flags with z := false, n := false, err := false }
      _ = flagsWord (flagsOfWord 49) := congrArg flagsWord State.reset_flags_eq_flagsOfWord
      _ = 49 &&& 0x7F := flagsWord_flagsOfWord 49
      _ = 49 := rfl

end Sys2Proof.Machine
end

section
/-! The words of instructions in the model's layout (30_encoding.md R71; Log 1): decoding undoes encoding and encoding undoes
decoding, each by the forms an instruction's word has. Settles O1 and O2. -/

namespace Sys2Proof

/-- The word `w` is the word of the instruction `i`, which fits the layout. -/
def IsWordOf (w : Word) (i : Instr) : Prop := encode i = w ∧ i.wf = true

/-! ### Decoding the word of an instruction -/

/-- The word has a number, an operand, 27 bits kept unread, or nothing beside its operation code and its main field; each is
read back from its own field. -/
theorem decode_encode {i : Instr} (h : i.wf = true) : decode (encode i) = .ok i := by
  cases i with
  | getsr m k | setsr m k | getfl m k | setfl m k =>
    have hk : k.toNat < 2 ^ 20 := by simpa only [Instr.wf, decide_eq_true_eq] using h
    have hfields := fun row main => packNumber_fields row main hk
    simp [decode, encode, hfields, Except.map]
  | flagsj m op | comp m op | sbit m op | cbit m op | peri m op | load m op | store m op =>
    have hfields := fun row main => packOperand_fields row main (o := op) h
    simp [decode, encode, hfields, Except.map]
  | jcond c op =>
    obtain ⟨hc, hop⟩ : c.fits = true ∧ op.fits = true := by simpa only [Instr.wf, Bool.and_eq_true] using h
    have hfields := fun row main => packOperand_fields row main hop
    simp [decode, encode, hfields, decodeCond_encodeCond hc, Except.map]
  | compz op | syscall op | push op | call op | inc op =>
    have hfields := fun row main => packOperand_fields row main (o := op) h
    simp [decode, encode, hfields, decodeSole, Except.map]
  | exbr b | dpbr b | exbrv b | dpbrv b | phload b | phstore b | clrpp b => simp [decode, encode]
  | halt | iret | ret => simp [decode, encode, decodeBare]

theorem IsWordOf.decode {w : Word} {i : Instr} (h : IsWordOf w i) : decode w = .ok i := by
  obtain ⟨rfl, hwf⟩ := h
  exact decode_encode hwf

/-! ### Encoding what a word decodes to -/

section
variable {w : Word} {i : Instr} {row : Nat} (hrow : (opField w).toNat = row)
include hrow

theorem opField_eq_ofNat : opField w = BitVec.ofNat 5 row := by
  rw [← hrow, BitVec.ofNat_toNat, BitVec.setWidth_eq]

theorem isWordOf_of_number {mk : Word → Instr} (h : (decodeNumber (formField w) (lowField w)).map mk = .ok i)
    (hencode : ∀ k, encode (mk k) = packNumber (BitVec.ofNat 5 row) (mainField w) k)
    (hwf : ∀ k, (mk k).wf = decide (k.toNat < 2 ^ 20)) : IsWordOf w i := by
  cases hnumber : decodeNumber (formField w) (lowField w) with
  | error e => rw [hnumber] at h; cases h
  | ok k =>
    rw [hnumber] at h
    cases h
    obtain ⟨hform, hlow, hfits⟩ := decodeNumber_ok hnumber
    refine ⟨?_, (hwf k).trans (decide_eq_true hfits)⟩
    rw [hencode, packNumber, hlow, ← hform, ← opField_eq_ofNat hrow, packFields_fields]

theorem isWordOf_of_operand {mk : Operand → Instr} (h : (decodeOperand (formField w) (lowField w)).map mk = .ok i)
    (hencode : ∀ op, encode (mk op) = packOperand (BitVec.ofNat 5 row) (mainField w) op)
    (hwf : ∀ op, (mk op).wf = op.fits) : IsWordOf w i := by
  cases hoperand : decodeOperand (formField w) (lowField w) with
  | error e => rw [hoperand] at h; cases h
  | ok op =>
    rw [hoperand] at h
    cases h
    obtain ⟨hfields, hfits⟩ := encodeOperand_decodeOperand hoperand
    refine ⟨?_, (hwf op).trans hfits⟩
    rw [hencode, packOperand, hfields, ← opField_eq_ofNat hrow, packFields_fields]

/-- Without a main register: an operand, and a main field that is zero. -/
theorem isWordOf_of_sole {mk : Operand → Instr}
    (h : decodeSole (mainField w) mk (decodeOperand (formField w) (lowField w)) = .ok i)
    (hencode : ∀ op, encode (mk op) = packOperand (BitVec.ofNat 5 row) 0 op)
    (hwf : ∀ op, (mk op).wf = op.fits) : IsWordOf w i := by
  unfold decodeSole at h
  split at h
  case isTrue hmain => exact isWordOf_of_operand hrow h (by rwa [hmain]) hwf
  case isFalse => cases h

theorem isWordOf_of_bits (hencode : encode i = packBits (BitVec.ofNat 5 row) (restField w)) (hwf : i.wf = true) :
    IsWordOf w i :=
  ⟨by rw [hencode, ← opField_eq_ofNat hrow, packBits_fields], hwf⟩

/-- Without an operand: 27 bits that are zero. -/
theorem isWordOf_of_bare {j : Instr} (h : decodeBare (restField w) j = .ok i)
    (hencode : encode j = packBits (BitVec.ofNat 5 row) 0) (hwf : j.wf = true) : IsWordOf w i := by
  unfold decodeBare at h
  split at h
  case isTrue hrest =>
    cases h
    exact isWordOf_of_bits hrow (by rw [hencode, hrest]) hwf
  case isFalse => cases h

end

/-- One case for each row of the table, by its number, and the last for the operation codes of no row. -/
theorem isWordOf_of_decode {w : Word} {i : Instr} (h : decode w = .ok i) : IsWordOf w i := by
  unfold decode at h
  dsimp only at h
  split at h
  case h_1 hrow | h_2 hrow | h_3 hrow | h_4 hrow =>
    exact isWordOf_of_number hrow h (fun k => by rw [encode, encodeReg_decodeReg]; rfl) fun _ => rfl
  case h_5 hrow | h_6 hrow | h_13 hrow | h_14 hrow | h_15 hrow | h_22 hrow | h_23 hrow =>
    exact isWordOf_of_operand hrow h (fun op => by rw [encode, encodeReg_decodeReg]; rfl) fun _ => rfl
  case h_8 hrow =>
    exact isWordOf_of_operand hrow h (fun op => by rw [encode, encodeCond_decodeCond]; rfl)
      fun op => by rw [Instr.wf, decodeCond_fits, Bool.true_and]
  case h_7 hrow | h_17 hrow | h_24 hrow | h_25 hrow | h_27 hrow =>
    exact isWordOf_of_sole hrow h (fun _ => rfl) fun _ => rfl
  case h_9 hrow | h_10 hrow | h_11 hrow | h_12 hrow | h_19 hrow | h_20 hrow | h_21 hrow =>
    cases h
    exact isWordOf_of_bits hrow rfl rfl
  case h_16 hrow | h_18 hrow | h_26 hrow => exact isWordOf_of_bare hrow h rfl rfl
  case h_28 => cases h

/-! ### The obligations -/

/-- Settles O1: the two directions, each by the form of the word. -/
theorem decodeAndEncodeAgree : Obligations.DecodeAndEncodeAgree :=
  ⟨fun _ => decode_encode, fun _ _ => isWordOf_of_decode⟩

/-- Settles O2: seven words are those of their instructions, and the operation code 0 is that of no row. -/
theorem writtenOutWordsDecode : Obligations.WrittenOutWordsDecode :=
  ⟨IsWordOf.decode ⟨rfl, rfl⟩, IsWordOf.decode ⟨rfl, rfl⟩, IsWordOf.decode ⟨rfl, rfl⟩, IsWordOf.decode ⟨rfl, rfl⟩,
    IsWordOf.decode ⟨rfl, rfl⟩, IsWordOf.decode ⟨rfl, rfl⟩, IsWordOf.decode ⟨rfl, rfl⟩, rfl⟩

end Sys2Proof
end

section
/-! The state after start-up: the values the model chooses (Logs 3 to 9) and the invariants of a step. Settles O6 and O7. -/

namespace Sys2Proof.Machine

/-! ### Registers and memory (Logs 3, 5, 6) -/

theorem State.reset_gpr (n : Fin 13) : State.reset.gpr[n] = 0 := Vector.getElem_replicate n.isLt

theorem State.reset_special {r : SReg} (h : r ≠ .flags) :
    State.reset.special r = if r = .debug then 0xFFFFFFFF else 0 := by
  cases r with
  | flags => exact absurd rfl h
  | _ => rfl

theorem Memory.wfBelow_nil (bound : Nat) : Memory.wfBelow [] bound := ⟨List.Pairwise.nil, nofun⟩

/-! ### Devices (Log 9) -/

theorem State.reset_tapes (i : Fin 8) : State.reset.tapes[i] = none := Vector.getElem_replicate i.isLt

theorem State.reset_nets (i : Fin 2) : State.reset.nets[i] = none := Vector.getElem_replicate i.isLt

/-- The one drive at start-up has no block written. -/
theorem State.reset_discs {i : Fin 8} {d : Disc} (h : State.reset.discs[i] = some d) : d = ⟨6000, []⟩ := by
  fin_cases i
  · cases h; rfl
  all_goals cases h

/-! ### The operation codes of PERI (Log 8) -/

theorem State.reset_periCodesDistinct : periCodesDistinct State.reset.params.periOp := by decide

/-! ### The obligations -/

/-- Settles O6: each value is that of a field of the reset state, or of the place a name or a number selects in it. -/
theorem resetChosenValues : Obligations.ResetChosenValues :=
  ⟨rfl, State.reset_gpr, fun _ => State.reset_special, rfl, rfl, rfl, Memory.read_nil, rfl, rfl, State.reset_tapes,
    State.reset_nets, State.reset_periCodesDistinct⟩

/-- Settles O7: memory and the drive are unwritten, no tape is loaded, and the CPU runs. -/
theorem resetIsGood : Obligations.ResetIsGood := by
  refine ⟨⟨Memory.wfBelow_nil _, fun i d hd => ?disc, fun i t ht => ?tape⟩, nofun⟩
  case disc =>
    rw [State.reset_discs hd]
    exact Memory.wfBelow_nil _
  case tape =>
    rw [State.reset_tapes] at ht
    cases ht

end Sys2Proof.Machine
end

section
/-! Instructions that are refused: PC named as a register operand (45 R190; Log 50), numbers that name nothing (92 D28), and
instructions whose operands or effect the source does not give (41 R113 to R116, 44 R183 to R185). Settles O17 and O33. -/

namespace Sys2Proof.Machine

/-- A refused step of an instruction's work refuses the instruction. -/
theorem State.settle_bind_refuse {α : Type} {s : State} {x : Except Stop α} {r : Refusal} (f : α → Except Stop State)
    (h : x = .error (.refuse r)) : s.settle (x >>= f) = .refused r := by
  rw [h, Except.error_bind, State.settle_refuse]

/-! ### PC as the instruction's own register -/

section
variable (s : State)

theorem State.readReg_pc : s.readReg .pc = .error (.refuse .pcAsOperand) := rfl

theorem execLoad_pc (op : Operand) : execLoad .pc op s = .refused .pcAsOperand := State.settle_bind_refuse _ rfl

theorem execStore_pc (op : Operand) : execStore .pc op s = .refused .pcAsOperand :=
  State.settle_bind_refuse _ s.readReg_pc

theorem execComp_pc (op : Operand) : execComp .pc op s = .refused .pcAsOperand :=
  State.settle_bind_refuse _ s.readReg_pc

end

section
variable {s : State}

theorem execFlagsj_pc (hsys : s.flags.sys = true) (op : Operand) : execFlagsj .pc op s = .refused .pcAsOperand :=
  (State.settle_bind_ok _ (State.needSystem_ok hsys)).trans (State.settle_bind_refuse _ s.readReg_pc)

theorem execPeri_pc (hsys : s.flags.sys = true) (op : Operand) : execPeri .pc op s = .refused .pcAsOperand :=
  (State.settle_bind_ok _ (State.needSystem_ok hsys)).trans (State.settle_bind_refuse _ rfl)

theorem execGetsr_pc {k : Word} {r : SReg} (hk : sregOfNumber s.params k = some r) :
    execGetsr .pc k s = .refused .pcAsOperand :=
  (State.settle_bind_ok _ (State.specialNamed_ok hk)).trans (State.settle_bind_refuse _ rfl)

theorem execSetsr_pc {k : Word} {r : SReg} (hsys : s.flags.sys = true) (hk : sregOfNumber s.params k = some r) :
    execSetsr .pc k s = .refused .pcAsOperand :=
  (State.settle_bind_ok _ (State.needSystem_ok hsys)).trans
    ((State.settle_bind_ok _ (State.specialNamed_ok hk)).trans (State.settle_bind_refuse _ s.readReg_pc))

theorem execGetfl_pc {k : Word} {name : FlagName} (hk : flagOfNumber k = some name) :
    execGetfl .pc k s = .refused .pcAsOperand :=
  (State.settle_bind_ok _ (flagNamed_ok hk)).trans (State.settle_bind_refuse _ rfl)

/-- In system mode the flag may be a protected one. -/
theorem execSetfl_pc {k : Word} {name : FlagName} (hsys : s.flags.sys = true) (hk : flagOfNumber k = some name) :
    execSetfl .pc k s = .refused .pcAsOperand := by
  refine (State.settle_bind_ok _ (flagNamed_ok hk)).trans ?_
  dsimp only
  split
  case isTrue =>
    exact (State.settle_bind_ok _ (State.needSystem_ok hsys)).trans (State.settle_bind_refuse _ s.readReg_pc)
  case isFalse => exact (State.settle_bind_ok _ rfl).trans (State.settle_bind_refuse _ s.readReg_pc)

theorem execSbit_pc {c : Word} (hc : c.toNat < 32) : execSbit .pc (.num c) s = .refused .pcAsOperand :=
  (State.settle_bind_ok _ (bitNumber_num hc)).trans (State.settle_bind_refuse _ s.readReg_pc)

theorem execCbit_pc {c : Word} (hc : c.toNat < 32) : execCbit .pc (.num c) s = .refused .pcAsOperand :=
  (State.settle_bind_ok _ (bitNumber_num hc)).trans (State.settle_bind_refuse _ s.readReg_pc)

end

/-- R76: the numbers below 7 are those of the seven flags. -/
theorem exists_flagOfNumber_eq_some {k : Word} (h : k.toNat < 7) : ∃ name, flagOfNumber k = some name := by
  obtain ⟨name, hname⟩ := exists_flagNumber_eq h
  refine ⟨name, ?_⟩
  rw [flagOfNumber, ← hname]
  cases name <;> rfl

/-! ### PC as the register of the operand -/

/-- The operand names PC as its register, in one of the forms that have one. -/
def NamesPc (op : Operand) : Prop := op = .reg .pc ∨ op = .ind .pc ∨ ∃ k, op = .indOff .pc k

section
variable {op : Operand} (hop : NamesPc op) (s : State)
include hop

theorem NamesPc.value : s.value op = .error (.refuse .pcAsOperand) := by
  rcases hop with rfl | rfl | ⟨k, rfl⟩
  all_goals rfl

theorem NamesPc.place : s.place op = .error (.refuse .pcAsOperand) := by
  rcases hop with rfl | rfl | ⟨k, rfl⟩
  all_goals rfl

theorem NamesPc.execLoad {m : Reg} (hm : m ≠ .pc) : execLoad m op s = .refused .pcAsOperand :=
  (State.settle_bind_ok _ (operandReg_ok hm)).trans (State.settle_bind_refuse _ (hop.value s))

theorem NamesPc.execStore {m : Reg} (hm : m ≠ .pc) : execStore m op s = .refused .pcAsOperand :=
  (State.settle_bind_ok _ (s.readReg_ok hm)).trans (State.settle_bind_refuse _ (hop.place s))

theorem NamesPc.execComp {m : Reg} (hm : m ≠ .pc) : execComp m op s = .refused .pcAsOperand :=
  (State.settle_bind_ok _ (s.readReg_ok hm)).trans (State.settle_bind_refuse _ (hop.value s))

theorem NamesPc.execCall {t : State} (hpush : s.push (s.pc + 1) = .ok t) : execCall op s = .refused .pcAsOperand :=
  (State.settle_bind_ok _ hpush).trans (State.settle_bind_refuse _ (hop.value t))

theorem NamesPc.execJcond (herr : s.flags.err = true) : execJcond .err op s = .refused .pcAsOperand := by
  rw [Sys2Proof.Machine.execJcond, if_pos herr]
  exact State.settle_bind_refuse _ (hop.value s)

theorem NamesPc.execFlagsj {m : Reg} (hsys : s.flags.sys = true) (hm : m ≠ .pc) :
    execFlagsj m op s = .refused .pcAsOperand :=
  (State.settle_bind_ok _ (State.needSystem_ok hsys)).trans
    ((State.settle_bind_ok _ (s.readReg_ok hm)).trans (State.settle_bind_refuse _ (hop.value s)))

theorem NamesPc.execPeri {m : Reg} (hsys : s.flags.sys = true) (hm : m ≠ .pc) :
    execPeri m op s = .refused .pcAsOperand :=
  (State.settle_bind_ok _ (State.needSystem_ok hsys)).trans
    ((State.settle_bind_ok _ (operandReg_ok hm)).trans (State.settle_bind_refuse _ (hop.value s)))

end

/-- Settles O17: PC is refused where the work comes to its register, as the instruction's own or as the operand's. -/
theorem pcAsOperandIsRefused : Obligations.PcAsOperandIsRefused := by
  intro s m k c op
  refine ⟨fun hnamed => ?operand, execLoad_pc s op, execStore_pc s op, execComp_pc s op,
    fun r hk => ⟨execGetsr_pc hk, fun hsys => execSetsr_pc hsys hk⟩, fun hk => ?flag,
    fun hc => ⟨execSbit_pc hc, execCbit_pc hc⟩, fun hsys => ⟨execFlagsj_pc hsys op, execPeri_pc hsys op⟩⟩
  case operand =>
    have hop : NamesPc op := hnamed.imp_right (Or.imp_right fun h => ⟨k, h⟩)
    exact ⟨hop.value s, fun hm => ⟨hop.execLoad s hm, hop.execStore s hm, hop.execComp s hm⟩,
      State.settle_bind_refuse _ (hop.value s), State.settle_bind_refuse _ (hop.value s),
      State.settle_bind_refuse _ (hop.place s), State.settle_bind_refuse _ (hop.value s),
      fun t hpush => hop.execCall s hpush, hop.execJcond s,
      fun hsys hm => ⟨hop.execFlagsj s hsys hm, hop.execPeri s hsys hm⟩⟩
  case flag =>
    obtain ⟨name, hname⟩ := exists_flagOfNumber_eq_some hk
    exact ⟨execGetfl_pc hname, fun hsys => execSetfl_pc hsys hname⟩

/-! ### Numbers and forms the source does not define -/

theorem State.specialNamed_refused {s : State} {k : Word} (h : sregOfNumber s.params k = none) :
    s.specialNamed k = .error (.refuse .specialRegisterNumber) := by
  rw [State.specialNamed, h]

theorem flagNamed_refused {k : Word} (h : 6 < k.toNat) : flagNamed k = .error (.refuse .flagNumber) := by
  rw [flagNamed, flagOfNumber_eq_none h]

theorem bitNumber_above {k : Word} (h : 31 < k.toNat) : bitNumber (.num k) = .error (.refuse .bitNumber) :=
  if_neg (by omega)

theorem bitNumber_of_not_num {op : Operand} (h : ∀ c, op ≠ .num c) : bitNumber op = .error (.refuse .bitNumber) := by
  cases op with
  | num c => exact absurd rfl (h c)
  | _ => rfl

/-- Work that is refused in system mode, and does nothing but test for it. -/
theorem State.settle_needSystem_refuse {s : State} (hsys : s.flags.sys = true) (r : Refusal) :
    (s.settle do s.needSystem; .error (.refuse r)) = .refused r :=
  State.settle_bind_ok _ (State.needSystem_ok hsys)

theorem execSetsr_refused {s : State} {k : Word} (m : Reg) (hk : sregOfNumber s.params k = none)
    (hsys : s.flags.sys = true) : execSetsr m k s = .refused .specialRegisterNumber :=
  (State.settle_bind_ok _ (State.needSystem_ok hsys)).trans
    (State.settle_bind_refuse _ (State.specialNamed_refused hk))

/-- Settles O33: each instruction is refused in the first step of its work, or in the one behind the test for the mode. -/
theorem formsTheSourceDoesNotDefineAreRefused : Obligations.FormsTheSourceDoesNotDefineAreRefused := by
  intro s b m m' k
  refine ⟨s.settle_refuse _, s.settle_refuse _, s.settle_refuse _, s.settle_refuse _,
    fun hsys => ⟨State.settle_needSystem_refuse hsys _, State.settle_needSystem_refuse hsys _,
      State.settle_needSystem_refuse hsys _⟩,
    fun hk => ⟨State.settle_bind_refuse _ (State.specialNamed_refused hk), execSetsr_refused m hk⟩,
    fun hk => ⟨State.settle_bind_refuse _ (flagNamed_refused hk), State.settle_bind_refuse _ (flagNamed_refused hk)⟩,
    fun hk => ⟨State.settle_bind_refuse _ (bitNumber_above hk), State.settle_bind_refuse _ (bitNumber_above hk)⟩,
    fun op hop => ?form⟩
  case form =>
    have hbit : bitNumber op = .error (.refuse .bitNumber) := bitNumber_of_not_num (by
      rintro c rfl
      rcases hop with h | h | h | h <;> cases h)
    exact ⟨State.settle_bind_refuse _ hbit, State.settle_bind_refuse _ hbit⟩

end Sys2Proof.Machine
end

section
/-! $DATETIME (43 R165; 92 D42, D43, calendar PRESUMED, Log 48): the date a number of days after 1 January 2000, the parts of
the day, and the seven words stored. Settles O60. -/

namespace Sys2Proof.Machine

/-! ### The year of a number of days -/

theorem yearDays_eq (y : Nat) : yearDays y = if y % 4 = 0 ∧ (y % 100 ≠ 0 ∨ y % 400 = 0) then 366 else 365 := by
  simp [yearDays, isLeap]

theorem le_yearDays (y : Nat) : 365 ≤ yearDays y := by
  rw [yearDays_eq]
  split <;> omega

/-- The leap years up to `y` are those before it, and `y` itself where it has a day more than 365. -/
theorem leapYears_succ {y : Nat} (h : 1 ≤ y) : 365 + (y / 4 + y / 400 - y / 100) =
    (y - 1) / 4 + (y - 1) / 400 - (y - 1) / 100 + yearDays y := by
  rw [yearDays_eq]
  split <;> omega

theorem leapYears_le {y : Nat} (h : 2000 ≤ y) :
    1999 / 4 + 1999 / 400 - 1999 / 100 ≤ (y - 1) / 4 + (y - 1) / 400 - (y - 1) / 100 := by
  omega

theorem daysBeforeYear_succ {y : Nat} (h : 2000 ≤ y) : daysBeforeYear (y + 1) = daysBeforeYear y + yearDays y := by
  have hfirst := leapYears_le h
  have hyear := leapYears_succ (y := y) (by omega)
  unfold daysBeforeYear
  rw [Nat.add_sub_cancel]
  generalize (y - 1) / 4 + (y - 1) / 400 - (y - 1) / 100 = before at *
  generalize y / 4 + y / 400 - y / 100 = upto at *
  omega

theorem le_daysBeforeYear {y : Nat} (h : 2000 ≤ y) : 365 * (y - 2000) ≤ daysBeforeYear y := by
  have hfirst := leapYears_le h
  unfold daysBeforeYear
  generalize (y - 1) / 4 + (y - 1) / 400 - (y - 1) / 100 = before at *
  omega

/-- The years passed are counted in full, and where there is fuel for every 365 days the days left lie in the year reached. -/
theorem splitYear_spec {fuel y days : Nat} (hy : 2000 ≤ y) (hfuel : days < 365 * fuel) :
    2000 ≤ (splitYear fuel y days).1 ∧ (splitYear fuel y days).2 < yearDays (splitYear fuel y days).1 ∧
      daysBeforeYear (splitYear fuel y days).1 + (splitYear fuel y days).2 = daysBeforeYear y + days := by
  induction fuel generalizing y days with
  | zero => omega
  | succ fuel ih =>
    unfold splitYear
    split
    case isTrue hlast => exact ⟨hy, hlast, rfl⟩
    case isFalse hpassed =>
      have hlong := le_yearDays y
      have hnext := daysBeforeYear_succ hy
      obtain ⟨hfrom, hinside, hdays⟩ := ih (y := y + 1) (days := days - yearDays y) (by omega) (by omega)
      exact ⟨hfrom, hinside, by omega⟩

/-! ### The month and the day of the month -/

theorem monthDays_sum (y : Nat) : (monthDays y).sum = yearDays y := by
  unfold monthDays yearDays
  split <;> rfl

/-- A day within the months listed lies in the `j`-th of them, behind the days of those before it. -/
theorem splitMonth_spec {months : List Nat} {m days : Nat} (h : days < months.sum) :
    ∃ j < months.length, (splitMonth months m days).1 = m + j ∧ 1 ≤ (splitMonth months m days).2 ∧
      (splitMonth months m days).2 ≤ months.getD j 0 ∧
      (months.take j).sum + ((splitMonth months m days).2 - 1) = days := by
  induction months generalizing m days with
  | nil => cases h
  | cons len rest ih =>
    rw [List.sum_cons] at h
    unfold splitMonth
    split
    case isTrue hfirst => exact ⟨0, Nat.succ_pos _, rfl, Nat.succ_pos _, hfirst, Nat.zero_add _⟩
    case isFalse hlater =>
      obtain ⟨j, hj, hmonth, hlow, hhigh, hdays⟩ := ih (m := m + 1) (days := days - len) (by omega)
      refine ⟨j + 1, Nat.succ_lt_succ hj, by omega, hlow, hhigh, ?_⟩
      rw [List.take_succ_cons, List.sum_cons]
      omega

/-! ### The parts of a time -/

/-- Year, month, day, weekday, hour, minute and second of a time `t` in seconds since midnight, 1 January 2000 (R165). -/
def IsDateTime (t y mo d wd h mi se : Nat) : Prop :=
  2000 ≤ y ∧ 1 ≤ mo ∧ mo ≤ 12 ∧ 1 ≤ d ∧ d ≤ (monthDays y).getD (mo - 1) 0 ∧ h ≤ 23 ∧ mi ≤ 59 ∧ se ≤ 59 ∧
    daysBeforeYear y + ((monthDays y).take (mo - 1)).sum + (d - 1) = t / 86400 ∧
    wd = (6 + t / 86400) % 7 ∧ 3600 * h + 60 * mi + se = t % 86400

theorem dateTimeParts_spec (t : Nat) :
    ∃ y mo d wd h mi se, dateTimeParts t = [y, mo, d, wd, h, mi, se] ∧ IsDateTime t y mo d wd h mi se := by
  obtain ⟨hfrom, hinside, hyear⟩ :=
    splitYear_spec (fuel := t / 86400 / 365 + 1) (days := t / 86400) (Nat.le_refl 2000) (by omega)
  rw [← monthDays_sum] at hinside
  obtain ⟨j, hj, hmonth, hfirst, hlast, hdays⟩ := splitMonth_spec (m := 1) hinside
  have hcount : j < 12 := hj
  have hindex := Nat.sub_eq_of_eq_add' hmonth
  have hstart : daysBeforeYear 2000 = 0 := rfl
  refine ⟨_, _, _, _, _, _, _, rfl, hfrom, by omega, by omega, hfirst, by rwa [hindex], by omega, by omega, by omega, ?days,
    rfl, by omega⟩
  rw [hindex]
  omega

/-- The parts of a time that fits a word fit a word each. -/
theorem IsDateTime.lt {t y mo d wd h mi se : Nat} (hparts : IsDateTime t y mo d wd h mi se) (ht : t < 2 ^ 32) :
    ∀ n ∈ [y, mo, d, wd, h, mi, se], n < 2 ^ 32 := by
  obtain ⟨hfrom, -, hmo, -, -, hh, hmi, hse, hdays, hwd, -⟩ := hparts
  have hyears := le_daysBeforeYear hfrom
  simp only [List.forall_mem_cons, List.not_mem_nil, false_implies, implies_true, and_true]
  refine ⟨?_, ?_, ?_, ?_, ?_, ?_, ?_⟩ <;> omega

/-! ### The words stored -/

theorem dateTime_answers {s : State} {c t : Word} (hctl : s.control c 1 = some [t]) (ht : 0 ≤ t.toInt) :
    dateTime s c = s.answerWords (c + 2) ((dateTimeParts t.toNat).map (BitVec.ofNat 32)) := by
  simp only [dateTime, hctl, if_neg (Int.not_lt.mpr ht)]

theorem toNat_getD_map_ofNat {ns : List Nat} (h : ∀ n ∈ ns, n < 2 ^ 32) (j : Nat) :
    ((ns.map (BitVec.ofNat 32)).getD j 0).toNat = ns.getD j 0 := by
  have hword : (ns.map (BitVec.ofNat 32)).getD j 0 = BitVec.ofNat 32 (ns.getD j 0) := List.getD_map ..
  have hlt : ns.getD j 0 < 2 ^ 32 := by
    by_cases hj : j < ns.length
    · rw [List.getD_eq_getElem _ _ hj]
      exact h _ (List.getElem_mem hj)
    · rw [List.getD_eq_default _ _ (Nat.not_lt.mp hj)]
      decide
  rw [hword, BitVec.toNat_ofNat, Nat.mod_eq_of_lt hlt]

/-- Settles O60: the parts of the time, each a number that fits a word, are the words stored in the control structure. -/
theorem datetimeStoresThePartsOfTheTime : Obligations.DatetimeStoresThePartsOfTheTime := by
  intro s rd op c t hcall hctl ht
  have hrun := dateTime_answers hctl ht
  obtain ⟨y, mo, d, wd, h, mi, se, hlist, hparts⟩ := dateTimeParts_spec t.toNat
  rw [hlist] at hrun
  refine ⟨fun hunwritable => hcall.ends (hrun.trans (State.answerWords_unwritable _ (hunwritable _))),
    fun hplain => ?stored⟩
  obtain ⟨mem, g, hstored, hinside, houtside⟩ :=
    hplain.storeRun (ws := [y, mo, d, wd, h, mi, se].map (BitVec.ofNat 32)) rfl
  exact ⟨_, _, y, mo, d, wd, h, mi, se, hcall.ends (hrun.trans (State.answerWords_done hstored)),
    State.freeNonNegative_toInt _,
    fun j hj => (congrArg BitVec.toNat (hinside j hj)).trans (toNat_getD_map_ofNat (hparts.lt t.isLt) j), houtside,
    ⟨rfl, rfl, rfl, rfl, rfl⟩, ⟨rfl, rfl⟩, ⟨rfl, rfl, rfl, rfl, rfl, rfl⟩, ⟨rfl, rfl, rfl, rfl, rfl, rfl, rfl, rfl⟩, rfl,
    hparts⟩

end Sys2Proof.Machine
end
